-- ==== Sys2Proof/Word.lean ====
section
/-! DEFINITION. The words of the machine and their plainest arithmetic: bytes, quadwords, the 512-bit vector
register (10_state.md R20), the numbering of bits, bytes and quadwords from the least significant end
(00_scope.md R8, R9), and the one way a value is put together from equal pieces. -/

namespace Sys2Proof

/-- One byte (R31: a byte is 8 bits). -/
abbrev Byte := BitVec 8

/-- A 64-bit value: a quadword of a vector, a general register, a linear address of `Mode64`. -/
abbrev Qword := BitVec 64

/-- The contents of one vector register `ZMM[i]` (R20); a narrower value is held zero-extended. -/
abbrev Vec := BitVec 512

/-- Number of a vector register, 0 to 31 (R20, R73). -/
abbrev VReg := BitVec 5

/-- Number of a general register, 0 to 15 (R24). -/
abbrev GReg := BitVec 4

/-- Number of an opmask register, 0 to 7 (R23). -/
abbrev KReg := BitVec 3

/-- Piece number `k`, of `c` bits, of a value (R9: piece 0 is the least significant one). -/
def piece (c : Nat) {w : Nat} (v : BitVec w) (k : Nat) : BitVec c := v.extractLsb' (c * k) c

/-- `V.byte[k]`, that is `V[8k+7 : 8k]` (R9). -/
abbrev byteAt {w : Nat} (v : BitVec w) (k : Nat) : Byte := piece 8 v k

/-- `V.qword[j]`, that is `V[64j+63 : 64j]` (R9). -/
abbrev qwordAt {w : Nat} (v : BitVec w) (j : Nat) : Qword := piece 64 v j

/-- The value whose pieces 0 to `n - 1`, of `c` bits each, are `f 0` to `f (n - 1)`; all higher bits are 0. -/
def assemble (w c : Nat) (f : Nat → BitVec c) : Nat → BitVec w
  | 0 => 0#w
  | n + 1 => assemble w c f n ||| ((f n).setWidth w <<< (c * n))

end Sys2Proof
end

