-- ==== Sys2Proof/Machine/GaloisField.lean ====
section
/-! DEFINITION. The functions of 40_gf2p8_helpers.md: the product of GF(2^8), the table of inverses, parity, the byte
function, and the vector function the six forms share (41_gf2p8affineinvqb.md R110). They read and write no state. -/

namespace Sys2Proof.Machine

/-- One round of the product (R100): what `a`, `b` and the sum `r` become. -/
def gfmulRound (p : Byte × Byte × Byte) : Byte × Byte × Byte :=
  let (a, b, r) := p
  ((a <<< 1) ^^^ (if a.getLsbD 7 then 0x1B#8 else 0#8), b >>> 1, if b.getLsbD 0 then r ^^^ a else r)

/-- `gfmul(a, b)` (R100), for checking the table only: no instruction multiplies. -/
def gfmul (a b : Byte) : Byte :=
  (gfmulRound (gfmulRound (gfmulRound (gfmulRound
    (gfmulRound (gfmulRound (gfmulRound (gfmulRound (a, b, 0#8))))))))).2.2

/-- Table 2-1 (R101): one row for each upper nibble, its 16 entries from column 0 on, left to right. -/
def inverseRows : List (BitVec 128) := [
  0x00018DF6CB527BD1E84F29C0B0E1E5C7#128,
  0x74B4AA4B992B605F583FFDCCFF40EEB2#128,
  0x3A6E5AF1554DA8C9C10A98153044A2C2#128,
  0x2C45926CF3396642F235206F77BB5919#128,
  0x1DFE37672D31F569A764AB135425E909#128,
  0xED5C05CA4C2487BF183E22F051EC6117#128,
  0x165EAFD349A63643F44791DF3393213B#128,
  0x79B7978510B5BA3CB670D006A1FA8182#128,
  0x837E7F809673BE569B9E95D9F702B9A4#128,
  0xDE6A326DD88A84722A149F88F9DC899A#128,
  0xFB7C2EC38FB8654826C8124ACEE7D262#128,
  0x0CE01FEF11757871A58E763DBDBC8657#128,
  0x0B282FA3DAD4E40FA92753041BFCACE6#128,
  0x7A07AE63C5DBE2EA948BC4D59DF8906B#128,
  0xB10DD6EBC60ECFAD084ED7E35D501EB3#128,
  0x5B2338346846038CDD9C7DA0CD1A411C#128]

/-- `inverse(x)` (R101): the entry in row `x[7:4]`, column `x[3:0]`. -/
def inverse (x : Byte) : Byte :=
  piece 8 (inverseRows.getD (x.extractLsb' 4 4).toNat 0#128) (15 - (x.extractLsb' 0 4).toNat)

/-- `parity(v)` (R103): the XOR of the eight bits. -/
def parity (v : Byte) : Bool :=
  v.getLsbD 7 ^^ v.getLsbD 6 ^^ v.getLsbD 5 ^^ v.getLsbD 4 ^^ v.getLsbD 3 ^^ v.getLsbD 2 ^^ v.getLsbD 1 ^^ v.getLsbD 0

/-- Bit `i` of the byte function (R104): `parity(tsrc2qw.byte[7-i] AND inverse(src1byte)) XOR imm8.bit[i]`. -/
def affineInverseBit (tsrc2qw : Qword) (src1byte imm8 : Byte) (i : Nat) : Bool :=
  parity (byteAt tsrc2qw (7 - i) &&& inverse src1byte) ^^ imm8.getLsbD i

/-- `affine_inverse_byte(tsrc2qw, src1byte, imm8)` (R104). -/
def affineInverseByte (tsrc2qw : Qword) (src1byte imm8 : Byte) : Byte :=
  assemble 8 1 (fun i => BitVec.ofBool (affineInverseBit tsrc2qw src1byte imm8 i)) 8

/-- `AffineInvVec(KL, X, A, imm8)` (R110): byte `b` of quadword `j` of the result is the byte function of quadword `j`
of A and byte `b` of quadword `j` of X. Bits from 64·KL up are 0. -/
def affineInvVec (kl : Nat) (x a : Vec) (imm8 : Byte) : Vec :=
  assemble 512 8 (fun n => affineInverseByte (qwordAt a (n / 8)) (byteAt x n) imm8) (8 * kl)

end Sys2Proof.Machine
end

