-- ==== Sys2Proof/Syntax.lean ====
section
/-! DEFINITION. The instructions: six constructors, one for each row of spec/opcode_table.json (30_encoding.md R77),
over the operands their encoding names (R60 to R76). An instruction keeps every bit of its encoding, the ones the
processor ignores among them, so that its length (R79) and its bytes are functions of it. -/

namespace Sys2Proof

/-- The two operating modes of the spec (00_scope.md R7 `MODE`, decision D2). -/
inductive Mode
  | mode64 | mode32
  deriving DecidableEq, Repr

/-- The segment registers (10_state.md R28). -/
inductive Seg
  | cs | ss | ds | es | fs | gs
  deriving DecidableEq, Repr

/-- A prefix byte that can stand before the opcode or before a VEX or EVEX prefix (R62, R63, R66). -/
inductive Prefix
  /-- segment override: 2E, 36, 3E, 26, 64, 65 -/
  | seg (s : Seg)
  /-- 67, address size -/
  | addrSize
  /-- 66, the mandatory prefix of the legacy form -/
  | opSize
  /-- F2 -/
  | repne
  /-- F3 -/
  | rep
  /-- F0 -/
  | lock
  /-- 40 to 4F in `Mode64`: REX with its bits W R X B -/
  | rex (wrxb : BitVec 4)
  deriving DecidableEq, Repr

/-- SIB.scale (R71). -/
inductive Scale
  | x1 | x2 | x4 | x8
  deriving DecidableEq, Repr

/-- A displacement after ModRM and SIB (R72), as it is encoded: an 8-bit one not yet scaled by N. -/
inductive Disp
  | none
  | d8 (d : Byte)
  | d32 (d : BitVec 32)
  deriving DecidableEq, Repr

/-- The address forms of ModRM.mod other than 11 (R70 to R74). A Bool named `xIgn` or `bIgn` is the extension bit
X or B where the form does not use it. -/
inductive MemAddr
  /-- no SIB byte: `GPR[b] + disp` -/
  | base (b : GReg) (xIgn : Bool) (disp : Disp)
  /-- SIB with a base register; index register number 4 means no index (R74) -/
  | sib (b : GReg) (index : GReg) (scale : Scale) (disp : Disp)
  /-- SIB with mod = 00 and SIB.base = 101: no base register, disp32 -/
  | sibNoBase (bIgn : Bool) (index : GReg) (scale : Scale) (disp : BitVec 32)
  /-- mod = 00 and r/m = 101: RIP-relative in `Mode64`, absolute in `Mode32` -/
  | disp32 (xIgn : Bool) (bIgn : Bool) (disp : BitVec 32)
  deriving DecidableEq, Repr

/-- ModRM:r/m of the legacy and VEX forms (R73): one of 16 registers, or memory. -/
inductive Rm
  | reg (r : BitVec 4) (xIgn : Bool)
  | mem (a : MemAddr)
  deriving DecidableEq, Repr

/-- ModRM:r/m of the EVEX forms (R69, R73): one of 32 registers, memory (b = 0), or a broadcast quadword of memory
(b = 1). The pair "b = 1 with a register" is no value of this type (R69 (a)). -/
inductive EvexRm
  | reg (r : VReg)
  | mem (a : MemAddr)
  | bcst (a : MemAddr)
  deriving DecidableEq, Repr

/-- EVEX.aaa and EVEX.z (R69): no writemask (aaa = 000, z = 0), merging-masking, zeroing-masking. -/
inductive Masking
  | unmasked
  | merging (k : KReg)
  | zeroing (k : KReg)
  deriving DecidableEq, Repr

/-- Operands of the legacy SSE form, Op/En A (R78): ModRM:reg (r, w), ModRM:r/m (r), imm8. `rexW` is the bit W of a
REX prefix directly before 0F, where there is one (R63: W is ignored). -/
structure LegacyForm where
  pfx : List Prefix
  rexW : Option Bool
  dest : BitVec 4
  src2 : Rm
  imm : Byte
  deriving DecidableEq, Repr

/-- Operands of the VEX forms, Op/En B (R78): ModRM:reg (w), VEX.vvvv (r), ModRM:r/m (r), imm8. -/
structure VexForm where
  pfx : List Prefix
  dest : BitVec 4
  src1 : BitVec 4
  src2 : Rm
  imm : Byte
  deriving DecidableEq, Repr

/-- Operands of the EVEX forms, Op/En C (R78): ModRM:reg (w), EVEX.vvvv (r), ModRM:r/m (r), imm8, and the writemask. -/
structure EvexForm where
  pfx : List Prefix
  dest : VReg
  src1 : VReg
  src2 : EvexRm
  mask : Masking
  imm : Byte
  deriving DecidableEq, Repr

/-- The six rows of the opcode table (R77). -/
inductive Instr
  /-- row 1: `GF2P8AFFINEINVQB xmm1, xmm2/m128, imm8` -/
  | legacyXmm (f : LegacyForm)
  /-- row 2: `VGF2P8AFFINEINVQB xmm1, xmm2, xmm3/m128, imm8` -/
  | vexXmm (f : VexForm)
  /-- row 3: `VGF2P8AFFINEINVQB ymm1, ymm2, ymm3/m256, imm8` -/
  | vexYmm (f : VexForm)
  /-- row 4: `VGF2P8AFFINEINVQB xmm1, xmm2, xmm3/m128/m64bcst, imm8`, with writemask k1 and z -/
  | evexXmm (f : EvexForm)
  /-- row 5: `VGF2P8AFFINEINVQB ymm1, ymm2, ymm3/m256/m64bcst, imm8`, with writemask k1 and z -/
  | evexYmm (f : EvexForm)
  /-- row 6: `VGF2P8AFFINEINVQB zmm1, zmm2, zmm3/m512/m64bcst, imm8`, with writemask k1 and z -/
  | evexZmm (f : EvexForm)
  deriving DecidableEq, Repr

/-- Bytes of a displacement (R72). -/
def Disp.size : Disp → Nat
  | .none => 0
  | .d8 _ => 1
  | .d32 _ => 4

/-- Bytes of SIB and displacement after ModRM (R71, R72). -/
def MemAddr.size : MemAddr → Nat
  | .base _ _ d => d.size
  | .sib _ _ _ d => 1 + d.size
  | .sibNoBase _ _ _ _ => 5
  | .disp32 _ _ _ => 4

/-- Bytes after ModRM that the r/m operand takes. -/
def Rm.size : Rm → Nat
  | .reg _ _ => 0
  | .mem a => a.size

/-- Bytes after ModRM that the r/m operand takes. -/
def EvexRm.size : EvexRm → Nat
  | .reg _ => 0
  | .mem a => a.size
  | .bcst a => a.size

/-- Length in bytes (R79): prefixes, REX, `0F 3A CF`, ModRM, SIB and displacement, imm8. -/
def LegacyForm.len (f : LegacyForm) : Nat :=
  f.pfx.length + (if f.rexW.isSome then 1 else 0) + 3 + 1 + f.src2.size + 1

/-- Length in bytes (R79): prefixes, `C4 V1 V2 CF`, ModRM, SIB and displacement, imm8. -/
def VexForm.len (f : VexForm) : Nat := f.pfx.length + 4 + 1 + f.src2.size + 1

/-- Length in bytes (R79): prefixes, `62 P0 P1 P2 CF`, ModRM, SIB and displacement, imm8. -/
def EvexForm.len (f : EvexForm) : Nat := f.pfx.length + 5 + 1 + f.src2.size + 1

/-- Length in bytes of an instruction (R79). -/
def Instr.len : Instr → Nat
  | .legacyXmm f => f.len
  | .vexXmm f => f.len
  | .vexYmm f => f.len
  | .evexXmm f => f.len
  | .evexYmm f => f.len
  | .evexZmm f => f.len

end Sys2Proof
end

