-- ==== Sys2Proof/WellFormed.lean ====
section
/-! DEFINITION. Which instruction terms some byte sequence spells in a given mode: the constraints of
30_encoding.md R60 to R76 that the types of Syntax.lean do not already say. -/

namespace Sys2Proof

/-- Prefixes allowed before a VEX or EVEX prefix (R66): segment overrides and 67; in `Mode32` no 67 (R75). -/
def Prefix.okVex (m : Mode) : Prefix → Bool
  | .seg _ => true
  | .addrSize => m == .mode64
  | .opSize => false
  | .repne => false
  | .rep => false
  | .lock => false
  | .rex _ => false

/-- Prefixes allowed before the opcode of the legacy form (R62, R63): segment overrides, 66, 67 and REX bytes that
another prefix follows; in `Mode32` no 67 (R75) and no REX (R61). -/
def Prefix.okLegacy (m : Mode) : Prefix → Bool
  | .seg _ => true
  | .addrSize => m == .mode64
  | .opSize => true
  | .repne => false
  | .rep => false
  | .lock => false
  | .rex _ => m == .mode64

/-- A prefix byte of the mode: REX exists in `Mode64` only (R61). -/
def Prefix.existsIn (m : Mode) (p : Prefix) : Prop := ∀ b, p = .rex b → m = .mode64

/-- The last prefix byte is a REX byte: it stands directly before what follows (R63). -/
def endsInRex (pfx : List Prefix) : Bool :=
  match pfx.getLast? with
  | some (.rex _) => true
  | _ => false

/-- The low three bits of a register number: what ModRM or SIB holds of it (R73). -/
abbrev low3 {w : Nat} (r : BitVec w) : BitVec 3 := r.extractLsb' 0 3

/-- Bit 3 of a register number: the extension bit R, X, B or the top bit of vvvv (R73). -/
abbrev ext3 {w : Nat} (r : BitVec w) : Bool := r.getLsbD 3

/-- Bit 4 of a vector register number: R', V', or X with a register operand (R67). -/
abbrev ext4 (r : VReg) : Bool := r.getLsbD 4

/-- An address is spelt by the ModRM, SIB and displacement it stands for (R72, R74): r/m = 100 means SIB, so it is
no plain base; with mod = 00 the code 101 means no base register. -/
def MemAddr.ok : MemAddr → Bool
  | .base b _ d => low3 b != 4#3 && (d != .none || low3 b != 5#3)
  | .sib b _ _ d => d != .none || low3 b != 5#3
  | .sibNoBase _ _ _ _ => true
  | .disp32 _ _ _ => true

/-- The extension bit X an address is encoded with. -/
def MemAddr.xBit : MemAddr → Bool
  | .base _ x _ => x
  | .sib _ i _ _ => ext3 i
  | .sibNoBase _ i _ _ => ext3 i
  | .disp32 x _ _ => x

/-- The extension bit B an address is encoded with. -/
def MemAddr.bBit : MemAddr → Bool
  | .base b _ _ => ext3 b
  | .sib b _ _ _ => ext3 b
  | .sibNoBase b _ _ _ => b
  | .disp32 _ b _ => b

def Rm.ok : Rm → Bool
  | .reg _ _ => true
  | .mem a => a.ok

/-- The bit X an r/m operand is encoded with; a register operand of the legacy and VEX forms ignores it (R73). -/
def Rm.xBit : Rm → Bool
  | .reg _ x => x
  | .mem a => a.xBit

/-- The bit B an r/m operand is encoded with. -/
def Rm.bBit : Rm → Bool
  | .reg r _ => ext3 r
  | .mem a => a.bBit

def EvexRm.ok : EvexRm → Bool
  | .reg _ => true
  | .mem a => a.ok
  | .bcst a => a.ok

/-- The bit X an r/m operand is encoded with: bit 4 of a register operand (R67). -/
def EvexRm.xBit : EvexRm → Bool
  | .reg r => ext4 r
  | .mem a => a.xBit
  | .bcst a => a.xBit

/-- The bit B an r/m operand is encoded with. -/
def EvexRm.bBit : EvexRm → Bool
  | .reg r => ext3 r
  | .mem a => a.bBit
  | .bcst a => a.bBit

/-- Opmask number 0 is no writemask (R69), so no `merging` or `zeroing` names it. -/
def Masking.ok : Masking → Bool
  | .unmasked => true
  | .merging k => k != 0#3
  | .zeroing k => k != 0#3

/-- Every extension bit of a legacy form is 0. -/
def LegacyForm.noExt (f : LegacyForm) : Bool := !ext3 f.dest && !f.src2.xBit && !f.src2.bBit

/-- Every extension bit of a VEX form is 0 (R73). -/
def VexForm.noExt (f : VexForm) : Bool :=
  !ext3 f.dest && !ext3 f.src1 && !f.src2.xBit && !f.src2.bBit

/-- Every extension bit of an EVEX form is 0 (R73). -/
def EvexForm.noExt (f : EvexForm) : Bool :=
  !ext3 f.dest && !ext4 f.dest && !ext3 f.src1 && !ext4 f.src1 && !f.src2.xBit && !f.src2.bBit

/-- The fields of a legacy form are those some bytes spell in mode `m`: 66 is among its prefixes, none is forbidden, a
REX byte is in force exactly when it is the last prefix (R62, R63). -/
def LegacyForm.fieldsOk (m : Mode) (f : LegacyForm) : Bool :=
  f.pfx.all (Prefix.okLegacy m) && f.pfx.contains .opSize && f.src2.ok &&
  match f.rexW with
  | none => f.noExt && !endsInRex f.pfx
  | some _ => m == .mode64

/-- The fields of a VEX form are those some bytes spell in mode `m` (R64 to R66, R73). -/
def VexForm.fieldsOk (m : Mode) (f : VexForm) : Bool :=
  f.pfx.all (Prefix.okVex m) && f.src2.ok && (m == .mode64 || f.noExt)

/-- The fields of an EVEX form are those some bytes spell in mode `m` (R66 to R69, R73). -/
def EvexForm.fieldsOk (m : Mode) (f : EvexForm) : Bool :=
  f.pfx.all (Prefix.okVex m) && f.src2.ok && f.mask.ok && (m == .mode64 || f.noExt)

/-- The fields of an instruction are those some bytes spell in mode `m`, however many bytes that takes. -/
def FieldsOk (m : Mode) : Instr → Bool
  | .legacyXmm f => f.fieldsOk m
  | .vexXmm f => f.fieldsOk m
  | .vexYmm f => f.fieldsOk m
  | .evexXmm f => f.fieldsOk m
  | .evexYmm f => f.fieldsOk m
  | .evexZmm f => f.fieldsOk m

/-- A legacy form that bytes spell in mode `m`, at most 15 of them (R60). -/
def LegacyForm.wellFormed (m : Mode) (f : LegacyForm) : Bool := f.fieldsOk m && decide (f.len ≤ 15)

/-- A VEX form that bytes spell in mode `m`, at most 15 of them (R60). -/
def VexForm.wellFormed (m : Mode) (f : VexForm) : Bool := f.fieldsOk m && decide (f.len ≤ 15)

/-- An EVEX form that bytes spell in mode `m`, at most 15 of them (R60). -/
def EvexForm.wellFormed (m : Mode) (f : EvexForm) : Bool := f.fieldsOk m && decide (f.len ≤ 15)

/-- The instruction is spelt by some bytes in mode `m`. -/
def WellFormed (m : Mode) : Instr → Bool
  | .legacyXmm f => f.wellFormed m
  | .vexXmm f => f.wellFormed m
  | .vexYmm f => f.wellFormed m
  | .evexXmm f => f.wellFormed m
  | .evexYmm f => f.wellFormed m
  | .evexZmm f => f.wellFormed m

end Sys2Proof
end

