-- ==== Sys2Proof/Decode.lean ====
section
/-! DEFINITION. From bytes to an instruction (30_encoding.md R60 to R80), total, rejecting by name; and after it the
encoder, written from the same tables. -/

namespace Sys2Proof

/-- Why bytes are no instruction of the model. The first two are faults of the processor, the others are encodings
of which the spec makes no claim (R13, R80). -/
inductive Reject
  /-- an encoding of one of the six rows that raises #UD (R80, R144) -/
  | undefinedOpcode
  /-- longer than 15 bytes: #GP(0) (R60) -/
  | tooLong
  /-- the bytes end before the instruction does -/
  | truncated
  /-- not one of the six rows: another, out-of-scope instruction (R6, R80) -/
  | otherInstruction
  /-- `0F 3A CF` without a 66 prefix (R62) -/
  | noMandatory66
  /-- F2 or F3 with the legacy form (R62) -/
  | repPrefix
  /-- VEX.W = 0 or EVEX.W = 0 (R80, D20) -/
  | wZero
  /-- a register extension bit in `Mode32` (R73, D32) -/
  | mode32Extension
  /-- 67 in `Mode32`: 16-bit addressing (R75, D24) -/
  | addr16
  deriving DecidableEq, Repr

/-- What a stage of the decoder answers when the bytes suffice. -/
abbrev Verdict := Except Reject Instr

/-! ## Prefixes -/

/-- A byte read as a prefix (R62, R63); REX exists in `Mode64` only (R61). -/
def prefixOf (m : Mode) (b : Byte) : Option Prefix :=
  if b = 0x66#8 then some .opSize
  else if b = 0x67#8 then some .addrSize
  else if b = 0x2E#8 then some (.seg .cs)
  else if b = 0x36#8 then some (.seg .ss)
  else if b = 0x3E#8 then some (.seg .ds)
  else if b = 0x26#8 then some (.seg .es)
  else if b = 0x64#8 then some (.seg .fs)
  else if b = 0x65#8 then some (.seg .gs)
  else if b = 0xF2#8 then some .repne
  else if b = 0xF3#8 then some .rep
  else if b = 0xF0#8 then some .lock
  else if m = .mode64 ∧ b.extractLsb' 4 4 = 4#4 then some (.rex (b.extractLsb' 0 4))
  else none

/-- The prefix bytes at the front, and the bytes after them (R61). -/
def scanPrefixes (m : Mode) : List Byte → List Prefix × List Byte
  | [] => ([], [])
  | b :: bs =>
    match prefixOf m b with
    | some p => (p :: (scanPrefixes m bs).1, (scanPrefixes m bs).2)
    | none => ([], b :: bs)

/-- A REX byte that is the last prefix is in force; the prefixes before it, and its bits W R X B (R63). -/
def splitRex (pfx : List Prefix) : List Prefix × Option (BitVec 4) :=
  match pfx.getLast? with
  | some (.rex b) => (pfx.dropLast, some b)
  | _ => (pfx, none)

/-- A prefix that raises #UD before a VEX or EVEX prefix: 66, F2, F3, F0 or REX (R66). -/
def Prefix.badBeforeVex : Prefix → Bool
  | .seg _ => false
  | .addrSize => false
  | .opSize => true
  | .repne => true
  | .rep => true
  | .lock => true
  | .rex _ => true

/-! ## ModRM, SIB and displacement. `none` means that the bytes ended. -/

/-- A little-endian 32-bit displacement (R72). -/
def take32 : List Byte → Option (BitVec 32 × List Byte)
  | b0 :: b1 :: b2 :: b3 :: rest => some (b3 ++ b2 ++ b1 ++ b0, rest)
  | _ => none

/-- The displacement that ModRM.mod asks for (R72). -/
def takeDisp (mod : BitVec 2) (bs : List Byte) : Option (Disp × List Byte) :=
  if mod = 0#2 then some (.none, bs)
  else if mod = 1#2 then
    match bs with
    | [] => none
    | d :: rest => some (.d8 d, rest)
  else (take32 bs).map fun p => (.d32 p.1, p.2)

/-- SIB.scale (R71). -/
def Scale.ofBits (b : BitVec 2) : Scale :=
  if b = 0#2 then .x1 else if b = 1#2 then .x2 else if b = 2#2 then .x4 else .x8

/-- ModRM:r/m before the form gives it its width: a register field, or memory. -/
inductive RmField
  | reg (r : BitVec 3)
  | mem (a : MemAddr)
  deriving DecidableEq, Repr

/-- The SIB byte and its displacement, with the extension bits X and B (R71, R72, R74). -/
def takeSib (x b : Bool) (mod : BitVec 2) : List Byte → Option (MemAddr × List Byte)
  | [] => none
  | sib :: bs =>
    let scale := Scale.ofBits (sib.extractLsb' 6 2)
    let index : GReg := BitVec.ofBool x ++ sib.extractLsb' 3 3
    let base := sib.extractLsb' 0 3
    if mod = 0#2 ∧ base = 5#3 then
      (take32 bs).map fun p => (.sibNoBase b index scale p.1, p.2)
    else
      (takeDisp mod bs).map fun p => (.sib (BitVec.ofBool b ++ base) index scale p.1, p.2)

/-- ModRM and what follows it up to the immediate: the field `reg`, the operand `r/m`, the bytes left (R70 to R74). -/
def takeModRM (x b : Bool) : List Byte → Option (BitVec 3 × RmField × List Byte)
  | [] => none
  | modrm :: bs =>
    let mod := modrm.extractLsb' 6 2
    let reg := modrm.extractLsb' 3 3
    let rm := modrm.extractLsb' 0 3
    if mod = 3#2 then some (reg, .reg rm, bs)
    else if rm = 4#3 then (takeSib x b mod bs).map fun p => (reg, .mem p.1, p.2)
    else if mod = 0#2 ∧ rm = 5#3 then (take32 bs).map fun p => (reg, .mem (.disp32 x b p.1), p.2)
    else (takeDisp mod bs).map fun p => (reg, .mem (.base (BitVec.ofBool b ++ rm) x p.1), p.2)

/-- ModRM, SIB, displacement and the immediate after them (R76: imm8 is the last byte). -/
def takeOperands (x b : Bool) (bs : List Byte) : Option (BitVec 3 × RmField × Byte) :=
  match takeModRM x b bs with
  | none => none
  | some (_, _, []) => none
  | some (reg, rm, imm :: _) => some (reg, rm, imm)

/-- The r/m operand of the legacy and VEX forms (R73; X is ignored with a register operand). -/
def RmField.toRm (x b : Bool) : RmField → Rm
  | .reg r => .reg (BitVec.ofBool b ++ r) x
  | .mem a => .mem a

/-! ## The three encodings -/

/-- Go on if the next byte is `b`; the instruction is another one if it is not. -/
def expect (b : Byte) (bs : List Byte) (k : List Byte → Option Verdict) : Option Verdict :=
  match bs with
  | [] => none
  | c :: rest => if c = b then k rest else some (.error .otherInstruction)

/-- The legacy form after its prefixes: `0F 3A CF /r ib` (R62, R63). -/
def decodeLegacy (m : Mode) (allPfx : List Prefix) (bs : List Byte) : Option Verdict :=
  expect 0x0F#8 bs fun bs =>
  expect 0x3A#8 bs fun bs =>
  expect 0xCF#8 bs fun bs =>
  let pfx := (splitRex allPfx).1
  let rex := ((splitRex allPfx).2).getD 0#4
  if allPfx.contains .repne || allPfx.contains .rep then some (.error .repPrefix)
  else if !allPfx.contains .opSize then some (.error .noMandatory66)
  else if m = .mode32 ∧ allPfx.contains .addrSize = true then some (.error .addr16)
  else
    match takeOperands (rex.getLsbD 1) (rex.getLsbD 0) bs with
    | none => none
    | some (reg, rm, imm) =>
      if allPfx.contains .lock then some (.error .undefinedOpcode)
      else some (.ok (.legacyXmm
        { pfx := pfx
          rexW := (splitRex allPfx).2.map (fun r => r.getLsbD 3)
          dest := BitVec.ofBool (rex.getLsbD 2) ++ reg
          src2 := rm.toRm (rex.getLsbD 1) (rex.getLsbD 0)
          imm := imm }))

/-- The VEX forms after the byte C4: `V1 V2 CF /r ib` (R64 to R66). DESIGN CHOICE, safe (log entry 12): where several refused
rows of R80 hold at once, another instruction is named before W = 0, that before an extension bit in `Mode32`, that
before a 67 prefix in `Mode32`. -/
def decodeVex (m : Mode) (pfx : List Prefix) : List Byte → Option Verdict
  | v1 :: v2 :: op :: bs =>
    if v1.extractLsb' 0 5 ≠ 3#5 ∨ v2.extractLsb' 0 2 ≠ 1#2 ∨ op ≠ 0xCF#8 then some (.error .otherInstruction)
    else if v2.getLsbD 7 = false then some (.error .wZero)
    else
      let r := !v1.getLsbD 7
      let x := !v1.getLsbD 6
      let b := !v1.getLsbD 5
      let vvvv : BitVec 4 := ~~~(v2.extractLsb' 3 4)
      if m = .mode32 ∧ (r || x || b || vvvv.getLsbD 3) = true then some (.error .mode32Extension)
      else if m = .mode32 ∧ pfx.contains .addrSize = true then some (.error .addr16)
      else
        match takeOperands x b bs with
        | none => none
        | some (reg, rm, imm) =>
          if pfx.any Prefix.badBeforeVex then some (.error .undefinedOpcode)
          else
            let f : VexForm :=
              { pfx := pfx
                dest := BitVec.ofBool r ++ reg
                src1 := vvvv
                src2 := rm.toRm x b
                imm := imm }
            some (.ok (if v2.getLsbD 2 then .vexYmm f else .vexXmm f))
  | _ => none

/-- EVEX.z and EVEX.aaa read as a writemask; z = 1 with aaa = 000 raises #UD (R69 (b)). -/
def maskOf (z : Bool) (aaa : KReg) : Except Reject Masking :=
  if aaa = 0#3 then (if z then .error .undefinedOpcode else .ok .unmasked)
  else .ok (if z then .zeroing aaa else .merging aaa)

/-- The r/m operand of an EVEX form; b = 1 with a register operand raises #UD (R69 (a), R73). -/
def RmField.toEvexRm (x b bcst : Bool) : RmField → Except Reject EvexRm
  | .reg r => if bcst then .error .undefinedOpcode else .ok (.reg (BitVec.ofBool x ++ (BitVec.ofBool b ++ r)))
  | .mem a => .ok (if bcst then .bcst a else .mem a)

/-- The row that EVEX.L'L selects; 11 raises #UD (R68, R80). -/
def evexRow (ll : BitVec 2) (f : EvexForm) : Verdict :=
  if ll = 0#2 then .ok (.evexXmm f)
  else if ll = 1#2 then .ok (.evexYmm f)
  else if ll = 2#2 then .ok (.evexZmm f)
  else .error .undefinedOpcode

/-- The EVEX forms after the byte 62: `P0 P1 P2 CF /r ib` (R66 to R69). W = 0 is refused with map 0F 3A only; the map
code 00 raises #UD whatever W is (R67, R80). Of several refused rows the one named is chosen as in `decodeVex` (DESIGN
CHOICE, safe; log entry 12). -/
def decodeEvex (m : Mode) (pfx : List Prefix) : List Byte → Option Verdict
  | p0 :: p1 :: p2 :: op :: bs =>
    let mm := p0.extractLsb' 0 2
    if (mm ≠ 3#2 ∧ mm ≠ 0#2) ∨ p1.extractLsb' 0 2 ≠ 1#2 ∨ op ≠ 0xCF#8 then some (.error .otherInstruction)
    else if mm = 3#2 ∧ p1.getLsbD 7 = false then some (.error .wZero)
    else
      let r := !p0.getLsbD 7
      let x := !p0.getLsbD 6
      let b := !p0.getLsbD 5
      let r' := !p0.getLsbD 4
      let vvvv : BitVec 4 := ~~~(p1.extractLsb' 3 4)
      let v' := !p2.getLsbD 3
      if m = .mode32 ∧ (r || x || b || r' || v' || vvvv.getLsbD 3) = true then some (.error .mode32Extension)
      else if m = .mode32 ∧ pfx.contains .addrSize = true then some (.error .addr16)
      else
        match takeOperands x b bs with
        | none => none
        | some (reg, rm, imm) =>
          if pfx.any Prefix.badBeforeVex ∨ mm = 0#2 ∨ p0.extractLsb' 2 2 ≠ 0#2 ∨ p1.getLsbD 2 = false then
            some (.error .undefinedOpcode)
          else
            match rm.toEvexRm x b (p2.getLsbD 4), maskOf (p2.getLsbD 7) (p2.extractLsb' 0 3) with
            | .ok src2, .ok mask =>
              some (evexRow (p2.extractLsb' 5 2)
                { pfx := pfx
                  dest := BitVec.ofBool r' ++ (BitVec.ofBool r ++ reg)
                  src1 := BitVec.ofBool v' ++ vvvv
                  src2 := src2
                  mask := mask
                  imm := imm })
            | .error e, _ => some (.error e)
            | .ok _, .error e => some (.error e)
  | _ => none

/-- In `Mode32` the bytes C4 and 62 begin a VEX or EVEX prefix only if bits 7:6 of the next byte are 11 (R61). -/
def escapes (m : Mode) : List Byte → Option Bool
  | [] => none
  | b :: _ => some (m = .mode64 ∨ b.extractLsb' 6 2 = 3#2)

/-- One instruction at the front of at most 15 bytes; `none` if they end before it does. -/
def decodeWindow (m : Mode) (bs : List Byte) : Option Verdict :=
  match scanPrefixes m bs with
  | (_, []) => none
  | (pfx, b :: rest) =>
    if b = 0xC4#8 ∨ b = 0x62#8 then
      match escapes m rest with
      | none => none
      | some false => some (.error .otherInstruction)
      | some true => if b = 0xC4#8 then decodeVex m pfx rest else decodeEvex m pfx rest
    else decodeLegacy m pfx (b :: rest)

/-- The longest instruction (R60). -/
def maxLength : Nat := 15

/-- The instruction at the front of a list of bytes. Bytes that end within the first 15 are cut off (`truncated`); an
instruction that needs more than 15 is too long (R60). -/
def decode (m : Mode) (bs : List Byte) : Verdict :=
  match decodeWindow m (bs.take maxLength) with
  | some v => v
  | none => .error (if maxLength ≤ bs.length then .tooLong else .truncated)

/-! ## The encoder -/

/-- The byte of a prefix (R62, R63). -/
def Prefix.byte : Prefix → Byte
  | .seg .cs => 0x2E#8
  | .seg .ss => 0x36#8
  | .seg .ds => 0x3E#8
  | .seg .es => 0x26#8
  | .seg .fs => 0x64#8
  | .seg .gs => 0x65#8
  | .addrSize => 0x67#8
  | .opSize => 0x66#8
  | .repne => 0xF2#8
  | .rep => 0xF3#8
  | .lock => 0xF0#8
  | .rex b => 4#4 ++ b

/-- SIB.scale (R71). -/
def Scale.toBits : Scale → BitVec 2
  | .x1 => 0#2
  | .x2 => 1#2
  | .x4 => 2#2
  | .x8 => 3#2

/-- The bytes of a 32-bit value, lowest first (R41, R72). -/
def bytes32 (d : BitVec 32) : List Byte :=
  [d.extractLsb' 0 8, d.extractLsb' 8 8, d.extractLsb' 16 8, d.extractLsb' 24 8]

/-- The displacement's bytes (R72). -/
def Disp.bytes : Disp → List Byte
  | .none => []
  | .d8 d => [d]
  | .d32 d => bytes32 d

/-- ModRM.mod for a displacement (R72). -/
def Disp.mod : Disp → BitVec 2
  | .none => 0#2
  | .d8 _ => 1#2
  | .d32 _ => 2#2

/-- The ModRM byte (R70). -/
def modRM (mod : BitVec 2) (reg rm : BitVec 3) : Byte := mod ++ (reg ++ rm)

/-- The SIB byte (R71). -/
def sibByte (scale : Scale) (index base : BitVec 3) : Byte := scale.toBits ++ (index ++ base)

/-- ModRM, SIB and displacement of an address (R70 to R74). -/
def MemAddr.bytes (reg : BitVec 3) : MemAddr → List Byte
  | .base b _ d => modRM d.mod reg (low3 b) :: d.bytes
  | .sib b i s d => modRM d.mod reg 4#3 :: sibByte s (low3 i) (low3 b) :: d.bytes
  | .sibNoBase _ i s d => modRM 0#2 reg 4#3 :: sibByte s (low3 i) 5#3 :: bytes32 d
  | .disp32 _ _ d => modRM 0#2 reg 5#3 :: bytes32 d

/-- ModRM and what follows it for an r/m operand. -/
def Rm.bytes (reg : BitVec 3) : Rm → List Byte
  | .reg r _ => [modRM 3#2 reg (low3 r)]
  | .mem a => a.bytes reg

/-- ModRM and what follows it for an r/m operand. -/
def EvexRm.bytes (reg : BitVec 3) : EvexRm → List Byte
  | .reg r => [modRM 3#2 reg (low3 r)]
  | .mem a => a.bytes reg
  | .bcst a => a.bytes reg

/-- EVEX.b (R69). -/
def EvexRm.bcstBit : EvexRm → Bool
  | .reg _ => false
  | .mem _ => false
  | .bcst _ => true

/-- EVEX.z (R69). -/
def Masking.z : Masking → Bool
  | .unmasked => false
  | .merging _ => false
  | .zeroing _ => true

/-- EVEX.aaa (R69). -/
def Masking.aaa : Masking → KReg
  | .unmasked => 0#3
  | .merging k => k
  | .zeroing k => k

/-- The legacy form: prefixes, REX, `0F 3A CF`, ModRM, SIB, displacement, imm8 (R60, R62, R63). -/
def LegacyForm.encode (f : LegacyForm) : List Byte :=
  f.pfx.map Prefix.byte ++
  (match f.rexW with
   | none => []
   | some w => [4#4 ++ (BitVec.ofBool w ++ (BitVec.ofBool (ext3 f.dest) ++
       (BitVec.ofBool f.src2.xBit ++ BitVec.ofBool f.src2.bBit)))]) ++
  [0x0F#8, 0x3A#8, 0xCF#8] ++ f.src2.bytes (low3 f.dest) ++ [f.imm]

/-- The VEX forms: prefixes, `C4 V1 V2 CF`, ModRM, SIB, displacement, imm8 (R60, R64, R65). -/
def VexForm.encode (l : Bool) (f : VexForm) : List Byte :=
  f.pfx.map Prefix.byte ++
  [0xC4#8,
   BitVec.ofBool (!ext3 f.dest) ++ (BitVec.ofBool (!f.src2.xBit) ++ (BitVec.ofBool (!f.src2.bBit) ++ 3#5)),
   1#1 ++ (~~~f.src1 ++ (BitVec.ofBool l ++ 1#2)),
   0xCF#8] ++ f.src2.bytes (low3 f.dest) ++ [f.imm]

/-- The EVEX forms: prefixes, `62 P0 P1 P2 CF`, ModRM, SIB, displacement, imm8 (R60, R67, R68). -/
def EvexForm.encode (ll : BitVec 2) (f : EvexForm) : List Byte :=
  f.pfx.map Prefix.byte ++
  [0x62#8,
   BitVec.ofBool (!ext3 f.dest) ++ (BitVec.ofBool (!f.src2.xBit) ++ (BitVec.ofBool (!f.src2.bBit) ++
     (BitVec.ofBool (!ext4 f.dest) ++ 3#4))),
   1#1 ++ (~~~(f.src1.extractLsb' 0 4) ++ 5#3),
   BitVec.ofBool f.mask.z ++ (ll ++ (BitVec.ofBool f.src2.bcstBit ++ (BitVec.ofBool (!ext4 f.src1) ++ f.mask.aaa))),
   0xCF#8] ++ f.src2.bytes (low3 f.dest) ++ [f.imm]

/-- The bytes of an instruction, in the order of their addresses. -/
def encode : Instr → List Byte
  | .legacyXmm f => f.encode
  | .vexXmm f => f.encode false
  | .vexYmm f => f.encode true
  | .evexXmm f => f.encode 0#2
  | .evexYmm f => f.encode 1#2
  | .evexZmm f => f.encode 2#2

/-! ## Words numbered as spec/opcode_table.json numbers them -/

/-- The bytes of a table word, the byte of bits 7..0 first, `maxLength` of them, zero above `nbits`. A window that
starts at the byte 0F is the legacy row's, which starts after its prefixes (R84): its required prefix 66 stands
before it. Log entry 19. -/
def tableBytes (nbits w : Nat) : List Byte :=
  let raw := (List.range maxLength).map fun k => BitVec.ofNat 8 ((w % 2 ^ nbits) >>> (8 * k))
  if w % 256 = 0x0F then 0x66#8 :: raw.dropLast else raw

/-- The instruction the decoder reads, in `Mode64`, from an instruction whose bits are `w`. -/
def decodeTableWord (nbits w : Nat) : Option Instr :=
  match decode .mode64 (tableBytes nbits w) with
  | .ok i => some i
  | .error _ => none

end Sys2Proof
end

