-- ==== Sys2Proof/Config.lean ====
section
/-! DEFINITION. What one processor fixes (00_scope.md R7: the CPUID feature flags and the width of a canonical
address) as plain data that `State` carries and no step changes, and the two FREE VALUES of the model: opaque
constants, so that a claim about them holds whatever they are. -/

namespace Sys2Proof

/-- `LA_BITS` (R7, R40): how many low bits of a linear address are significant in `Mode64`. -/
inductive LaBits
  | la48 | la57
  deriving DecidableEq, Repr

/-- The number `LA_BITS` stands for. -/
def LaBits.bits : LaBits → Nat
  | .la48 => 48
  | .la57 => 57

/-- The implementation parameters of R7 that are constant for the life of the processor (R30). -/
structure Config where
  /-- CPUID feature flag GFNI -/
  hasGfni : Bool
  /-- CPUID feature flag AVX -/
  hasAvx : Bool
  /-- CPUID feature flag AVX512F -/
  hasAvx512f : Bool
  /-- CPUID feature flag AVX512VL -/
  hasAvx512vl : Bool
  /-- canonical linear-address width -/
  laBits : LaBits
  deriving DecidableEq, Repr

/-- `MAX_VL` in bits: 512 if AVX512F, else 256 if AVX, else 128 (R7, decision D5). -/
def Config.maxVl (c : Config) : Nat :=
  if c.hasAvx512f then 512 else if c.hasAvx then 256 else 128

/-- The constraints R7 puts between the flags: AVX512VL implies AVX512F, and AVX512F implies AVX. -/
def Config.wf (c : Config) : Bool :=
  (!c.hasAvx512vl || c.hasAvx512f) && (!c.hasAvx512f || c.hasAvx)

/-- FREE VALUE (20_memory.md R52, U12): what another agent has put into one byte of a page marked shared, at one
draw. DESIGN CHOICE in form only: nothing constrains it; log entry 9. -/
opaque Config.sharedByte : Nat → Byte

/-- FREE VALUE (60_exceptions.md R147, U9): which of several faulting bytes a page fault reports. Nothing constrains
it; log entry 8. -/
opaque Config.faultChoice : Nat → Nat

end Sys2Proof
end

