-- ==== Sys2Proof/Machine/State.lean ====
section
/-! DEFINITION. The state of the machine as plain data (10_state.md R20 to R33, 00_scope.md R7), the reasons a step
stops, and the state after power-up reset. -/

namespace Sys2Proof.Machine

/-- Data memory by physical address: strictly rising addresses, no entry equal to what an unlisted address reads as
(`Memory.wf` in Machine/Memory.lean). -/
abbrev Memory := List Host.Cell

/-- Program text by the address `rip` holds (20_memory.md R55: a parameter of the step, apart from data memory):
strictly rising addresses. -/
abbrev ProgramText := List Host.Cell

/-- The operating mode. `Mode64` and `Mode32` are the spec's two (R7); in the others the model has no meaning (R6). -/
inductive OpMode
  | running (m : Mode)
  | realAddress
  | virtual8086
  | systemManagement
  | code16
  deriving DecidableEq, Repr

/-- The offsets from `first` to `last`. -/
structure OffsetRange where
  first : BitVec 32
  last : BitVec 32
  deriving DecidableEq, Repr

/-- One segment register with what its descriptor gave it (20_memory.md R57, R58). `base` is the parameter `SegBase`;
`limit`, `usable` and `executeOnly` are the parameter `SegCheck` as plain data (R7; log entry 21). -/
structure SegReg where
  selector : BitVec 16
  /-- the base; `Mode32` uses the low 32 bits -/
  base : Qword
  /-- the offsets that are inside the limit, whichever they are (a segment need not begin at offset 0) -/
  limit : List OffsetRange
  /-- false for a null selector (R58) -/
  usable : Bool
  /-- an execute-only code segment cannot be read (R58) -/
  executeOnly : Bool
  deriving DecidableEq, Repr

/-- The six segment registers (10_state.md R28). -/
structure SegFile where
  cs : SegReg
  ss : SegReg
  ds : SegReg
  es : SegReg
  fs : SegReg
  gs : SegReg
  deriving DecidableEq, Repr

/-- The label of a page (20_memory.md R49, R51, R52). DESIGN CHOICE, unsafe: `shared` is a third label that `Translate`
answers for a range of linear addresses, so it belongs to the linear page and not to the physical bytes; log entry 29. -/
inductive PageKind
  /-- memory that only this thread writes -/
  | ordinary
  /-- memory that another agent may write at any time (R52) -/
  | shared
  /-- memory where a read can have side effects (R49) -/
  | device
  deriving DecidableEq, Repr

/-- The bits of a page-fault error code that the cause of the fault decides (R51). -/
structure PfCause where
  /-- P: a protection violation, not an absent page -/
  protection : Bool
  /-- RSVD: a reserved bit was set in a paging entry -/
  reservedBit : Bool
  /-- PK: a protection key denied the read -/
  protectionKey : Bool
  deriving DecidableEq, Repr

/-- What `Translate` answers for a range of linear addresses (R51). -/
inductive PageAccess
  /-- `ok`: the physical address of the range's first byte, and the label -/
  | ok (phys : Nat) (kind : PageKind)
  /-- `fault` -/
  | fault (cause : PfCause)
  deriving DecidableEq, Repr

/-- One row of `Translate`: the linear addresses `base` to `base + size - 1`, the privilege levels it speaks of, the
answer. -/
structure Mapping where
  base : Nat
  size : Nat
  cpls : List (BitVec 2)
  access : PageAccess
  deriving DecidableEq, Repr

/-- The parameter function `Translate` of a data read (R51) as plain data. -/
inductive Translation
  /-- paging off: the identity, all of it ordinary memory (R51) -/
  | pagingOff
  /-- the first row that covers the address and the privilege level answers; where none does, the page is absent -/
  | table (rows : List Mapping)
  deriving DecidableEq, Repr

/-- Why the processor raises an exception (60_exceptions.md R141). The outcome carries the vector by its name, the
error code and the recorded information; the state is unchanged and the run ends (R13, R150, R152). -/
inductive Fault
  /-- #UD, vector 6, no error code: raised by every form (R144) and by the encodings of R80. Safe: the run stops. -/
  | ud
  /-- #NM, vector 7, no error code: raised by every form when CR0.TS = 1 (R145). Safe: the run stops. -/
  | nm
  /-- #SS(0), vector 12: an operand through SS outside its segment or not canonical (R146). Safe: the run stops. -/
  | ss
  /-- #GP(0), vector 13: an operand misaligned (legacy form), outside its segment or not canonical (R146), or an
  instruction longer than 15 bytes (R60). Safe: the run stops. -/
  | gp
  /-- #PF(code), vector 14, with the faulting linear address (R147). Safe: the run stops; which of several faulting
  bytes is reported is a free value. -/
  | pf (code : BitVec 32) (cr2 : Qword)
  deriving DecidableEq, Repr

/-- Why the model has no meaning for a step (00_scope.md R13: a statement about the spec, not about the processor). -/
inductive Refusal
  /-- an instruction that has no meaning yet: raised by exec's arm. Safe: the run stops. -/
  | notModelled (mnemonic : String)
  /-- real-address, virtual-8086 or system-management mode, a 16-bit code segment, or CR0.PE = 0: raised by step and
  by every form (R6, R171 row 1). Safe: the run stops. -/
  | unmodelledMode
  /-- a byte of the instruction is not in the program text: raised by step (R55, R171 row 7). Safe: the run stops. -/
  | outsideText
  /-- the bytes are no row of the opcode table: raised by step (R6, R80). Safe: the run stops. -/
  | otherInstruction
  /-- `0F 3A CF` without 66: raised by step (R62, D22). Safe: the run stops. -/
  | noMandatory66
  /-- F2 or F3 with the legacy form: raised by step (R62, D22). Safe: the run stops. -/
  | repPrefix
  /-- VEX.W = 0 or EVEX.W = 0: raised by step (R80, D20). Safe: the run stops. -/
  | wZero
  /-- a register extension bit in `Mode32`: raised by step (R73, D32). Safe: the run stops. -/
  | mode32Extension
  /-- 16-bit addressing, a 67 prefix in `Mode32`: raised by step (R75, D24). Safe: the run stops. -/
  | addr16
  /-- the memory operand touches a device page: raised by the memory forms (R49, D11). Safe: the run stops. -/
  | deviceMemory
  /-- rip + len wraps or leaves the canonical range: raised by every form (R25, D9). Safe: the run stops. -/
  | ripWrap
  deriving DecidableEq, Repr

/-- Everything the spec gives the machine. No instruction writes a field other than `zmm`, `rip` and the model's own
`draws` (41_gf2p8affineinvqb.md R120). -/
structure State where
  /-- the processor's parameters, constant (R7, R30) -/
  cfg : Config
  /-- `MODE` (R7) -/
  mode : OpMode
  /-- current privilege level, read by `Translate` only (R155) -/
  cpl : BitVec 2
  /-- vector registers; XMM and YMM are their low parts (R20) -/
  zmm : Vector Vec 32
  /-- opmask registers (R23) -/
  k : Vector Qword 8
  /-- general registers; `Mode32` sees the low 32 bits of the first eight (R24) -/
  gpr : Vector Qword 16
  /-- program counter; `eip` in `Mode32` (R25) -/
  rip : Qword
  /-- status flags, neither read nor written (R26) -/
  rflags : Qword
  /-- SIMD floating-point control and status, neither read nor written (R27) -/
  mxcsr : BitVec 32
  /-- segment registers (R28) -/
  segs : SegFile
  /-- control register 0: PE, EM, TS are read (R29) -/
  cr0 : Qword
  /-- page-fault linear address register, written by exception delivery only, which is out of scope (R29, R147) -/
  cr2 : Qword
  /-- control register 4: OSFXSR, OSXSAVE are read (R29) -/
  cr4 : Qword
  /-- extended control register 0: bits 1, 2, 5, 6, 7 are read (R29) -/
  xcr0 : Qword
  /-- IA32_EFER: the model reads `mode` in its place (R29) -/
  efer : Qword
  /-- `Translate` (R51) -/
  translation : Translation
  /-- data memory by physical address (R31, R33) -/
  mem : Memory
  /-- program text (R55) -/
  text : ProgramText
  /-- the MODEL's own: how many free values have been drawn (R52; log entry 9) -/
  draws : Nat
  deriving DecidableEq, Repr

/-- A segment register after power-up: limit FFFF (R33), for a given selector and base. -/
def SegReg.powerUp (selector : BitVec 16) (base : Qword) : SegReg :=
  { selector := selector, base := base, limit := [{ first := 0#32, last := 0xFFFF#32 }],
    usable := true, executeOnly := false }

/-- The processor after power-up reset: the values of the last column of 10_state.md R33, and those of log entry 2
where it has none. It is in real-address mode, where no form of the instruction runs (R33, R170); a program runs from
a launch state (R171, `State.launch`). -/
def State.reset : State :=
  { cfg := { hasGfni := true, hasAvx := true, hasAvx512f := true, hasAvx512vl := true, laBits := .la48 }
    mode := .realAddress
    cpl := 0#2
    zmm := Vector.replicate 32 0#512
    k := Vector.replicate 8 0#64
    gpr := (Vector.replicate 16 0#64).set 2 0x706E5#64
    rip := 0xFFF0#64
    rflags := 2#64
    mxcsr := 0x1F80#32
    segs :=
      { cs := SegReg.powerUp 0xF000#16 0xFFFF0000#64
        ss := SegReg.powerUp 0#16 0#64
        ds := SegReg.powerUp 0#16 0#64
        es := SegReg.powerUp 0#16 0#64
        fs := SegReg.powerUp 0#16 0#64
        gs := SegReg.powerUp 0#16 0#64 }
    cr0 := 0x60000010#64
    cr2 := 0#64
    cr4 := 0#64
    xcr0 := 1#64
    efer := 0#64
    translation := .pagingOff
    mem := []
    text := []
    draws := 0 }

end Sys2Proof.Machine
end

