-- ==== Sys2Proof/Machine/Flags.lean ====
section
/-! DEFINITION. The status and control bits. The instruction computes no status flag (10_state.md R26, R27), so what
this file holds is the control bits it reads (R29) and the conditions of #UD and #NM over them (60_exceptions.md
R144, R145). -/

namespace Sys2Proof.Machine

/-- CR0.PE, bit 0: protected mode (R29). -/
def State.cr0PE (s : State) : Bool := s.cr0.getLsbD 0

/-- CR0.EM, bit 2 (R29). -/
def State.cr0EM (s : State) : Bool := s.cr0.getLsbD 2

/-- CR0.TS, bit 3 (R29). -/
def State.cr0TS (s : State) : Bool := s.cr0.getLsbD 3

/-- CR4.OSFXSR, bit 9 (R29). -/
def State.cr4OSFXSR (s : State) : Bool := s.cr4.getLsbD 9

/-- CR4.OSXSAVE, bit 18 (R29). -/
def State.cr4OSXSAVE (s : State) : Bool := s.cr4.getLsbD 18

/-- XCR0[2:1] = 11: SSE and AVX state enabled (R29). -/
def State.xcr0Avx (s : State) : Bool := s.xcr0.extractLsb' 1 2 == 3#2

/-- XCR0[7:5] = 111: opmask, ZMM_Hi256 and Hi16_ZMM state enabled (R29). -/
def State.xcr0Avx512 (s : State) : Bool := s.xcr0.extractLsb' 5 3 == 7#3

/-- #UD conditions of the legacy form that the state decides (R144). -/
def udLegacy (s : State) : Bool := !s.cfg.hasGfni || s.cr0EM || !s.cr4OSFXSR

/-- #UD conditions of the VEX forms that the state decides (R144). -/
def udVex (s : State) : Bool := !s.cfg.hasGfni || !s.cfg.hasAvx || !s.cr4OSXSAVE || !s.xcr0Avx

/-- #UD conditions of the EVEX forms that the state decides; `has` is the form's own feature flag, AVX512VL or
AVX512F (R144). -/
def udEvex (has : Bool) (s : State) : Bool :=
  !s.cfg.hasGfni || !has || !s.cr4OSXSAVE || !s.xcr0Avx || !s.xcr0Avx512

/-- The mode the instruction runs in; none in a mode outside the spec, which protected mode off is too (R6, R171
row 1). -/
def State.modelledMode (s : State) : Option Mode :=
  match s.mode with
  | .running m => if s.cr0PE then some m else none
  | .realAddress => none
  | .virtual8086 => none
  | .systemManagement => none
  | .code16 => none

end Sys2Proof.Machine
end

