-- ==== Sys2Proof/Machine/Memory.lean ====
section
/-! DEFINITION. Memory as a list of cells in one canonical form: reading and writing one byte of data memory and of
the program text (20_memory.md R40, R55). -/

namespace Sys2Proof.Machine

/-- What a byte of data memory that is not listed reads as. DESIGN CHOICE, unsafe: the spec gives memory no value at
the start of a run (R33); log entry 4. -/
def unlistedByte : Byte := 0#8

/-- The byte listed at an address. -/
def findCell (a : Nat) : List Host.Cell → Option Byte
  | [] => none
  | (x, b) :: rest => if x = a then some b else findCell a rest

/-- List `b` at `a`, in the place of what was listed there. -/
def insertCell (a : Nat) (b : Byte) : List Host.Cell → List Host.Cell
  | [] => [(a, b)]
  | (x, y) :: rest =>
    if a < x then (a, b) :: (x, y) :: rest
    else if a = x then (a, b) :: rest
    else (x, y) :: insertCell a b rest

/-- List nothing at `a`. -/
def eraseCell (a : Nat) (m : List Host.Cell) : List Host.Cell := m.filter fun c => c.1 != a

/-- Addresses rise strictly. -/
abbrev rising (m : List Host.Cell) : Prop := m.Pairwise fun c d => c.1 < d.1

/-- The canonical form of data memory: addresses rise strictly and no entry holds what an unlisted address reads as. -/
abbrev Memory.wf (m : Memory) : Prop := rising m ∧ ∀ c ∈ m, c.2 ≠ unlistedByte

/-- One byte of data memory. -/
def Memory.read (m : Memory) (a : Nat) : Byte := (findCell a m).getD unlistedByte

/-- Write one byte of data memory. No instruction does (R59); a launch places data with it. -/
def Memory.write (m : Memory) (a : Nat) (b : Byte) : Memory :=
  if b = unlistedByte then eraseCell a m else insertCell a b m

/-- The canonical form of the program text. -/
abbrev ProgramText.wf (t : ProgramText) : Prop := rising t

/-- One byte of the program text; an address outside the text has none (R55). -/
def ProgramText.read (t : ProgramText) (a : Nat) : Option Byte := findCell a t

/-- Place one byte of the program text. No instruction does (R55); a launch does. -/
def ProgramText.place (t : ProgramText) (a : Nat) (b : Byte) : ProgramText := insertCell a b t

end Sys2Proof.Machine
end

