-- ==== Sys2Proof/Machine/Ops.lean ====
section
/-! DEFINITION. The shared operations: sequencing, reading and writing registers, raising an exception, the checks
before and the completion after an instruction (41_gf2p8affineinvqb.md R119), fetching the instruction's bytes, and
the launch (70_reset_and_hazards.md R171). -/

namespace Sys2Proof.Machine

/-- The outcome of a part of a step (00_scope.md R13). -/
abbrev Res (α : Type) := Host.Outcome α Fault Refusal

/-- Go on with the result of the first part, unless it stopped. -/
def andThen {α β : Type} (r : Res α) (k : α → Res β) : Res β :=
  match r with
  | .next a => k a
  | .fault f => .fault f
  | .refused f => .refused f

/-! ## Registers -/

/-- `ZMM[r]` (R11, R20). -/
def State.readZmm (s : State) (r : VReg) : Vec := s.zmm[r.toNat]

/-- `ZMM[r] <- v`, all 512 bits (R11, R20). No vector register is hardwired (R21). -/
def State.writeZmm (s : State) (r : VReg) (v : Vec) : State :=
  { s with zmm := s.zmm.set r.toNat v r.isLt }

/-- `rip <- r`, and the counter of free values after the step (R11, R25). -/
def State.advance (s : State) (r : Qword) (draws : Nat) : State := { s with rip := r, draws := draws }

/-- `K[r]` (R11, R23). -/
def State.readK (s : State) (r : KReg) : Qword := s.k[r.toNat]

/-- `GPR[r]`, all 64 bits (R11, R24). -/
def State.readGpr (s : State) (r : GReg) : Qword := s.gpr[r.toNat]

/-- Register number of the legacy and VEX forms, which reach registers 0 to 15 (R20). -/
def vreg16 (r : BitVec 4) : VReg := r.setWidth 5

/-! ## Vector lengths -/

/-- The vector lengths VL of the six rows (R14: KL, VL). -/
inductive Vl
  | v128 | v256 | v512
  deriving DecidableEq, Repr

/-- KL, the number of quadwords. -/
def Vl.kl : Vl → Nat
  | .v128 => 2
  | .v256 => 4
  | .v512 => 8

/-- VL/8, the number of bytes. -/
def Vl.bytes (v : Vl) : Nat := 8 * v.kl

/-! ## Exceptions -/

/-- Raise an exception (R11, R13): the step ends in the fault outcome, with nothing written. Delivery through the IDT
is out of scope, so the run ends (R150, R152). -/
def raise {α : Type} (f : Fault) : Res α := .fault f

/-- The vector number (R141). -/
def Fault.vector : Fault → Nat
  | .ud => 6
  | .nm => 7
  | .ss => 12
  | .gp => 13
  | .pf _ _ => 14

/-- The error code, where the exception has one (R141). -/
def Fault.errorCode : Fault → Option (BitVec 32)
  | .ud => none
  | .nm => none
  | .ss => some 0#32
  | .gp => some 0#32
  | .pf code _ => some code

/-- The recorded linear address `info.cr2` (R141, R147). -/
def Fault.cr2 : Fault → Option Qword
  | .ud => none
  | .nm => none
  | .ss => none
  | .gp => none
  | .pf _ a => some a

/-- What a rejected encoding does to a step: two of them raise (R60, R80), the others are refused by name. -/
def rejected {α : Type} : Reject → Res α
  | .undefinedOpcode => raise .ud
  | .tooLong => raise .gp
  | .truncated => .refused .outsideText
  | .otherInstruction => .refused .otherInstruction
  | .noMandatory66 => .refused .noMandatory66
  | .repPrefix => .refused .repPrefix
  | .wZero => .refused .wZero
  | .mode32Extension => .refused .mode32Extension
  | .addr16 => .refused .addr16

/-! ## Addresses -/

/-- An address in the width of the mode: modulo 2^64, or modulo 2^32 in `Mode32` (R10). -/
def wrapAddr (m : Mode) (a : Qword) : Qword :=
  match m with
  | .mode64 => a
  | .mode32 => (a.setWidth 32).setWidth 64

/-- Bits 63 down to `LA_BITS - 1` are all equal (R40). -/
def canonical (la : LaBits) (a : Qword) : Bool :=
  let top := a.extractLsb' (la.bits - 1) (65 - la.bits)
  decide (top = 0#_) || decide (top = BitVec.allOnes _)

/-! ## Before and after -/

/-- Steps 2 and 3 of R119: the mode is one the spec covers, #UD if the form's condition `ud` holds, else #NM if
CR0.TS = 1 (R144, R145, R149). -/
def prologue (ud : Bool) (s : State) : Res Mode :=
  match s.modelledMode with
  | none => .refused .unmodelledMode
  | some m => if ud then raise .ud else if s.cr0TS then raise .nm else .next m

/-- `rip + len`; none where it wraps or leaves the canonical range of `Mode64`, or exceeds 2^32 - 1 in `Mode32` (R25,
D9). DESIGN CHOICE, unsafe: that `rip` itself is canonical is a launch premise (R171 row 7) and is not tested; log entry
28. -/
def nextRip (m : Mode) (len : Nat) (s : State) : Option Qword :=
  let sum := s.rip.toNat + len
  match m with
  | .mode64 =>
    if sum < 2 ^ 64 ∧ canonical s.cfg.laBits (BitVec.ofNat 64 sum) = true then some (BitVec.ofNat 64 sum) else none
  | .mode32 => if sum < 2 ^ 32 then some (BitVec.ofNat 64 sum) else none

/-- Steps 7 and 8 of R119: the destination is written once, then `rip <- rip + len`; `draws` is the counter of free
values after the operand was read. -/
def finish (m : Mode) (len : Nat) (d : VReg) (v : Vec) (draws : Nat) (s : State) : Res State :=
  match nextRip m len s with
  | none => .refused .ripWrap
  | some r => .next ((s.writeZmm d v).advance r draws)

/-! ## Fetching -/

/-- At most `n` bytes of the program text from an address on, up to the first address outside the text (R55, R60). -/
def fetchFrom (m : Mode) (t : ProgramText) : Nat → Qword → List Byte
  | 0, _ => []
  | n + 1, a =>
    match t.read (wrapAddr m a).toNat with
    | none => []
    | some b => b :: fetchFrom m t n (a + 1#64)

/-- The bytes at `rip`, as many as the longest instruction has (R60). -/
def fetch (m : Mode) (s : State) : List Byte := fetchFrom m s.text maxLength s.rip

/-! ## Launching -/

/-- A flat segment: base 0, limit 2^32 - 1, readable (R58). -/
def SegReg.flat (selector : BitVec 16) : SegReg :=
  { selector := selector, base := 0#64, limit := [{ first := 0#32, last := 0xFFFFFFFF#32 }],
    usable := true, executeOnly := false }

/-- All memory present, ordinary and readable at every privilege level, each linear address its own physical one. -/
def Translation.identity : Translation :=
  .table [{ base := 0, size := 2 ^ 64, cpls := [0#2, 1#2, 2#2, 3#2], access := .ok 0 .ordinary }]

/-- A launch (R170, R171): what software outside the scope does before a form of the instruction can run. It enters
`Mode64` and sets what rows 1, 3, 4, 5, 6 and 8 of R171 ask for; registers, flags, memory, text and the processor's
parameters stay. Log entry 3. -/
def State.launch (s : State) : State :=
  { s with
    mode := .running .mode64
    cr0 := (s.cr0 ||| 1#64) &&& ~~~0xC#64
    cr4 := s.cr4 ||| 0x40200#64
    xcr0 := s.xcr0 ||| 0xE6#64
    efer := s.efer ||| 0x400#64
    segs :=
      { cs := SegReg.flat 0x08#16
        ss := SegReg.flat 0x10#16
        ds := SegReg.flat 0x10#16
        es := SegReg.flat 0x10#16
        fs := SegReg.flat 0x10#16
        gs := SegReg.flat 0x10#16 }
    translation := .identity }

/-- Place bytes in the program text from an address on. -/
def placeFrom (m : Mode) (a : Qword) : List Byte → ProgramText → ProgramText
  | [], t => t
  | b :: bs, t => placeFrom m (a + 1#64) bs (t.place (wrapAddr m a).toNat b)

/-- Load bytes where the next instruction is fetched. A state in a mode the spec does not cover is launched first: a
program is loaded from outside the machine, and no step of the model leads from reset to it (R170). -/
def State.loadProgram (s : State) (bs : List Byte) : State :=
  match s.modelledMode with
  | some m => { s with text := placeFrom m s.rip bs s.text }
  | none => { s.launch with text := placeFrom .mode64 s.rip bs s.text }

end Sys2Proof.Machine
end

