-- ==== Sys2Proof/Machine/Operands.lean ====
section
/-! DEFINITION. The operands: effective addresses (30_encoding.md R72 to R75), segments and the one memory read
(20_memory.md R40 to R58). -/

namespace Sys2Proof.Machine

/-! ## Effective address -/

/-- The address size is 32 bits: in `Mode32`, or with a 67 prefix in `Mode64` (R75). -/
def addr32 (m : Mode) (pfx : List Prefix) : Bool := m == .mode32 || pfx.contains .addrSize

/-- A base or index register in the address size (R24, R75: the low 32 bits). -/
def addrReg (narrow : Bool) (s : State) (r : GReg) : Qword :=
  if narrow then ((s.readGpr r).setWidth 32).setWidth 64 else s.readGpr r

/-- SIB.scale as a factor (R71). -/
def Scale.factor : Scale → Qword
  | .x1 => 1#64
  | .x2 => 2#64
  | .x4 => 4#64
  | .x8 => 8#64

/-- The index times the scale; index register number 4 stands for no index (R74). -/
def scaledIndex (narrow : Bool) (s : State) (index : GReg) (scale : Scale) : Qword :=
  if index = 4#4 then 0#64 else addrReg narrow s index * Scale.factor scale

/-- A displacement sign-extended; an 8-bit one times `n`, which is N in the EVEX forms and 1 in the others (R72). -/
def dispValue (n : Nat) : Disp → Qword
  | .none => 0#64
  | .d8 d => d.signExtend 64 * BitVec.ofNat 64 n
  | .d32 d => d.signExtend 64

/-- The sum an address form stands for, before it is reduced to the address size (R74, R75). `next` is the address of
the next instruction. -/
def addressSum (m : Mode) (narrow : Bool) (next : Qword) (n : Nat) (s : State) : MemAddr → Qword
  | .base b _ d => addrReg narrow s b + dispValue n d
  | .sib b i sc d => addrReg narrow s b + scaledIndex narrow s i sc + dispValue n d
  | .sibNoBase _ i sc d => scaledIndex narrow s i sc + d.signExtend 64
  | .disp32 _ _ d =>
    match m with
    | .mode64 => next + d.signExtend 64
    | .mode32 => d.signExtend 64

/-- The effective address (R74, R75): modulo 2^64, or modulo 2^32 and zero-extended with a 32-bit address size. -/
def effectiveAddress (m : Mode) (pfx : List Prefix) (len n : Nat) (a : MemAddr) (s : State) : Qword :=
  let sum := addressSum m (addr32 m pfx) (s.rip + BitVec.ofNat 64 len) n s a
  if addr32 m pfx then (sum.setWidth 32).setWidth 64 else sum

/-! ## Segments -/

/-- The segment an override prefix names in a mode; `Mode64` ignores CS, SS, DS and ES (R57). -/
def Prefix.override (m : Mode) : Prefix → Option Seg
  | .seg .fs => some .fs
  | .seg .gs => some .gs
  | .seg g => if m = .mode32 then some g else none
  | .addrSize => none
  | .opSize => none
  | .repne => none
  | .rep => none
  | .lock => none
  | .rex _ => none

/-- SS when the base register is number 4 or 5 (RSP, RBP), else DS (R57). -/
def defaultSeg : MemAddr → Seg
  | .base b _ _ => if b = 4#4 ∨ b = 5#4 then .ss else .ds
  | .sib b _ _ _ => if b = 4#4 ∨ b = 5#4 then .ss else .ds
  | .sibNoBase _ _ _ _ => .ds
  | .disp32 _ _ _ => .ds

/-- The segment of the memory operand: the last override in force, else the default (R57). -/
def operandSeg (m : Mode) (pfx : List Prefix) (a : MemAddr) : Seg :=
  ((pfx.filterMap (Prefix.override m)).getLast?).getD (defaultSeg a)

/-- A segment register (R28). -/
def SegFile.get (f : SegFile) : Seg → SegReg
  | .cs => f.cs
  | .ss => f.ss
  | .ds => f.ds
  | .es => f.es
  | .fs => f.fs
  | .gs => f.gs

/-- `SegBase` (R58): in `Mode64` 0 but for FS and GS. -/
def segBase (m : Mode) (s : State) (g : Seg) : Qword :=
  match m with
  | .mode32 => ((s.segs.get g).base.setWidth 32).setWidth 64
  | .mode64 =>
    match g with
    | .fs => s.segs.fs.base
    | .gs => s.segs.gs.base
    | .cs => 0#64
    | .ss => 0#64
    | .ds => 0#64
    | .es => 0#64

/-- An offset lies in a range. -/
def OffsetRange.holds (r : OffsetRange) (off : Qword) : Bool :=
  decide (r.first.toNat ≤ off.toNat) && decide (off.toNat ≤ r.last.toNat)

/-- `SegCheck` of a read (R58): no check in `Mode64`; in `Mode32` the segment is usable and readable and the offset is
one of those inside its limit. -/
def segCheck (m : Mode) (s : State) (g : Seg) (off : Qword) : Bool :=
  match m with
  | .mode64 => true
  | .mode32 =>
    let r := s.segs.get g
    r.usable && !r.executeOnly && r.limit.any fun o => o.holds off

/-- The exception of an address outside its segment or not canonical (R42, R146). -/
def segFault : Seg → Fault
  | .ss => .ss
  | .cs => .gp
  | .ds => .gp
  | .es => .gp
  | .fs => .gp
  | .gs => .gp

/-! ## Translation -/

/-- What `Translate` answers for one address (R51). -/
inductive Translated
  | ok (phys : Nat) (kind : PageKind)
  | fault (code : BitVec 32)
  deriving DecidableEq, Repr

/-- The error code of a fault on a data read at a privilege level (R51): P, W/R = 0, U/S, RSVD, I/D = 0, PK. -/
def PfCause.code (c : PfCause) (cpl : BitVec 2) : BitVec 32 :=
  (if c.protection then 1#32 else 0#32) ||| (if cpl = 3#2 then 4#32 else 0#32) |||
  (if c.reservedBit then 8#32 else 0#32) ||| (if c.protectionKey then 0x20#32 else 0#32)

/-- No row covers the address: the page is absent. -/
def PfCause.absent : PfCause := { protection := false, reservedBit := false, protectionKey := false }

/-- A row covers an address at a privilege level. -/
def Mapping.covers (r : Mapping) (lin : Nat) (cpl : BitVec 2) : Bool :=
  decide (r.base ≤ lin) && decide (lin < r.base + r.size) && r.cpls.contains cpl

/-- What a row answers for an address it covers. -/
def Mapping.answer (r : Mapping) (lin : Nat) (cpl : BitVec 2) : Translated :=
  match r.access with
  | .ok phys kind => .ok (phys + (lin - r.base)) kind
  | .fault c => .fault (c.code cpl)

/-- `Translate(lin, read, cpl)` (R51). -/
def translate (t : Translation) (lin : Qword) (cpl : BitVec 2) : Translated :=
  match t with
  | .pagingOff => .ok lin.toNat .ordinary
  | .table rows =>
    match rows.find? fun r => r.covers lin.toNat cpl with
    | some r => r.answer lin.toNat cpl
    | none => .fault (PfCause.absent.code cpl)

/-! ## The memory read -/

/-- `off_k`: the offset of byte `k` of an operand (R42). -/
def offsetAt (m : Mode) (ea : Qword) (k : Nat) : Qword := wrapAddr m (ea + BitVec.ofNat 64 k)

/-- `lin_k`: the linear address of byte `k` of an operand (R42, R58). -/
def linearAt (m : Mode) (s : State) (g : Seg) (ea : Qword) (k : Nat) : Qword :=
  wrapAddr m (segBase m s g + offsetAt m ea k)

/-- Byte `k` of an operand passes `SegCheck` and, in `Mode64`, has a canonical linear address (R42). -/
def byteLegal (m : Mode) (s : State) (g : Seg) (ea : Qword) (k : Nat) : Bool :=
  segCheck m s g (offsetAt m ea k) && (m == .mode32 || canonical s.cfg.laBits (linearAt m s g ea k))

/-- Byte `k` of an operand, translated (R42, R51). -/
def byteTranslated (m : Mode) (s : State) (g : Seg) (ea : Qword) (k : Nat) : Translated :=
  translate s.translation (linearAt m s g ea k) s.cpl

/-- The page fault of byte `k`, if there is one: its error code and its linear address (R147). -/
def bytePageFault (m : Mode) (s : State) (g : Seg) (ea : Qword) (k : Nat) : Option (BitVec 32 × Qword) :=
  match byteTranslated m s g ea k with
  | .ok _ _ => none
  | .fault code => some (code, linearAt m s g ea k)

/-- The page faults of the `n` bytes of an operand. -/
def pageFaults (m : Mode) (s : State) (g : Seg) (ea : Qword) (n : Nat) : List (BitVec 32 × Qword) :=
  (List.range n).filterMap (bytePageFault m s g ea)

/-- The page fault reported of several (R147): a free choice among them. -/
def reportedFault (choice : Nat) (first : BitVec 32 × Qword) (others : List (BitVec 32 × Qword)) : Fault :=
  let one := match others with
    | [] => first
    | _ :: _ => (first :: others).getD (choice % (others.length + 1)) first
  .pf one.1 one.2

/-- Byte `k` of an operand lies on a page with this label. -/
def byteHasKind (kind : PageKind) (m : Mode) (s : State) (g : Seg) (ea : Qword) (k : Nat) : Bool :=
  match byteTranslated m s g ea k with
  | .ok _ kd => kd == kind
  | .fault _ => false

/-- The value of byte `k` of an operand: memory's, or on a shared page any value (R52). -/
def byteValue (m : Mode) (s : State) (g : Seg) (ea : Qword) (k : Nat) : Byte :=
  match byteTranslated m s g ea k with
  | .ok phys .ordinary => s.mem.read phys
  | .ok _ .shared => Config.sharedByte (s.draws + k)
  | .ok phys .device => s.mem.read phys
  | .fault _ => 0#8

/-- The counter of free values after a read of `n` bytes: a read that touches a shared page draws anew (R52). -/
def drawsAfter (m : Mode) (s : State) (g : Seg) (ea : Qword) (n : Nat) : Nat :=
  if (List.range n).any (byteHasKind .shared m s g ea) then s.draws + n else s.draws

/-- The bytes of an operand as one value, the byte at the lowest address least significant (R41). -/
def operandValue (m : Mode) (s : State) (g : Seg) (ea : Qword) (n : Nat) : Vec :=
  assemble 512 8 (byteValue m s g ea) n

/-- `MemRead(seg, ea, n)` (R42) in the priority order of R149: every byte is checked against its segment and the
canonical range, then every byte is translated, then a device page is refused (R49), and only then is memory read. The
second component is the counter of free values afterwards. -/
def memRead (m : Mode) (s : State) (g : Seg) (ea : Qword) (n : Nat) : Res (Vec × Nat) :=
  if (List.range n).all (byteLegal m s g ea) then
    match pageFaults m s g ea n with
    | first :: others => raise (reportedFault (Config.faultChoice s.draws) first others)
    | [] =>
      if (List.range n).any (byteHasKind .device m s g ea) then .refused .deviceMemory
      else .next (operandValue m s g ea n, drawsAfter m s g ea n)
  else raise (segFault g)

/-- The linear address of an operand is a multiple of 16 (R44). -/
def aligned16 (m : Mode) (s : State) (g : Seg) (ea : Qword) : Bool := (linearAt m s g ea 0).toNat % 16 == 0

/-- The matrix operand of the legacy form: a register, or 16 bytes of memory at an aligned address, whose alignment is
tested first (R44, R111, R149). -/
def legacyMatrix (m : Mode) (f : LegacyForm) (s : State) : Res (Vec × Nat) :=
  match f.src2 with
  | .reg r _ => .next (s.readZmm (vreg16 r), s.draws)
  | .mem a =>
    let g := operandSeg m f.pfx a
    let ea := effectiveAddress m f.pfx f.len 1 a s
    if aligned16 m s g ea then memRead m s g ea 16 else raise .gp

/-- The matrix operand of a VEX form: a register, or VL/8 bytes of memory (R43, R45, R112, R113). -/
def vexMatrix (m : Mode) (vl : Vl) (f : VexForm) (s : State) : Res (Vec × Nat) :=
  match f.src2 with
  | .reg r _ => .next (s.readZmm (vreg16 r), s.draws)
  | .mem a => memRead m s (operandSeg m f.pfx a) (effectiveAddress m f.pfx f.len 1 a s) vl.bytes

/-- The matrix operand of an EVEX form: a register, VL/8 bytes of memory with disp8 scaled by VL/8, or one quadword of
memory, with disp8 scaled by 8, in every lane (R43, R46, R72, R114, R118). The whole operand is read whatever the
mask (R47). -/
def evexMatrix (m : Mode) (vl : Vl) (f : EvexForm) (s : State) : Res (Vec × Nat) :=
  match f.src2 with
  | .reg r => .next (s.readZmm r, s.draws)
  | .mem a => memRead m s (operandSeg m f.pfx a) (effectiveAddress m f.pfx f.len vl.bytes a s) vl.bytes
  | .bcst a =>
    andThen (memRead m s (operandSeg m f.pfx a) (effectiveAddress m f.pfx f.len 8 a s) 8) fun r =>
    .next (assemble 512 64 (fun _ => qwordAt r.1 0) vl.kl, r.2)

end Sys2Proof.Machine
end

