-- ==== Sys2Proof/Machine/Evex.lean ====
section
/-! DEFINITION. The EVEX forms (41_gf2p8affineinvqb.md R114 to R118, R122 read as 90_conflicts.md C4 says). -/

namespace Sys2Proof.Machine

/-- Destination byte `n` is selected by the writemask: no writemask, or mask bit `n` is 1 (R117). -/
def selected (s : State) (mask : Masking) (n : Nat) : Bool :=
  match mask with
  | .unmasked => true
  | .merging k => (s.readK k).getLsbD n
  | .zeroing k => (s.readK k).getLsbD n

/-- What a destination byte that is not selected becomes: 0 with zeroing-masking, else its old value (R117). -/
def unselectedByte (mask : Masking) (old : Byte) : Byte := if mask.z then 0#8 else old

/-- What an EVEX form leaves in its destination (R114, R117): the bytes below VL/8 by the writemask, 0 above. -/
def evexResult (vl : Vl) (s : State) (mask : Masking) (old r : Vec) : Vec :=
  assemble 512 8 (fun n => if selected s mask n then byteAt r n else unselectedByte mask (byteAt old n)) vl.bytes

/-- The feature flag of an EVEX form beside GFNI (R2, R144). -/
def evexFlag (vl : Vl) (c : Config) : Bool :=
  match vl with
  | .v128 => c.hasAvx512vl
  | .v256 => c.hasAvx512vl
  | .v512 => c.hasAvx512f

/-- An EVEX form (R114 to R116, in the order of R119): operand 1 is the destination and, under merging-masking, a
source; operand 2 the bytes x; operand 3 the matrices. -/
def execEvex (vl : Vl) (f : EvexForm) (s : State) : Res State :=
  andThen (prologue (udEvex (evexFlag vl s.cfg) s) s) fun m =>
  andThen (evexMatrix m vl f s) fun a =>
  let r := affineInvVec vl.kl (s.readZmm f.src1) a.1 f.imm
  finish m f.len f.dest (evexResult vl s f.mask (s.readZmm f.dest) r) a.2 s

/-- `VGF2P8AFFINEINVQB xmm1, xmm2, xmm3/m128/m64bcst, imm8` under a writemask (R114). -/
def execEvexXmm (f : EvexForm) (s : State) : Host.Outcome State Fault Refusal := execEvex .v128 f s

/-- `VGF2P8AFFINEINVQB ymm1, ymm2, ymm3/m256/m64bcst, imm8` under a writemask (R115). -/
def execEvexYmm (f : EvexForm) (s : State) : Host.Outcome State Fault Refusal := execEvex .v256 f s

/-- `VGF2P8AFFINEINVQB zmm1, zmm2, zmm3/m512/m64bcst, imm8` under a writemask (R116). -/
def execEvexZmm (f : EvexForm) (s : State) : Host.Outcome State Fault Refusal := execEvex .v512 f s

end Sys2Proof.Machine
end

