-- ==== Sys2Proof/Machine/Legacy.lean ====
section
/-! DEFINITION. The legacy SSE form (41_gf2p8affineinvqb.md R111). -/

namespace Sys2Proof.Machine

/-- What the legacy form leaves in its destination (R22, R111): bits 127:0 are the result, the bits above stay. -/
def legacyResult (old r : Vec) : Vec :=
  assemble 512 8 (fun n => if n < 16 then byteAt r n else byteAt old n) 64

/-- `GF2P8AFFINEINVQB xmm1, xmm2/m128, imm8` (R111, in the order of R119): operand 1 is the bytes x and the
destination, operand 2 the matrices. -/
def execLegacyXmm (f : LegacyForm) (s : State) : Host.Outcome State Fault Refusal :=
  andThen (prologue (udLegacy s) s) fun m =>
  andThen (legacyMatrix m f s) fun a =>
  let d := vreg16 f.dest
  let x := s.readZmm d
  finish m f.len d (legacyResult x (affineInvVec 2 x a.1 f.imm)) a.2 s

end Sys2Proof.Machine
end

