-- ==== Sys2Proof/Machine/Vex.lean ====
section
/-! DEFINITION. The VEX forms (41_gf2p8affineinvqb.md R112, R113). -/

namespace Sys2Proof.Machine

/-- A VEX form (R112, R113, in the order of R119): operand 1 is the destination, operand 2 the bytes x, operand 3 the
matrices; the bits of the destination from VL up become 0 (R22). -/
def execVex (vl : Vl) (f : VexForm) (s : State) : Res State :=
  andThen (prologue (udVex s) s) fun m =>
  andThen (vexMatrix m vl f s) fun a =>
  finish m f.len (vreg16 f.dest) (affineInvVec vl.kl (s.readZmm (vreg16 f.src1)) a.1 f.imm) a.2 s

/-- `VGF2P8AFFINEINVQB xmm1, xmm2, xmm3/m128, imm8` (R112). -/
def execVexXmm (f : VexForm) (s : State) : Host.Outcome State Fault Refusal := execVex .v128 f s

/-- `VGF2P8AFFINEINVQB ymm1, ymm2, ymm3/m256, imm8` (R113). -/
def execVexYmm (f : VexForm) (s : State) : Host.Outcome State Fault Refusal := execVex .v256 f s

end Sys2Proof.Machine
end

