-- ==== Sys2Proof/Machine/Dispatch.lean ====
section
/-! DEFINITION. From an instruction to its meaning, one arm for each row of the opcode table. -/

namespace Sys2Proof.Machine

def exec (i : Instr) (s : State) : Host.Outcome State Fault Refusal :=
  match i with
  | .legacyXmm f => Sys2Proof.Machine.execLegacyXmm f s
  | .vexXmm f => Sys2Proof.Machine.execVexXmm f s
  | .vexYmm f => Sys2Proof.Machine.execVexYmm f s
  | .evexXmm f => Sys2Proof.Machine.execEvexXmm f s
  | .evexYmm f => Sys2Proof.Machine.execEvexYmm f s
  | .evexZmm f => Sys2Proof.Machine.execEvexZmm f s

end Sys2Proof.Machine
end

