-- ==== Sys2Proof/Machine/Step.lean ====
section
/-! DEFINITION. One step (41_gf2p8affineinvqb.md R119): the bytes at `rip` are decoded and the instruction they spell
is run; and how a program's instruction is placed for it. -/

namespace Sys2Proof.Machine

/-- One step. Outside the two modes of the spec there is none (R6). -/
def step (s : State) : Host.Outcome State Fault Refusal :=
  match s.modelledMode with
  | none => .refused .unmodelledMode
  | some m =>
    match decode m (fetch m s) with
    | .ok i => exec i s
    | .error r => rejected r

/-- The state with an instruction of the opcode table, `nbits` wide and zero above, loaded where `step` fetches. -/
def State.withFetchWord (s : State) (nbits w : Nat) : State := s.loadProgram (tableBytes nbits w)

end Sys2Proof.Machine
end

