-- ==== Sys2Proof/Safety.lean ====
section
/-! DEFINITION. The terms claims are stated in: the invariant of the machine, when the processor lets a form run
(70_reset_and_hazards.md R171), when a memory operand can be read, what an execution leaves alone
(41_gf2p8affineinvqb.md R120), and the relation between the operands and the result (R110). -/

namespace Sys2Proof.Machine

/-! ## The invariant -/

/-- Bits from `n` up are 0. -/
def ZeroFrom (n : Nat) (v : Vec) : Prop := ∀ i, n ≤ i → v.getLsbD i = false

/-- Bits `511:MAX_VL` of every vector register are 0 (R20). -/
def VectorsBounded (s : State) : Prop := ∀ r : VReg, ZeroFrom s.cfg.maxVl (s.readZmm r)

/-- The program counter is an address of its mode: canonical in `Mode64`, 32 bits in `Mode32` (R25). -/
def RipLegal (s : State) : Prop :=
  match s.mode with
  | .running .mode64 => canonical s.cfg.laBits s.rip = true
  | .running .mode32 => s.rip.toNat < 2 ^ 32
  | .realAddress => True
  | .virtual8086 => True
  | .systemManagement => True
  | .code16 => True

/-- The invariant of the machine: the feature flags are consistent (R7), vector registers are no wider than MAX_VL
(R20), the program counter is legal (R25), data memory and program text are in canonical form. -/
structure Inv (s : State) : Prop where
  cfgWf : s.cfg.wf = true
  vectorsBounded : VectorsBounded s
  ripLegal : RipLegal s
  memWf : s.mem.wf
  textWf : s.text.wf

/-! ## When a form may run -/

/-- Rows 2, 3 and 6 of R171 for the legacy form. -/
structure LegacyEnabled (s : State) : Prop where
  gfni : s.cfg.hasGfni = true
  em : s.cr0EM = false
  osfxsr : s.cr4OSFXSR = true
  ts : s.cr0TS = false

/-- Rows 2, 4 and 6 of R171 for the VEX forms. -/
structure VexEnabled (s : State) : Prop where
  gfni : s.cfg.hasGfni = true
  avx : s.cfg.hasAvx = true
  osxsave : s.cr4OSXSAVE = true
  xcr0 : s.xcr0.extractLsb' 1 2 = 3#2
  ts : s.cr0TS = false

/-- The feature flag row 5 of R171 asks of an EVEX form. -/
def EvexFeature (vl : Vl) (s : State) : Prop :=
  match vl with
  | .v128 => s.cfg.hasAvx512vl = true
  | .v256 => s.cfg.hasAvx512vl = true
  | .v512 => s.cfg.hasAvx512f = true

/-- Rows 2, 5 and 6 of R171 for the EVEX forms. -/
structure EvexEnabled (vl : Vl) (s : State) : Prop where
  gfni : s.cfg.hasGfni = true
  feature : EvexFeature vl s
  osxsave : s.cr4OSXSAVE = true
  xcr0Low : s.xcr0.extractLsb' 1 2 = 3#2
  xcr0High : s.xcr0.extractLsb' 5 3 = 7#3
  ts : s.cr0TS = false

/-- What R144 asks of the state for #UD, form by form. -/
def UdCondition (s : State) : Instr → Prop
  | .legacyXmm _ => s.cfg.hasGfni = false ∨ s.cr0EM = true ∨ s.cr4OSFXSR = false
  | .vexXmm _ =>
    s.cfg.hasGfni = false ∨ s.cfg.hasAvx = false ∨ s.cr4OSXSAVE = false ∨ s.xcr0.extractLsb' 1 2 ≠ 3#2
  | .vexYmm _ =>
    s.cfg.hasGfni = false ∨ s.cfg.hasAvx = false ∨ s.cr4OSXSAVE = false ∨ s.xcr0.extractLsb' 1 2 ≠ 3#2
  | .evexXmm _ =>
    s.cfg.hasGfni = false ∨ s.cfg.hasAvx512vl = false ∨ s.cr4OSXSAVE = false ∨ s.xcr0.extractLsb' 1 2 ≠ 3#2 ∨
      s.xcr0.extractLsb' 5 3 ≠ 7#3
  | .evexYmm _ =>
    s.cfg.hasGfni = false ∨ s.cfg.hasAvx512vl = false ∨ s.cr4OSXSAVE = false ∨ s.xcr0.extractLsb' 1 2 ≠ 3#2 ∨
      s.xcr0.extractLsb' 5 3 ≠ 7#3
  | .evexZmm _ =>
    s.cfg.hasGfni = false ∨ s.cfg.hasAvx512f = false ∨ s.cr4OSXSAVE = false ∨ s.xcr0.extractLsb' 1 2 ≠ 3#2 ∨
      s.xcr0.extractLsb' 5 3 ≠ 7#3

/-- The processor is set up for an instruction (R171 rows 2 to 6). -/
def Enabled (s : State) (i : Instr) : Prop := ¬ UdCondition s i ∧ s.cr0TS = false

/-- The bytes at `rip` (R55, R60). -/
def HoldsText (m : Mode) (s : State) (bs : List Byte) : Prop :=
  ∀ k (h : k < bs.length), s.text.read (wrapAddr m (s.rip + BitVec.ofNat 64 k)).toNat = some bs[k]

/-- The next instruction's address exists (R25): `rip + len` neither wraps nor leaves the canonical range. Nothing is asked
of `rip` itself (log entry 28). -/
def CanAdvance (m : Mode) (len : Nat) (s : State) : Prop :=
  match m with
  | .mode64 => s.rip.toNat + len < 2 ^ 64 ∧ canonical s.cfg.laBits (s.rip + BitVec.ofNat 64 len) = true
  | .mode32 => s.rip.toNat + len < 2 ^ 32

/-- Row 8 of R171: every one of the `n` bytes passes `SegCheck`, is canonical, translates, and is no device memory. -/
def Readable (m : Mode) (s : State) (g : Seg) (ea : Qword) (n : Nat) : Prop :=
  ∀ k < n, byteLegal m s g ea k = true ∧
    ∃ phys kind, byteTranslated m s g ea k = .ok phys kind ∧ kind ≠ .device

/-- Segment, effective address and size of the memory operand of an instruction; none with a register operand (R43,
R57, R72, R74). -/
def memOperandOf (m : Mode) (s : State) : Instr → Option (Seg × Qword × Nat)
  | .legacyXmm f =>
    match f.src2 with
    | .reg _ _ => none
    | .mem a => some (operandSeg m f.pfx a, effectiveAddress m f.pfx f.len 1 a s, 16)
  | .vexXmm f =>
    match f.src2 with
    | .reg _ _ => none
    | .mem a => some (operandSeg m f.pfx a, effectiveAddress m f.pfx f.len 1 a s, 16)
  | .vexYmm f =>
    match f.src2 with
    | .reg _ _ => none
    | .mem a => some (operandSeg m f.pfx a, effectiveAddress m f.pfx f.len 1 a s, 32)
  | .evexXmm f =>
    match f.src2 with
    | .reg _ => none
    | .mem a => some (operandSeg m f.pfx a, effectiveAddress m f.pfx f.len 16 a s, 16)
    | .bcst a => some (operandSeg m f.pfx a, effectiveAddress m f.pfx f.len 8 a s, 8)
  | .evexYmm f =>
    match f.src2 with
    | .reg _ => none
    | .mem a => some (operandSeg m f.pfx a, effectiveAddress m f.pfx f.len 32 a s, 32)
    | .bcst a => some (operandSeg m f.pfx a, effectiveAddress m f.pfx f.len 8 a s, 8)
  | .evexZmm f =>
    match f.src2 with
    | .reg _ => none
    | .mem a => some (operandSeg m f.pfx a, effectiveAddress m f.pfx f.len 64 a s, 64)
    | .bcst a => some (operandSeg m f.pfx a, effectiveAddress m f.pfx f.len 8 a s, 8)

/-- The alignment an instruction asks of its memory operand: a multiple of 16 for the legacy form (R44), none for the
others (R45). -/
def OperandAligned (m : Mode) (s : State) (g : Seg) (ea : Qword) : Instr → Prop
  | .legacyXmm _ => (linearAt m s g ea 0).toNat % 16 = 0
  | .vexXmm _ => True
  | .vexYmm _ => True
  | .evexXmm _ => True
  | .evexYmm _ => True
  | .evexZmm _ => True

/-- The instruction has a register operand, or a memory operand that is aligned and readable (R171 row 8). -/
def OperandReady (m : Mode) (s : State) (i : Instr) : Prop :=
  ∀ g ea n, memOperandOf m s i = some (g, ea, n) → OperandAligned m s g ea i ∧ Readable m s g ea n

/-- Byte `k` of `v` is the memory byte of the operand's byte `k`, for every byte on an ordinary page (R41). A byte on
a shared page may have any value (R52). -/
def HoldsOperand (m : Mode) (s : State) (g : Seg) (ea : Qword) (n : Nat) (v : Vec) : Prop :=
  ∀ k < n, ∀ phys, byteTranslated m s g ea k = .ok phys .ordinary → byteAt v k = s.mem.read phys

/-! ## What an execution does -/

/-- The destination register of an instruction (R73). -/
def destOf : Instr → VReg
  | .legacyXmm f => vreg16 f.dest
  | .vexXmm f => vreg16 f.dest
  | .vexYmm f => vreg16 f.dest
  | .evexXmm f => f.dest
  | .evexYmm f => f.dest
  | .evexZmm f => f.dest

/-- The vector length of an instruction (R77). -/
def vlOf : Instr → Vl
  | .legacyXmm _ => .v128
  | .vexXmm _ => .v128
  | .vexYmm _ => .v256
  | .evexXmm _ => .v128
  | .evexYmm _ => .v256
  | .evexZmm _ => .v512

/-- The frame of R120: everything but vector register `d`, `rip` and the model's own counter of free values is as
before; memory is compared byte by byte as well. -/
structure OnlyDestChanged (d : VReg) (s t : State) : Prop where
  zmm : ∀ r : VReg, r ≠ d → t.readZmm r = s.readZmm r
  k : ∀ r : KReg, t.readK r = s.readK r
  gpr : ∀ r : GReg, t.readGpr r = s.readGpr r
  rflags : t.rflags = s.rflags
  mxcsr : t.mxcsr = s.mxcsr
  segs : t.segs = s.segs
  cr0 : t.cr0 = s.cr0
  cr2 : t.cr2 = s.cr2
  cr4 : t.cr4 = s.cr4
  xcr0 : t.xcr0 = s.xcr0
  efer : t.efer = s.efer
  cfg : t.cfg = s.cfg
  mode : t.mode = s.mode
  cpl : t.cpl = s.cpl
  translation : t.translation = s.translation
  memBytes : ∀ a, t.mem.read a = s.mem.read a
  mem : t.mem = s.mem
  text : t.text = s.text

/-- `v.qword[j].byte[b]` is the byte function of `a.qword[j]` and `x.qword[j].byte[b]` for every lane `j < kl` and every
byte `b < 8` (R110). -/
def IsAffineInverse (kl : Nat) (x a v : Vec) (imm : Byte) : Prop :=
  ∀ j < kl, ∀ b < 8,
    byteAt (qwordAt v j) b = affineInverseByte (qwordAt a j) (byteAt (qwordAt x j) b) imm

/-- Bits from `n` up are those of the old value. -/
def KeepsFrom (n : Nat) (old v : Vec) : Prop := ∀ i, n ≤ i → v.getLsbD i = old.getLsbD i

/-- The state after an instruction that completed: `rip` past its bytes, the frame, and `P` of the new destination. -/
def Completes (i : Instr) (s t : State) (P : Vec → Prop) : Prop :=
  t.rip = s.rip + BitVec.ofNat 64 i.len ∧ OnlyDestChanged (destOf i) s t ∧ P (t.readZmm (destOf i))

/-- The destination under a writemask (R117): byte `8j + b` is the byte function's result where the mask selects it,
else 0 with zeroing-masking and the old byte with merging-masking. -/
def IsMaskedAffineInverse (kl : Nat) (s : State) (mask : Masking) (old x a v : Vec) (imm : Byte) : Prop :=
  ∀ j < kl, ∀ b < 8,
    byteAt (qwordAt v j) b =
      match mask with
      | .unmasked => affineInverseByte (qwordAt a j) (byteAt (qwordAt x j) b) imm
      | .merging k =>
        if (s.readK k).getLsbD (j * 8 + b) then affineInverseByte (qwordAt a j) (byteAt (qwordAt x j) b) imm
        else byteAt (qwordAt old j) b
      | .zeroing k =>
        if (s.readK k).getLsbD (j * 8 + b) then affineInverseByte (qwordAt a j) (byteAt (qwordAt x j) b) imm else 0#8

end Sys2Proof.Machine
end

