-- ==== Sys2Proof/Certificates/Slice0/Obligations.lean ====
section
/-! DEFINITION. The statements about the model, one definition each; nothing is proved here. -/

open Sys2Proof Sys2Proof.Machine

/-! ## The field and the byte function -/

/-- R102 (a) to (d): the table is the inverse of the field, a bijection, an involution, with fixed points 0 and 1. -/
def Obligations.InverseTableInvertsField : Prop :=
  (∀ x : Byte, x ≠ 0#8 → gfmul x (inverse x) = 1#8) ∧ Function.Bijective inverse ∧
  (∀ x : Byte, inverse (inverse x) = x) ∧ (∀ x : Byte, inverse x = x ↔ x = 0#8 ∨ x = 1#8)

/-- R103: parity is 1 exactly for an odd number of ones, and is the XOR of the bits. -/
def Obligations.ParityCountsOnes : Prop :=
  (∀ v : Byte, parity v = decide (((List.range 8).filter fun i => v.getLsbD i).length % 2 = 1)) ∧
  (∀ v : Byte, parity v = (v.getLsbD 7 ^^ v.getLsbD 6 ^^ v.getLsbD 5 ^^ v.getLsbD 4 ^^ v.getLsbD 3 ^^ v.getLsbD 2 ^^
    v.getLsbD 1 ^^ v.getLsbD 0)) ∧
  parity 0x00#8 = false ∧ parity 0xFF#8 = false ∧ parity 0x8A#8 = true

/-- R104: bit `i` of the byte function, and the worked example. -/
def Obligations.AffineInverseByteBits : Prop :=
  (∀ (q : Qword) (x imm : Byte) (i : Nat), i < 8 →
    (affineInverseByte q x imm).getLsbD i =
      (parity (q.extractLsb' (8 * (7 - i)) 8 &&& inverse x) ^^ imm.getLsbD i)) ∧
  affineInverseByte 0x0102040810204080#64 0x95#8 0x00#8 = 0x8A#8

/-- R106 (a) to (e) and (g): zero, identity, all-ones and bit-reversal matrices, x = 0, linearity. -/
def Obligations.AffineInverseByteSpecialCases : Prop :=
  (∀ x b : Byte, affineInverseByte 0#64 x b = b) ∧
  (∀ x b : Byte, affineInverseByte 0x0102040810204080#64 x b = inverse x ^^^ b) ∧
  (∀ x : Byte, affineInverseByte 0xFFFFFFFFFFFFFFFF#64 x 0#8 = if parity (inverse x) then 0xFF#8 else 0#8) ∧
  (∀ (x : Byte) (i : Nat), i < 8 →
    (affineInverseByte 0x8040201008040201#64 x 0#8).getLsbD i = (inverse x).getLsbD (7 - i)) ∧
  (∀ (q : Qword) (b : Byte), affineInverseByte q 0#8 b = b) ∧
  (∀ (q1 q2 : Qword) (x b1 b2 : Byte),
    affineInverseByte (q1 ^^^ q2) x (b1 ^^^ b2) = affineInverseByte q1 x b1 ^^^ affineInverseByte q2 x b2)

/-- R110: every byte of every lane of the vector function. -/
def Obligations.VectorFunctionByLanes : Prop :=
  ∀ kl ∈ [2, 4, 8], ∀ (x a : Vec) (imm : Byte), ∀ j < kl, ∀ b < 8,
    byteAt (qwordAt (affineInvVec kl x a imm) j) b =
      affineInverseByte (qwordAt a j) (byteAt (qwordAt x j) b) imm

/-- R107: a result byte depends on its own byte of x and on the matrix of its own lane only. -/
def Obligations.ResultByteIndependence : Prop :=
  ∀ (vl : Vl) (x x' a a' : Vec) (imm : Byte), ∀ n < vl.bytes,
    byteAt x n = byteAt x' n → qwordAt a (n / 8) = qwordAt a' (n / 8) →
    byteAt (affineInvVec vl.kl x a imm) n = byteAt (affineInvVec vl.kl x' a' imm) n

/-! ## Encoding -/

/-- Words written out from the encoding rules (95_test_vectors.md section 4: E1, E7, E17, E25, E35, E37). -/
def Obligations.SpecWordsDecode : Prop :=
  decode .mode64 [0x66#8, 0x0F#8, 0x3A#8, 0xCF#8, 0xC1#8, 0x63#8] =
    .ok (.legacyXmm { pfx := [.opSize], rexW := none, dest := 0#4, src2 := .reg 1#4 false, imm := 0x63#8 }) ∧
  decode .mode64 [0x66#8, 0x41#8, 0x0F#8, 0x3A#8, 0xCF#8, 0x85#8, 0x78#8, 0x56#8, 0x34#8, 0x12#8, 0x00#8] =
    .ok (.legacyXmm { pfx := [.opSize], rexW := some false, dest := 0#4,
                      src2 := .mem (.base 13#4 false (.d32 0x12345678#32)), imm := 0#8 }) ∧
  decode .mode64 [0xC4#8, 0x03#8, 0xED#8, 0xCF#8, 0x8C#8, 0x74#8, 0x34#8, 0x12#8, 0x00#8, 0x00#8, 0x07#8] =
    .ok (.vexYmm { pfx := [], dest := 9#4, src1 := 2#4,
                   src2 := .mem (.sib 12#4 14#4 .x2 (.d32 0x1234#32)), imm := 7#8 }) ∧
  decode .mode64 [0x62#8, 0x03#8, 0x8D#8, 0x47#8, 0xCF#8, 0xFD#8, 0xFF#8] =
    .ok (.evexZmm { pfx := [], dest := 31#5, src1 := 30#5, src2 := .reg 29#5, mask := .merging 7#3, imm := 0xFF#8 }) ∧
  decode .mode64 [0x62#8, 0xF3#8, 0xCD#8, 0xDB#8, 0xCF#8, 0x6C#8, 0xD6#8, 0xFF#8, 0x11#8] =
    .ok (.evexZmm { pfx := [], dest := 5#5, src1 := 6#5, src2 := .bcst (.sib 6#4 2#4 .x8 (.d8 0xFF#8)),
                    mask := .zeroing 3#3, imm := 0x11#8 }) ∧
  decode .mode32 [0x66#8, 0x0F#8, 0x3A#8, 0xCF#8, 0x05#8, 0x00#8, 0x10#8, 0x00#8, 0x00#8, 0x63#8] =
    .ok (.legacyXmm { pfx := [.opSize], rexW := none, dest := 0#4,
                      src2 := .mem (.disp32 false false 0x1000#32), imm := 0x63#8 })

/-- Decoding the bytes of a well-formed instruction gives it back, whatever bytes follow (R60 to R76). -/
def Obligations.DecodeInvertsEncode : Prop :=
  ∀ (m : Mode) (i : Instr) (tail : List Byte), WellFormed m i = true → decode m (encode i ++ tail) = .ok i

/-- What the decoder reads is well-formed, and its bytes are the bytes read: each sequence of bytes has one meaning. -/
def Obligations.EncodeInvertsDecode : Prop :=
  ∀ (m : Mode) (bs : List Byte) (i : Instr), decode m bs = .ok i →
    WellFormed m i = true ∧ i.len ≤ bs.length ∧ encode i = bs.take i.len

/-- R79, R60: a well-formed instruction has as many bytes as the length formula says, 6 to 15 of them, and an EVEX
form at least 7. -/
def Obligations.EncodedLengthBounds : Prop :=
  ∀ (m : Mode) (i : Instr), WellFormed m i = true →
    (encode i).length = i.len ∧ 6 ≤ i.len ∧ i.len ≤ 15 ∧
    (∀ f, i = .evexXmm f ∨ i = .evexYmm f ∨ i = .evexZmm f → 7 ≤ i.len)

/-- R60: an instruction of more than 15 bytes raises #GP(0): the bytes stand at `rip` of an instruction whose fields are
all as they should be and whose prefixes, of any allowed kind and in any order (segment overrides, 66, 67, REX bytes
that another prefix follows), make it too long. -/
def Obligations.OverlongInstructionRaisesGp : Prop :=
  ∀ (s : State) (m : Mode) (i : Instr), s.modelledMode = some m → FieldsOk m i = true → 15 < i.len →
    HoldsText m s (encode i) → step s = .fault .gp

/-- R67, R69, R80: of the bytes `62 P0 P1 P2 CF` with pp = 01 and either map 0F 3A and W = 1, or the map code 00 and any
W, after any allowed prefixes and before any complete operand bytes, in either mode (in `Mode32` with no extension bit),
those with map code 00, a reserved bit wrong, L'L = 11, b = 1 and a register operand, or z = 1 without a mask raise #UD;
the others decode. -/
def Obligations.EvexReservedEncodingsRaiseUd : Prop :=
  ∀ (s : State) (m : Mode) (pfx : List Prefix) (p0 p1 p2 modrm : Byte) (rest : List Byte), s.modelledMode = some m →
    pfx.all (Prefix.okVex m) = true →
    p0.extractLsb' 0 2 = 3#2 ∧ p1.getLsbD 7 = true ∨ p0.extractLsb' 0 2 = 0#2 → p1.extractLsb' 0 2 = 1#2 →
    (m = .mode32 → p0.extractLsb' 4 4 = 15#4 ∧ p1.getLsbD 6 = true ∧ p2.getLsbD 3 = true) →
    (takeOperands (!p0.getLsbD 6) (!p0.getLsbD 5) (modrm :: rest)).isSome = true → pfx.length + 6 + rest.length ≤ 15 →
    HoldsText m s (pfx.map Prefix.byte ++ [0x62#8, p0, p1, p2, 0xCF#8, modrm] ++ rest) →
    if p0.extractLsb' 0 2 = 0#2 ∨ p0.extractLsb' 2 2 ≠ 0#2 ∨ p1.getLsbD 2 = false ∨ p2.extractLsb' 5 2 = 3#2 ∨
        (p2.getLsbD 4 = true ∧ modrm.extractLsb' 6 2 = 3#2) ∨ (p2.getLsbD 7 = true ∧ p2.extractLsb' 0 3 = 0#3)
    then step s = .fault .ud
    else ∃ i, decode m (fetch m s) = .ok i ∧ WellFormed m i = true

/-- R66, R54, R62: 66, F2, F3, LOCK or (in `Mode64`) REX at any place among the prefixes of a VEX or EVEX form raises #UD,
and so does LOCK at any place among the prefixes of the legacy form. The other prefixes are any, but for those that make
the bytes a refused encoding (in `Mode32` 67; in the legacy form F2, F3 and no 66), whose refusal comes first (log
entry 12). -/
def Obligations.ForbiddenPrefixRaisesUd : Prop :=
  (∀ (s : State) (m : Mode) (f : LegacyForm) (pfx : List Prefix), s.modelledMode = some m → f.wellFormed m = true →
    (∀ p ∈ pfx, p.existsIn m) → .lock ∈ pfx → .opSize ∈ pfx → .rep ∉ pfx → .repne ∉ pfx →
    (m = .mode32 → .addrSize ∉ pfx) → (f.rexW = none → endsInRex pfx = false) → ({ f with pfx := pfx }).len ≤ 15 →
    HoldsText m s ({ f with pfx := pfx }).encode → step s = .fault .ud) ∧
  (∀ (s : State) (m : Mode) (f : VexForm) (pfx : List Prefix), s.modelledMode = some m → f.wellFormed m = true →
    (∀ p ∈ pfx, p.existsIn m) →
    (.opSize ∈ pfx ∨ .repne ∈ pfx ∨ .rep ∈ pfx ∨ .lock ∈ pfx ∨ ∃ b, .rex b ∈ pfx) → (m = .mode32 → .addrSize ∉ pfx) →
    ∀ i ∈ [Instr.vexXmm { f with pfx := pfx }, .vexYmm { f with pfx := pfx }],
    i.len ≤ 15 → HoldsText m s (encode i) → step s = .fault .ud) ∧
  (∀ (s : State) (m : Mode) (f : EvexForm) (pfx : List Prefix), s.modelledMode = some m → f.wellFormed m = true →
    (∀ p ∈ pfx, p.existsIn m) →
    (.opSize ∈ pfx ∨ .repne ∈ pfx ∨ .rep ∈ pfx ∨ .lock ∈ pfx ∨ ∃ b, .rex b ∈ pfx) → (m = .mode32 → .addrSize ∉ pfx) →
    ∀ i ∈ [Instr.evexXmm { f with pfx := pfx }, .evexYmm { f with pfx := pfx }, .evexZmm { f with pfx := pfx }],
    i.len ≤ 15 → HoldsText m s (encode i) → step s = .fault .ud)

/-- R62, R80: after any prefixes, `0F 3A CF` with F2 or F3 among them, `0F 3A CF` without 66 among them, and a VEX or
EVEX prefix with W = 0 that otherwise matches (in `Mode32` bits 7:6 of its second byte are 11, R61) are refused, each by
its name. That the refusal comes before the #UD of LOCK, of a prefix before VEX or EVEX and of reserved EVEX fields is
log entry 12 (R119 steps 1 and 2), and so is which refusal is named where several hold at once: F2 or F3 before a
missing 66, that before 67 in `Mode32`, and W = 0 before an extension bit or 67 in `Mode32`. -/
def Obligations.NeighbourEncodingsRefused : Prop :=
  ∀ (s : State) (m : Mode) (pfx : List Prefix), s.modelledMode = some m → (∀ p ∈ pfx, p.existsIn m) →
    (.opSize ∉ pfx → .rep ∉ pfx → .repne ∉ pfx → pfx.length + 3 ≤ 15 →
      HoldsText m s (pfx.map Prefix.byte ++ [0x0F#8, 0x3A#8, 0xCF#8]) → step s = .refused .noMandatory66) ∧
    (.rep ∈ pfx ∨ .repne ∈ pfx → pfx.length + 3 ≤ 15 →
      HoldsText m s (pfx.map Prefix.byte ++ [0x0F#8, 0x3A#8, 0xCF#8]) → step s = .refused .repPrefix) ∧
    (∀ v1 v2 : Byte, (m = .mode32 → v1.extractLsb' 6 2 = 3#2) → v1.extractLsb' 0 5 = 3#5 → v2.extractLsb' 0 2 = 1#2 →
      v2.getLsbD 7 = false → pfx.length + 4 ≤ 15 →
      HoldsText m s (pfx.map Prefix.byte ++ [0xC4#8, v1, v2, 0xCF#8]) → step s = .refused .wZero) ∧
    (∀ p0 p1 p2 : Byte, (m = .mode32 → p0.extractLsb' 6 2 = 3#2) → p0.extractLsb' 0 2 = 3#2 →
      p1.extractLsb' 0 2 = 1#2 → p1.getLsbD 7 = false → pfx.length + 5 ≤ 15 →
      HoldsText m s (pfx.map Prefix.byte ++ [0x62#8, p0, p1, p2, 0xCF#8]) → step s = .refused .wZero)

/-- R61, R73, R75: in `Mode32`, after any prefixes, a byte C4 or 62 whose successor does not have bits 7:6 = 11 is
another instruction; a VEX or EVEX prefix of these rows with an extension bit is refused, and so is a 67 prefix with any
of the three encodings; and what decodes reaches registers 0 to 7 only and has no 67 prefix. That the refusals come
before a #UD, and that an extension bit is named before 67, is log entry 12; 67 with a register operand is log entry 27.
-/
def Obligations.Mode32Encodings : Prop :=
  (∀ (s : State) (pfx : List Prefix), s.modelledMode = some .mode32 → (∀ p ∈ pfx, p.existsIn .mode32) →
    (∀ b c : Byte, b = 0xC4#8 ∨ b = 0x62#8 → c.extractLsb' 6 2 ≠ 3#2 → pfx.length + 2 ≤ 15 →
      HoldsText .mode32 s (pfx.map Prefix.byte ++ [b, c]) → step s = .refused .otherInstruction) ∧
    (∀ v1 v2 : Byte, v1.extractLsb' 6 2 = 3#2 → v1.extractLsb' 0 5 = 3#5 → v2.extractLsb' 0 2 = 1#2 →
      v2.getLsbD 7 = true → pfx.length + 4 ≤ 15 →
      HoldsText .mode32 s (pfx.map Prefix.byte ++ [0xC4#8, v1, v2, 0xCF#8]) →
      (v1.getLsbD 5 = false ∨ v2.getLsbD 6 = false → step s = .refused .mode32Extension) ∧
      (v1.getLsbD 5 = true → v2.getLsbD 6 = true → .addrSize ∈ pfx → step s = .refused .addr16)) ∧
    (∀ p0 p1 p2 : Byte, p0.extractLsb' 6 2 = 3#2 → p0.extractLsb' 0 2 = 3#2 → p1.extractLsb' 0 2 = 1#2 →
      p1.getLsbD 7 = true → pfx.length + 5 ≤ 15 →
      HoldsText .mode32 s (pfx.map Prefix.byte ++ [0x62#8, p0, p1, p2, 0xCF#8]) →
      (p0.getLsbD 5 = false ∨ p0.getLsbD 4 = false ∨ p1.getLsbD 6 = false ∨ p2.getLsbD 3 = false →
        step s = .refused .mode32Extension) ∧
      (p0.getLsbD 5 = true → p0.getLsbD 4 = true → p1.getLsbD 6 = true → p2.getLsbD 3 = true → .addrSize ∈ pfx →
        step s = .refused .addr16)) ∧
    (.opSize ∈ pfx → .rep ∉ pfx → .repne ∉ pfx → .addrSize ∈ pfx → pfx.length + 3 ≤ 15 →
      HoldsText .mode32 s (pfx.map Prefix.byte ++ [0x0F#8, 0x3A#8, 0xCF#8]) → step s = .refused .addr16)) ∧
  (∀ (bs : List Byte) (i : Instr), decode .mode32 bs = .ok i →
    (destOf i).toNat < 8 ∧
    (match i with
     | .legacyXmm f => f.noExt = true ∧ f.pfx.contains .addrSize = false
     | .vexXmm f => f.noExt = true ∧ f.pfx.contains .addrSize = false
     | .vexYmm f => f.noExt = true ∧ f.pfx.contains .addrSize = false
     | .evexXmm f => f.noExt = true ∧ f.pfx.contains .addrSize = false
     | .evexYmm f => f.noExt = true ∧ f.pfx.contains .addrSize = false
     | .evexZmm f => f.noExt = true ∧ f.pfx.contains .addrSize = false))

/-! ## The step -/

/-- R119 step 1, R60: where the bytes of a well-formed instruction stand at `rip`, the step is the instruction's
execution. The program counter is moved by the execution itself (R25). -/
def Obligations.StepRunsInstructionAtRip : Prop :=
  ∀ (s : State) (m : Mode) (i : Instr), s.modelledMode = some m → WellFormed m i = true →
    HoldsText m s (encode i) → step s = exec i s

/-- Every step keeps the invariant (R7, R20, R25 and the canonical forms of memory and text). -/
def Obligations.StepKeepsInvariant : Prop :=
  ∀ s t : State, Inv s → step s = .next t → Inv t

/-- The invariant holds after power-up reset and after a launch from it (the values are those of log entries 1 to 3). -/
def Obligations.ResetAndLaunchMeetInvariant : Prop := Inv State.reset ∧ Inv State.reset.launch

/-- R6, R171 row 1: outside `Mode64` and `Mode32`, or with CR0.PE = 0, no step and no instruction has a meaning; the
state after power-up is such a state (R33; its values are the model's, log entry 1). -/
def Obligations.OtherModesRefused : Prop :=
  (∀ s : State, (s.cr0PE = false ∨ ∀ m, s.mode ≠ .running m) →
    step s = .refused .unmodelledMode ∧ ∀ i, exec i s = .refused .unmodelledMode) ∧
  step State.reset = .refused .unmodelledMode

/-- R33, last column: the values after power-up (general knowledge, not the source's; log entry 1). -/
def Obligations.PowerUpValues : Prop :=
  (∀ r, State.reset.readZmm r = 0#512) ∧ (∀ r, State.reset.readK r = 0#64) ∧
  (∀ r, r ≠ 2#4 → State.reset.readGpr r = 0#64) ∧ State.reset.rip = 0xFFF0#64 ∧ State.reset.rflags = 2#64 ∧
  State.reset.mxcsr = 0x1F80#32 ∧ State.reset.segs.cs.base = 0xFFFF0000#64 ∧ State.reset.cr0 = 0x60000010#64 ∧
  State.reset.cr4 = 0#64 ∧ State.reset.xcr0 = 1#64 ∧ State.reset.cpl = 0#2 ∧ State.reset.mode = .realAddress ∧
  State.reset.cr0PE = false

/-! ## What every instruction leaves alone -/

/-- R120: an execution that completes writes the destination register and `rip`, nothing else (beside the model's own
counter of free values, log entry 9). -/
def Obligations.CompletedWriteSet : Prop :=
  ∀ (i : Instr) (s t : State), exec i s = .next t →
    OnlyDestChanged (destOf i) s t ∧ t.rip = s.rip + BitVec.ofNat 64 i.len

/-- R59: no step writes memory, and none writes the program text (R55). -/
def Obligations.NoStepWritesMemory : Prop :=
  ∀ s t : State, step s = .next t → t.mem = s.mem ∧ (∀ a, t.mem.read a = s.mem.read a) ∧ t.text = s.text

/-- R22: the legacy form leaves bits 511:128 of its destination as they were; the VEX and EVEX forms set the bits from
VL up to 0. -/
def Obligations.DestinationUpperBits : Prop :=
  ∀ (i : Instr) (s t : State), exec i s = .next t →
    match i with
    | .legacyXmm f => KeepsFrom 128 (s.readZmm (vreg16 f.dest)) (t.readZmm (vreg16 f.dest))
    | .vexXmm f => ZeroFrom 128 (t.readZmm (vreg16 f.dest))
    | .vexYmm f => ZeroFrom 256 (t.readZmm (vreg16 f.dest))
    | .evexXmm f => ZeroFrom 128 (t.readZmm f.dest)
    | .evexYmm f => ZeroFrom 256 (t.readZmm f.dest)
    | .evexZmm f => ZeroFrom 512 (t.readZmm f.dest)

/-! ## Results: where each instruction completes, and with what -/

/-- R111, register operand. -/
def Obligations.LegacyRegisterResult : Prop :=
  ∀ (s : State) (m : Mode) (f : LegacyForm) (r : BitVec 4) (x : Bool), s.modelledMode = some m → LegacyEnabled s →
    f.src2 = .reg r x → CanAdvance m f.len s →
    ∃ t, exec (.legacyXmm f) s = .next t ∧
      Completes (.legacyXmm f) s t fun v =>
        IsAffineInverse 2 (s.readZmm (vreg16 f.dest)) (s.readZmm (vreg16 r)) v f.imm ∧
        KeepsFrom 128 (s.readZmm (vreg16 f.dest)) v

/-- R111, memory operand: aligned to 16 bytes (R44) and readable. -/
def Obligations.LegacyMemoryResult : Prop :=
  ∀ (s : State) (m : Mode) (f : LegacyForm) (a : MemAddr) (g : Seg) (ea : Qword), s.modelledMode = some m →
    LegacyEnabled s → f.src2 = .mem a → g = operandSeg m f.pfx a → ea = effectiveAddress m f.pfx f.len 1 a s →
    (linearAt m s g ea 0).toNat % 16 = 0 → Readable m s g ea 16 → CanAdvance m f.len s →
    ∃ t w, HoldsOperand m s g ea 16 w ∧ exec (.legacyXmm f) s = .next t ∧
      Completes (.legacyXmm f) s t fun v =>
        IsAffineInverse 2 (s.readZmm (vreg16 f.dest)) w v f.imm ∧ KeepsFrom 128 (s.readZmm (vreg16 f.dest)) v

/-- R112 and R113, register operand. -/
def Obligations.VexRegisterResult : Prop :=
  ∀ (s : State) (m : Mode) (f : VexForm) (r : BitVec 4) (x : Bool), s.modelledMode = some m → VexEnabled s →
    f.src2 = .reg r x → CanAdvance m f.len s → ∀ i ∈ [Instr.vexXmm f, Instr.vexYmm f],
    ∃ t, exec i s = .next t ∧
      Completes i s t fun v =>
        IsAffineInverse (vlOf i).kl (s.readZmm (vreg16 f.src1)) (s.readZmm (vreg16 r)) v f.imm ∧
        ZeroFrom (64 * (vlOf i).kl) v

/-- R112 and R113, memory operand: readable at any byte address (R45). -/
def Obligations.VexMemoryResult : Prop :=
  ∀ (s : State) (m : Mode) (f : VexForm) (a : MemAddr) (g : Seg) (ea : Qword), s.modelledMode = some m →
    VexEnabled s → f.src2 = .mem a → g = operandSeg m f.pfx a → ea = effectiveAddress m f.pfx f.len 1 a s →
    CanAdvance m f.len s → ∀ i ∈ [Instr.vexXmm f, Instr.vexYmm f], Readable m s g ea (vlOf i).bytes →
    ∃ t w, HoldsOperand m s g ea (vlOf i).bytes w ∧ exec i s = .next t ∧
      Completes i s t fun v =>
        IsAffineInverse (vlOf i).kl (s.readZmm (vreg16 f.src1)) w v f.imm ∧ ZeroFrom (64 * (vlOf i).kl) v

/-- R114 to R117, register operand, under any writemask. -/
def Obligations.EvexRegisterResult : Prop :=
  ∀ (s : State) (m : Mode) (f : EvexForm) (r : VReg), s.modelledMode = some m → f.src2 = .reg r →
    CanAdvance m f.len s → ∀ i ∈ [Instr.evexXmm f, Instr.evexYmm f, Instr.evexZmm f], EvexEnabled (vlOf i) s →
    ∃ t, exec i s = .next t ∧
      Completes i s t fun v =>
        IsMaskedAffineInverse (vlOf i).kl s f.mask (s.readZmm f.dest) (s.readZmm f.src1) (s.readZmm r) v f.imm ∧
        ZeroFrom (64 * (vlOf i).kl) v

/-- R114 to R117, memory operand of VL/8 bytes at any byte address (R45), under any writemask; an 8-bit displacement
is scaled by VL/8 (R72). -/
def Obligations.EvexMemoryResult : Prop :=
  ∀ (s : State) (m : Mode) (f : EvexForm) (a : MemAddr) (g : Seg) (ea : Qword), s.modelledMode = some m →
    f.src2 = .mem a → g = operandSeg m f.pfx a → CanAdvance m f.len s →
    ∀ i ∈ [Instr.evexXmm f, Instr.evexYmm f, Instr.evexZmm f], EvexEnabled (vlOf i) s →
    ea = effectiveAddress m f.pfx f.len (vlOf i).bytes a s → Readable m s g ea (vlOf i).bytes →
    ∃ t w, HoldsOperand m s g ea (vlOf i).bytes w ∧ exec i s = .next t ∧
      Completes i s t fun v =>
        IsMaskedAffineInverse (vlOf i).kl s f.mask (s.readZmm f.dest) (s.readZmm f.src1) w v f.imm ∧
        ZeroFrom (64 * (vlOf i).kl) v

/-- R114 to R118, broadcast operand: 8 readable bytes, one matrix for every lane. That an 8-bit displacement is scaled
by 8 is decision D39 (log entry 17). -/
def Obligations.EvexBroadcastResult : Prop :=
  ∀ (s : State) (m : Mode) (f : EvexForm) (a : MemAddr) (g : Seg) (ea : Qword), s.modelledMode = some m →
    f.src2 = .bcst a → g = operandSeg m f.pfx a → ea = effectiveAddress m f.pfx f.len 8 a s → Readable m s g ea 8 →
    CanAdvance m f.len s → ∀ i ∈ [Instr.evexXmm f, Instr.evexYmm f, Instr.evexZmm f], EvexEnabled (vlOf i) s →
    ∃ t q w, HoldsOperand m s g ea 8 q ∧ (∀ j < (vlOf i).kl, qwordAt w j = qwordAt q 0) ∧ exec i s = .next t ∧
      Completes i s t fun v =>
        IsMaskedAffineInverse (vlOf i).kl s f.mask (s.readZmm f.dest) (s.readZmm f.src1) w v f.imm ∧
        ZeroFrom (64 * (vlOf i).kl) v

/-- R121: with one register in every position the result is the function of its old value. -/
def Obligations.OverlapUsesOldValues : Prop :=
  (∀ (f : LegacyForm) (x : Bool) (s t : State), f.src2 = .reg f.dest x → exec (.legacyXmm f) s = .next t →
    IsAffineInverse 2 (s.readZmm (vreg16 f.dest)) (s.readZmm (vreg16 f.dest)) (t.readZmm (vreg16 f.dest)) f.imm) ∧
  (∀ (f : VexForm) (x : Bool) (s t : State), f.src1 = f.dest → f.src2 = .reg f.dest x →
    ∀ i ∈ [Instr.vexXmm f, Instr.vexYmm f], exec i s = .next t →
    IsAffineInverse (vlOf i).kl (s.readZmm (vreg16 f.dest)) (s.readZmm (vreg16 f.dest))
      (t.readZmm (vreg16 f.dest)) f.imm) ∧
  (∀ (f : EvexForm) (s t : State), f.src1 = f.dest → f.src2 = .reg f.dest →
    ∀ i ∈ [Instr.evexXmm f, Instr.evexYmm f, Instr.evexZmm f], exec i s = .next t →
    IsMaskedAffineInverse (vlOf i).kl s f.mask (s.readZmm f.dest) (s.readZmm f.dest) (s.readZmm f.dest)
      (t.readZmm f.dest) f.imm)

/-- R117: with a mask whose bits VL/8-1:0 are all 0, merging-masking leaves bits VL-1:0 of the destination as they were
and zeroes the rest; zeroing-masking zeroes the whole register. -/
def Obligations.AllZeroMask : Prop :=
  ∀ (f : EvexForm) (k : KReg) (s t : State), ∀ i ∈ [Instr.evexXmm f, Instr.evexYmm f, Instr.evexZmm f],
    exec i s = .next t → (∀ n < (vlOf i).bytes, (s.readK k).getLsbD n = false) →
    (f.mask = .merging k → ∀ n, (t.readZmm f.dest).getLsbD n =
      (decide (n < 64 * (vlOf i).kl) && (s.readZmm f.dest).getLsbD n)) ∧
    (f.mask = .zeroing k → t.readZmm f.dest = 0#512)

/-- R23: opmask bits from VL/8 up, and every opmask register other than the writemask, make no difference. -/
def Obligations.MaskBitsAboveIgnored : Prop :=
  ∀ (f : EvexForm) (s t : State) (k' : Vector Qword 8),
    ∀ i ∈ [Instr.evexXmm f, Instr.evexYmm f, Instr.evexZmm f],
    (∀ k, f.mask = .merging k ∨ f.mask = .zeroing k → ∀ n < (vlOf i).bytes,
      (k'[k.toNat]).getLsbD n = (s.readK k).getLsbD n) →
    exec i s = .next t → exec i { s with k := k' } = .next { t with k := k' }

/-! ## Exceptions and refusals -/

/-- R144: an instruction raises #UD exactly on its conditions on the state. -/
def Obligations.UdExactlyWhen : Prop :=
  ∀ (i : Instr) (s : State) (m : Mode), s.modelledMode = some m → (exec i s = .fault .ud ↔ UdCondition s i)

/-- R145: #NM, vector 7 and without error code, exactly when CR0.TS = 1 and no #UD condition holds. -/
def Obligations.NmExactlyWhen : Prop :=
  (∀ (i : Instr) (s : State) (m : Mode), s.modelledMode = some m →
    (exec i s = .fault .nm ↔ s.cr0TS = true ∧ ¬ UdCondition s i)) ∧
  Fault.nm.vector = 7 ∧ Fault.nm.errorCode = none

/-- R44: a misaligned memory operand of the legacy form raises #GP(0), whether or not it could be read. -/
def Obligations.MisalignedLegacyRaisesGp : Prop :=
  ∀ (s : State) (m : Mode) (f : LegacyForm) (g : Seg) (ea : Qword) (n : Nat), s.modelledMode = some m →
    Enabled s (.legacyXmm f) → memOperandOf m s (.legacyXmm f) = some (g, ea, n) →
    (linearAt m s g ea 0).toNat % 16 ≠ 0 → exec (.legacyXmm f) s = .fault .gp

/-- R42, R146 (b): a byte outside its segment or not canonical raises #SS(0) through SS, else #GP(0). -/
def Obligations.IllegalAddressRaises : Prop :=
  ∀ (s : State) (m : Mode) (i : Instr) (g : Seg) (ea : Qword) (n : Nat), s.modelledMode = some m → Enabled s i →
    memOperandOf m s i = some (g, ea, n) → OperandAligned m s g ea i → (∃ k < n, byteLegal m s g ea k = false) →
    exec i s = .fault (if g = .ss then .ss else .gp)

/-- R147: a byte that does not translate raises #PF with the code and the linear address of such a byte. That it does so
where another byte lies on a device page is log entry 10. -/
def Obligations.PageFaultRaises : Prop :=
  ∀ (s : State) (m : Mode) (i : Instr) (g : Seg) (ea : Qword) (n : Nat), s.modelledMode = some m → Enabled s i →
    memOperandOf m s i = some (g, ea, n) → OperandAligned m s g ea i → (∀ k < n, byteLegal m s g ea k = true) →
    (∃ k < n, ∃ code, byteTranslated m s g ea k = .fault code) →
    ∃ k < n, ∃ code, byteTranslated m s g ea k = .fault code ∧ exec i s = .fault (.pf code (linearAt m s g ea k))

/-- R148: the writemask plays no part in deciding which fault an EVEX form raises, or whether it raises one; with an
all-zero mask too, an operand with a byte on a page that does not translate raises #PF, where another byte lies on a
device page as well (log entry 10). Both executions make the same free choice of the byte reported (log entry 8). -/
def Obligations.NoFaultSuppression : Prop :=
  (∀ (f : EvexForm) (mask : Masking) (s : State) (e : Fault),
    (exec (.evexXmm f) s = .fault e ↔ exec (.evexXmm { f with mask := mask }) s = .fault e) ∧
    (exec (.evexYmm f) s = .fault e ↔ exec (.evexYmm { f with mask := mask }) s = .fault e) ∧
    (exec (.evexZmm f) s = .fault e ↔ exec (.evexZmm { f with mask := mask }) s = .fault e)) ∧
  (∀ (f : EvexForm) (k : KReg) (s : State) (m : Mode) (g : Seg) (ea : Qword) (n : Nat),
    ∀ i ∈ [Instr.evexXmm f, Instr.evexYmm f, Instr.evexZmm f], s.modelledMode = some m → Enabled s i →
    f.mask = .merging k ∨ f.mask = .zeroing k → s.readK k = 0#64 → memOperandOf m s i = some (g, ea, n) →
    (∀ j < n, byteLegal m s g ea j = true) → (∃ j < n, ∃ code, byteTranslated m s g ea j = .fault code) →
    ∃ code a, exec i s = .fault (.pf code a))

/-- R146: with a register operand no exception but #UD and #NM is raised. -/
def Obligations.RegisterFormsNeverFaultOnMemory : Prop :=
  ∀ (s : State) (m : Mode) (i : Instr) (e : Fault), s.modelledMode = some m → memOperandOf m s i = none →
    exec i s = .fault e → e = .ud ∨ e = .nm

/-- R42, R49, R119: an operand that touches a device page is refused, where every byte of it translates. That the bytes
are all translated first, so that a page fault of another byte comes before the refusal, is the model's choice (log entry
10). -/
def Obligations.DeviceOperandRefused : Prop :=
  ∀ (s : State) (m : Mode) (i : Instr) (g : Seg) (ea : Qword) (n : Nat), s.modelledMode = some m → Enabled s i →
    memOperandOf m s i = some (g, ea, n) → OperandAligned m s g ea i → (∀ k < n, byteLegal m s g ea k = true) →
    (∀ k < n, ∃ phys kind, byteTranslated m s g ea k = .ok phys kind) →
    (∃ k < n, ∃ phys, byteTranslated m s g ea k = .ok phys .device) → exec i s = .refused .deviceMemory

/-- R25: an instruction that is set up and whose operand can be had completes exactly when `rip + len` neither wraps nor
leaves the canonical range; where it does, it is refused. That a sum of 2^64 or more is a wrap in `Mode64`, though its low
64 bits be canonical, and that the refusal comes last, is log entry 18; that `rip` itself need not be canonical is log
entry 28. -/
def Obligations.CompletesUnlessRipWraps : Prop :=
  ∀ (s : State) (m : Mode) (i : Instr), s.modelledMode = some m → Enabled s i → OperandReady m s i →
    (CanAdvance m i.len s → ∃ t, exec i s = .next t) ∧ (¬ CanAdvance m i.len s → exec i s = .refused .ripWrap)

/-- R51: the bits of the error code of a page fault on the operand read. -/
def Obligations.PageFaultCodeBits : Prop :=
  ∀ (c : PfCause) (cpl : BitVec 2),
    (c.code cpl).getLsbD 0 = c.protection ∧ (c.code cpl).getLsbD 1 = false ∧
    (c.code cpl).getLsbD 2 = decide (cpl = 3#2) ∧ (c.code cpl).getLsbD 3 = c.reservedBit ∧
    (c.code cpl).getLsbD 4 = false ∧ (c.code cpl).getLsbD 5 = c.protectionKey ∧ (c.code cpl).toNat < 64

/-! ## The operand -/

/-- R41, R42: a read that succeeds gives the byte at the lowest address as byte 0, and so on; and reading 8 bytes gives
quadword 0 of the full-width read at the same address, where no page of it is shared. -/
def Obligations.LittleEndianRead : Prop :=
  ∀ (s : State) (m : Mode) (g : Seg) (ea : Qword) (n : Nat) (v : Vec × Nat), n ∈ [8, 16, 32, 64] →
    memRead m s g ea n = .next v →
    HoldsOperand m s g ea n v.1 ∧
    ((∀ k < n, ∃ phys, byteTranslated m s g ea k = .ok phys .ordinary) →
      ∃ q, memRead m s g ea 8 = .next q ∧ qwordAt q.1 0 = qwordAt v.1 0)

/-- R43, R46: an execution depends on no byte of memory but those of its operand, which with a broadcast are 8. -/
def Obligations.ReadsOnlyItsOperand : Prop :=
  ∀ (s t : State) (m : Mode) (i : Instr) (mem' : Memory), s.modelledMode = some m → exec i s = .next t →
    (∀ g ea n, memOperandOf m s i = some (g, ea, n) → ∀ k < n, ∀ phys,
      byteTranslated m s g ea k = .ok phys .ordinary → mem'.read phys = s.mem.read phys) →
    exec i { s with mem := mem' } = .next { t with mem := mem' }

/-- R26, R27: no outcome depends on RFLAGS or MXCSR, and a completed execution leaves them as they are. -/
def Obligations.FlagsAndMxcsrUntouched : Prop :=
  ∀ (i : Instr) (s : State) (fl : Qword) (mx : BitVec 32),
    (∀ t, exec i s = .next t → t.rflags = s.rflags ∧ t.mxcsr = s.mxcsr ∧
      exec i { s with rflags := fl, mxcsr := mx } = .next { t with rflags := fl, mxcsr := mx }) ∧
    (∀ e, exec i s = .fault e → exec i { s with rflags := fl, mxcsr := mx } = .fault e) ∧
    (∀ e, exec i s = .refused e → exec i { s with rflags := fl, mxcsr := mx } = .refused e)

/-- R155: the privilege level acts through `Translate` only: where it makes no difference to the translation of any byte
of the operand (there is none with a register operand), it makes none to the outcome. Both executions make the same free
choices (log entries 8 and 9). -/
def Obligations.PrivilegeOnlyThroughTranslate : Prop :=
  ∀ (i : Instr) (s : State) (c : BitVec 2),
    (∀ m g ea n, s.modelledMode = some m → memOperandOf m s i = some (g, ea, n) → ∀ k < n,
      Machine.translate s.translation (linearAt m s g ea k) c = Machine.translate s.translation (linearAt m s g ea k) s.cpl) →
    (∀ t, exec i s = .next t → exec i { s with cpl := c } = .next { t with cpl := c }) ∧
    (∀ e, exec i s = .fault e → exec i { s with cpl := c } = .fault e) ∧
    (∀ e, exec i s = .refused e → exec i { s with cpl := c } = .refused e)

/-- R72, R74: the effective address in `Mode64` without a 67 prefix, for every addressing form, displacement (an 8-bit
one counts `n`) and scale; index number 4 is none; RIP-relative counts from the next instruction. -/
def Obligations.EffectiveAddressMode64 : Prop :=
  ∀ (s : State) (pfx : List Prefix) (len n : Nat) (d8 : Byte) (d32 : BitVec 32), pfx.contains .addrSize = false →
    (∀ x b, effectiveAddress .mode64 pfx len n (.disp32 x b d32) s =
      s.rip + BitVec.ofNat 64 len + d32.signExtend 64) ∧
    ∀ d ∈ [(Disp.none, 0#64), (.d8 d8, d8.signExtend 64 * BitVec.ofNat 64 n), (.d32 d32, d32.signExtend 64)],
    ∀ c ∈ [(Scale.x1, 1#64), (.x2, 2#64), (.x4, 4#64), (.x8, 8#64)],
      (∀ b x, effectiveAddress .mode64 pfx len n (.base b x d.1) s = s.readGpr b + d.2) ∧
      (∀ b i, i ≠ 4#4 → effectiveAddress .mode64 pfx len n (.sib b i c.1 d.1) s =
        s.readGpr b + s.readGpr i * c.2 + d.2) ∧
      (∀ b, effectiveAddress .mode64 pfx len n (.sib b 4#4 c.1 d.1) s = s.readGpr b + d.2) ∧
      (∀ x i, i ≠ 4#4 → effectiveAddress .mode64 pfx len n (.sibNoBase x i c.1 d32) s =
        s.readGpr i * c.2 + d32.signExtend 64) ∧
      (∀ x, effectiveAddress .mode64 pfx len n (.sibNoBase x 4#4 c.1 d32) s = d32.signExtend 64)

/-- R75: a 67 prefix in `Mode64` reduces the 64-bit effective address modulo 2^32 and zero-extends it. -/
def Obligations.AddressSize32 : Prop :=
  ∀ (s : State) (pfx : List Prefix) (len n : Nat) (a : MemAddr), pfx.contains .addrSize = true →
    effectiveAddress .mode64 pfx len n a s = ((effectiveAddress .mode64 [] len n a s).setWidth 32).setWidth 64

/-- R72: an 8-bit displacement is scaled by 16, 32 or 64 in the EVEX forms, by 8 with a broadcast (decision D39, log entry
17), and not at all in the legacy and VEX forms; R43: the operand's size; R57: its segment, SS for base numbers 4 and 5
only (log entry 16). -/
def Obligations.Disp8Scaling : Prop :=
  ∀ (s : State) (b : GReg) (x : Bool) (d imm : Byte) (r4 q4 : BitVec 4) (r q : VReg) (k : Masking),
    let a : MemAddr := .base b x (.d8 d)
    let g : Seg := if b = 4#4 ∨ b = 5#4 then .ss else .ds
    let at_ (scale : Qword) : Qword := s.readGpr b + d.signExtend 64 * scale
    memOperandOf .mode64 s (.legacyXmm ⟨[.opSize], none, r4, .mem a, imm⟩) = some (g, at_ 1#64, 16) ∧
    memOperandOf .mode64 s (.vexXmm ⟨[], r4, q4, .mem a, imm⟩) = some (g, at_ 1#64, 16) ∧
    memOperandOf .mode64 s (.vexYmm ⟨[], r4, q4, .mem a, imm⟩) = some (g, at_ 1#64, 32) ∧
    memOperandOf .mode64 s (.evexXmm ⟨[], r, q, .mem a, k, imm⟩) = some (g, at_ 16#64, 16) ∧
    memOperandOf .mode64 s (.evexYmm ⟨[], r, q, .mem a, k, imm⟩) = some (g, at_ 32#64, 32) ∧
    memOperandOf .mode64 s (.evexZmm ⟨[], r, q, .mem a, k, imm⟩) = some (g, at_ 64#64, 64) ∧
    memOperandOf .mode64 s (.evexXmm ⟨[], r, q, .bcst a, k, imm⟩) = some (g, at_ 8#64, 8) ∧
    memOperandOf .mode64 s (.evexYmm ⟨[], r, q, .bcst a, k, imm⟩) = some (g, at_ 8#64, 8) ∧
    memOperandOf .mode64 s (.evexZmm ⟨[], r, q, .bcst a, k, imm⟩) = some (g, at_ 8#64, 8)

/-- R57, R58: the default segment of every addressing form is SS for base numbers 4 and 5 and DS otherwise (that R12 and
R13 are otherwise is log entry 16); in `Mode64` only FS and GS overrides select a segment, the last of them (log entry
15), only FS and GS have a base, and no segment check fails; in `Mode32` the last override wins, and the check passes
exactly where the segment is usable, no execute-only code segment, and the offset is inside its limit, whichever offsets
those are (log entry 21). -/
def Obligations.SegmentSelection : Prop :=
  (∀ (m : Mode) (b : GReg) (x : Bool) (i : GReg) (c : Scale) (d : Disp),
    operandSeg m [] (.base b x d) = (if b = 4#4 ∨ b = 5#4 then .ss else .ds) ∧
    operandSeg m [] (.sib b i c d) = (if b = 4#4 ∨ b = 5#4 then .ss else .ds)) ∧
  (∀ (m : Mode) (x b : Bool) (i : GReg) (c : Scale) (d : BitVec 32),
    operandSeg m [] (.sibNoBase x i c d) = .ds ∧ operandSeg m [] (.disp32 x b d) = .ds) ∧
  (∀ (m : Mode) (pfx : List Prefix) (a : MemAddr), (∀ p ∈ pfx, ∀ g, p = .seg g → m = .mode64 ∧ g ≠ .fs ∧ g ≠ .gs) →
    operandSeg m pfx a = operandSeg m [] a) ∧
  (∀ (pfx rest : List Prefix) (a : MemAddr) (g : Seg), g = .fs ∨ g = .gs →
    (∀ p ∈ rest, p ≠ .seg .fs ∧ p ≠ .seg .gs) → operandSeg .mode64 (pfx ++ [.seg g] ++ rest) a = g) ∧
  (∀ (pfx rest : List Prefix) (a : MemAddr) (g : Seg), (∀ p ∈ rest, ∀ g', p ≠ .seg g') →
    operandSeg .mode32 (pfx ++ [.seg g] ++ rest) a = g) ∧
  (∀ (s : State) (g : Seg), g ≠ .fs → g ≠ .gs → segBase .mode64 s g = 0#64) ∧
  (∀ (s : State) (g : Seg) (off : Qword), segCheck .mode64 s g off = true) ∧
  (∀ (s : State) (g : Seg) (off : Qword), segCheck .mode32 s g off = true ↔
    (s.segs.get g).usable = true ∧ (s.segs.get g).executeOnly = false ∧
    ∃ r ∈ (s.segs.get g).limit, r.first.toNat ≤ off.toNat ∧ off.toNat ≤ r.last.toNat)

/-- R10, R75: the effective address in `Mode32`, for every addressing form, displacement and scale: the low 32 bits of
the registers, sums modulo 2^32, and an absolute displacement without a base. -/
def Obligations.EffectiveAddressMode32 : Prop :=
  ∀ (s : State) (pfx : List Prefix) (len n : Nat) (d8 : Byte) (d32 : BitVec 32),
    let reg (r : GReg) : BitVec 32 := (s.readGpr r).setWidth 32
    let ea (a : MemAddr) : Qword := effectiveAddress .mode32 pfx len n a s
    (∀ x b, ea (.disp32 x b d32) = d32.setWidth 64) ∧
    ∀ d ∈ [(Disp.none, 0#32), (.d8 d8, d8.signExtend 32 * BitVec.ofNat 32 n), (.d32 d32, d32)],
    ∀ c ∈ [(Scale.x1, 1#32), (.x2, 2#32), (.x4, 4#32), (.x8, 8#32)],
      (∀ b x, ea (.base b x d.1) = (reg b + d.2).setWidth 64) ∧
      (∀ b i, i ≠ 4#4 → ea (.sib b i c.1 d.1) = (reg b + reg i * c.2 + d.2).setWidth 64) ∧
      (∀ b, ea (.sib b 4#4 c.1 d.1) = (reg b + d.2).setWidth 64) ∧
      (∀ x i, i ≠ 4#4 → ea (.sibNoBase x i c.1 d32) = (reg i * c.2 + d32).setWidth 64) ∧
      (∀ x, ea (.sibNoBase x 4#4 c.1 d32) = d32.setWidth 64)

/-- R40: an address is canonical exactly when its bits 63 down to LA_BITS - 1 are all equal, for 48 and for 57. -/
def Obligations.CanonicalAddress : Prop :=
  (∀ (la : LaBits) (a : Qword),
    canonical la a = true ↔ ∀ i, la.bits - 1 ≤ i → i < 64 → a.getLsbD i = a.getLsbD 63) ∧
  LaBits.la48.bits = 48 ∧ LaBits.la57.bits = 57

/-- R42, R58: the linear address of byte `k` is the segment base plus the offset, modulo 2^64 or in `Mode32` modulo 2^32;
in `Mode64` only FS and GS have a base; the byte is legal where its linear address is canonical in `Mode64`, and where
its offset passes the segment check in `Mode32`; it translates at the current privilege level. -/
def Obligations.LinearAddress : Prop :=
  ∀ (s : State) (g : Seg) (ea : Qword) (k : Nat),
    linearAt .mode64 s .fs ea k = s.segs.fs.base + (ea + BitVec.ofNat 64 k) ∧
    linearAt .mode64 s .gs ea k = s.segs.gs.base + (ea + BitVec.ofNat 64 k) ∧
    (g ≠ .fs → g ≠ .gs → linearAt .mode64 s g ea k = ea + BitVec.ofNat 64 k) ∧
    linearAt .mode32 s g ea k =
      ((s.segs.get g).base.setWidth 32 + (ea.setWidth 32 + BitVec.ofNat 32 k)).setWidth 64 ∧
    byteLegal .mode64 s g ea k = canonical s.cfg.laBits (linearAt .mode64 s g ea k) ∧
    byteLegal .mode32 s g ea k = segCheck .mode32 s g ((ea.setWidth 32 + BitVec.ofNat 32 k).setWidth 64) ∧
    ∀ m, byteTranslated m s g ea k = Machine.translate s.translation (linearAt m s g ea k) s.cpl

/-- R51: with paging off translation is the identity to ordinary memory; of a table the first row that covers the address
and the privilege level answers, with its physical address or with the error code of its cause, and where none does the
page is absent (P = 0, W/R = 0, U/S = 1 at level 3). The table is the form of log entries 7 and 26. -/
def Obligations.TranslateAnswers : Prop :=
  ∀ (lin : Qword) (cpl : BitVec 2),
    Machine.translate .pagingOff lin cpl = .ok lin.toNat .ordinary ∧
    Machine.translate (.table []) lin cpl = .fault (if cpl = 3#2 then 4#32 else 0#32) ∧
    ∀ (base size : Nat) (cpls : List (BitVec 2)) (rows : List Mapping),
      let covered : Prop := base ≤ lin.toNat ∧ lin.toNat < base + size ∧ cpl ∈ cpls
      (∀ phys kind, covered → Machine.translate (.table (⟨base, size, cpls, .ok phys kind⟩ :: rows)) lin cpl =
        .ok (phys + (lin.toNat - base)) kind) ∧
      (∀ c, covered → Machine.translate (.table (⟨base, size, cpls, .fault c⟩ :: rows)) lin cpl = .fault (c.code cpl)) ∧
      (∀ access, ¬ covered →
        Machine.translate (.table (⟨base, size, cpls, access⟩ :: rows)) lin cpl = Machine.translate (.table rows) lin cpl)

/-- R141: vector number, error code and recorded address of each exception. -/
def Obligations.ExceptionVectorsAndCodes : Prop :=
  (Fault.ud.vector = 6 ∧ Fault.ud.errorCode = none ∧ Fault.ud.cr2 = none) ∧
  (Fault.nm.vector = 7 ∧ Fault.nm.errorCode = none ∧ Fault.nm.cr2 = none) ∧
  (Fault.ss.vector = 12 ∧ Fault.ss.errorCode = some 0#32 ∧ Fault.ss.cr2 = none) ∧
  (Fault.gp.vector = 13 ∧ Fault.gp.errorCode = some 0#32 ∧ Fault.gp.cr2 = none) ∧
  ∀ (code : BitVec 32) (a : Qword),
    (Fault.pf code a).vector = 14 ∧ (Fault.pf code a).errorCode = some code ∧ (Fault.pf code a).cr2 = some a
end

