-- ==== Sys2Proof/Laws/PerInstr.lean ====
section
/-! SUPPORT. Statements about the syntax of every instruction, one lemma per constructor. -/

namespace Sys2Proof.Laws

theorem length_dispBytes (d : Disp) : d.bytes.length = d.size := by cases d <;> rfl

theorem length_addrBytes (reg : BitVec 3) (a : MemAddr) : (a.bytes reg).length = 1 + a.size := by
  cases a <;> simp [MemAddr.bytes, MemAddr.size, length_dispBytes, bytes32] <;> omega

theorem length_rmBytes (reg : BitVec 3) (o : Rm) : (o.bytes reg).length = 1 + o.size := by
  cases o <;> simp [Rm.bytes, Rm.size, length_addrBytes]

theorem length_evexRmBytes (reg : BitVec 3) (o : EvexRm) : (o.bytes reg).length = 1 + o.size := by
  cases o <;> simp [EvexRm.bytes, EvexRm.size, length_addrBytes]

theorem length_vexEncode (l : Bool) (f : VexForm) : (f.encode l).length = f.len := by
  simp [VexForm.encode, VexForm.len, length_rmBytes]; omega

theorem length_evexEncode (ll : BitVec 2) (f : EvexForm) : (f.encode ll).length = f.len := by
  simp [EvexForm.encode, EvexForm.len, length_evexRmBytes]; omega

/-- The encoder writes as many bytes as the length formula of R79 says. -/
def EncodedLength.Statement (i : Instr) : Prop := (encode i).length = i.len

theorem EncodedLength.legacyXmm (f : LegacyForm) : EncodedLength.Statement (.legacyXmm f) := by
  show f.encode.length = f.len
  cases h : f.rexW <;> simp [LegacyForm.encode, LegacyForm.len, length_rmBytes, h] <;> omega

theorem EncodedLength.vexXmm (f : VexForm) : EncodedLength.Statement (.vexXmm f) := length_vexEncode false f

theorem EncodedLength.vexYmm (f : VexForm) : EncodedLength.Statement (.vexYmm f) := length_vexEncode true f

theorem EncodedLength.evexXmm (f : EvexForm) : EncodedLength.Statement (.evexXmm f) := length_evexEncode 0#2 f

theorem EncodedLength.evexYmm (f : EvexForm) : EncodedLength.Statement (.evexYmm f) := length_evexEncode 1#2 f

theorem EncodedLength.evexZmm (f : EvexForm) : EncodedLength.Statement (.evexZmm f) := length_evexEncode 2#2 f

end Sys2Proof.Laws
end

