-- ==== Sys2Proof/Laws/Decode.lean ====
section
/-! SUPPORT. What each stage of the decoder answers on the bytes the encoder writes, and which bytes give a stage's
answer: prefixes, ModRM with SIB and displacement, the operands. -/

namespace Sys2Proof

/-! ## Fields of a byte -/

theorem modRM_eq (b : Byte) : modRM (b.extractLsb' 6 2) (b.extractLsb' 3 3) (b.extractLsb' 0 3) = b := by
  revert b; decide +kernel

theorem mod_modRM (mod : BitVec 2) (reg rm : BitVec 3) : (modRM mod reg rm).extractLsb' 6 2 = mod := by
  revert mod reg rm; decide +kernel

theorem reg_modRM (mod : BitVec 2) (reg rm : BitVec 3) : (modRM mod reg rm).extractLsb' 3 3 = reg := by
  revert mod reg rm; decide +kernel

theorem rm_modRM (mod : BitVec 2) (reg rm : BitVec 3) : (modRM mod reg rm).extractLsb' 0 3 = rm := by
  revert mod reg rm; decide +kernel

theorem ofBits_toBits (s : Scale) : Scale.ofBits s.toBits = s := by cases s <;> rfl

theorem toBits_ofBits (b : BitVec 2) : (Scale.ofBits b).toBits = b := by revert b; decide

theorem sibByte_eq (b : Byte) :
    sibByte (Scale.ofBits (b.extractLsb' 6 2)) (b.extractLsb' 3 3) (b.extractLsb' 0 3) = b := by
  revert b; decide +kernel

theorem scale_sibByte (s : Scale) (i b : BitVec 3) : Scale.ofBits ((sibByte s i b).extractLsb' 6 2) = s := by
  revert i b; cases s <;> decide +kernel

theorem index_sibByte (s : Scale) (i b : BitVec 3) : (sibByte s i b).extractLsb' 3 3 = i := by
  revert i b; cases s <;> decide +kernel

theorem base_sibByte (s : Scale) (i b : BitVec 3) : (sibByte s i b).extractLsb' 0 3 = b := by
  revert i b; cases s <;> decide +kernel

/-- A register number of four bits is its extension bit and its low three bits (R73). -/
theorem ext_low (r : BitVec 4) : BitVec.ofBool (ext3 r) ++ low3 r = r := by revert r; decide

theorem low3_append (b : Bool) (r : BitVec 3) : low3 (BitVec.ofBool b ++ r : BitVec 4) = r := by revert b r; decide

theorem ext3_append (b : Bool) (r : BitVec 3) : ext3 (BitVec.ofBool b ++ r : BitVec 4) = b := by revert b r; decide

/-! ## Prefixes -/

theorem prefixOf_byte {m : Mode} {p : Prefix} (h : p.existsIn m) : prefixOf m p.byte = some p := by
  cases p with
  | seg g => cases g <;> rfl
  | rex b =>
    rw [h b rfl]
    clear h
    revert b
    decide +kernel
  | addrSize => rfl
  | opSize => rfl
  | repne => rfl
  | rep => rfl
  | lock => rfl

theorem byte_of_prefixOf {m : Mode} {b : Byte} {p : Prefix} (h : prefixOf m b = some p) :
    p.byte = b ∧ p.existsIn m := by
  have key : ∀ b : Byte, ∀ m, (prefixOf m b).all (fun p => p.byte == b && (m == .mode64 || !endsInRex [p])) = true := by
    intro b m; revert b; cases m <;> decide +kernel
  have := key b m
  rw [h] at this
  simp only [Option.all_some, Bool.and_eq_true, beq_iff_eq, Bool.or_eq_true, Bool.not_eq_true'] at this
  refine ⟨this.1, fun r hr => ?_⟩
  subst hr
  simpa [endsInRex] using this.2

/-- The scan reads back prefixes that a byte which is none follows. -/
theorem scanPrefixes_map {m : Mode} {pfx : List Prefix} (h : ∀ p ∈ pfx, p.existsIn m) {b : Byte}
    (hb : prefixOf m b = none) (rest : List Byte) :
    scanPrefixes m (pfx.map Prefix.byte ++ b :: rest) = (pfx, b :: rest) := by
  induction pfx with
  | nil => simp [scanPrefixes, hb]
  | cons p pfx ih =>
    simp only [List.map_cons, List.cons_append, scanPrefixes, prefixOf_byte (h p List.mem_cons_self),
      ih fun q hq => h q (List.mem_cons_of_mem _ hq)]

/-- The scan splits the bytes into the prefixes it reads and the rest. -/
theorem bytes_of_scanPrefixes (m : Mode) (bs : List Byte) :
    bs = (scanPrefixes m bs).1.map Prefix.byte ++ (scanPrefixes m bs).2 ∧
    ∀ p ∈ (scanPrefixes m bs).1, p.existsIn m := by
  induction bs with
  | nil => simp [scanPrefixes]
  | cons b bs ih =>
    unfold scanPrefixes
    cases hp : prefixOf m b with
    | none => simp
    | some p =>
      obtain ⟨h1, h2⟩ := byte_of_prefixOf hp
      refine ⟨?_, ?_⟩
      · rw [List.map_cons, List.cons_append, h1, ← ih.1]
      · intro q hq
        rcases List.mem_cons.mp hq with rfl | hq
        · exact h2
        · exact ih.2 q hq

/-! ## Displacement, SIB, ModRM -/

theorem take32_bytes32 (d : BitVec 32) (rest : List Byte) : take32 (bytes32 d ++ rest) = some (d, rest) := by
  have : d.extractLsb' 24 8 ++ d.extractLsb' 16 8 ++ d.extractLsb' 8 8 ++ d.extractLsb' 0 8 = d := by
    apply BitVec.eq_of_getLsbD_eq
    intro i hi
    simp only [BitVec.getLsbD_append, BitVec.getLsbD_extractLsb']
    by_cases h0 : i < 8
    · simp [h0]
    by_cases h1 : i < 16
    · simp [h0, show i - 8 < 8 by omega, show 8 + (i - 8) = i by omega]
    by_cases h2 : i < 24
    · simp [h0, show ¬ i - 8 < 8 by omega, show i - 8 - 8 < 8 by omega, show 16 + (i - 8 - 8) = i by omega]
    · simp [h0, show ¬ i - 8 < 8 by omega, show ¬ i - 8 - 8 < 8 by omega, show i - 8 - 8 - 8 < 8 by omega,
        show 24 + (i - 8 - 8 - 8) = i by omega]
  simp only [bytes32, List.cons_append, List.nil_append, take32, this]

theorem bytes_of_take32 {bs rest : List Byte} {d : BitVec 32} (h : take32 bs = some (d, rest)) :
    bs = bytes32 d ++ rest := by
  unfold take32 at h
  split at h
  case h_1 b0 b1 b2 b3 r =>
    simp only [Option.some.injEq, Prod.mk.injEq] at h
    obtain ⟨rfl, rfl⟩ := h
    simp only [bytes32, List.cons_append, List.nil_append, List.cons.injEq, and_true]
    refine ⟨?_, ?_, ?_, ?_⟩ <;> apply BitVec.eq_of_getLsbD_eq <;> intro i hi <;>
      rw [BitVec.getLsbD_extractLsb'] <;> simp only [BitVec.getLsbD_append, hi, decide_true, Bool.true_and]
    · simp [hi]
    · simp [show ¬ 8 + i < 8 by omega, show 8 + i - 8 = i by omega, hi]
    · simp [show ¬ 16 + i < 8 by omega, show ¬ 16 + i - 8 < 8 by omega, show 16 + i - 8 - 8 = i by omega, hi]
    · simp [show ¬ 24 + i < 8 by omega, show ¬ 24 + i - 8 < 8 by omega, show ¬ 24 + i - 8 - 8 < 8 by omega,
        show 24 + i - 8 - 8 - 8 = i by omega]
  · simp at h

theorem takeDisp_bytes (d : Disp) (rest : List Byte) : takeDisp d.mod (d.bytes ++ rest) = some (d, rest) := by
  cases d with
  | none => rfl
  | d8 d => rfl
  | d32 d => simp [takeDisp, Disp.mod, Disp.bytes, take32_bytes32]

theorem bytes_of_takeDisp {mod : BitVec 2} {bs rest : List Byte} {d : Disp} (hm : mod ≠ 3#2)
    (h : takeDisp mod bs = some (d, rest)) : d.mod = mod ∧ bs = d.bytes ++ rest := by
  unfold takeDisp at h
  split at h
  case isTrue h0 => cases h; exact ⟨h0.symm, rfl⟩
  case isFalse h0 =>
    split at h
    case isTrue h1 =>
      split at h
      · simp at h
      · cases h; exact ⟨h1.symm, rfl⟩
    case isFalse h1 =>
      simp only [Option.map_eq_some_iff, Prod.mk.injEq, Prod.exists] at h
      obtain ⟨d', r, h, rfl, rfl⟩ := h
      refine ⟨?_, bytes_of_take32 h⟩
      have : ∀ m : BitVec 2, m ≠ 3#2 → m ≠ 0#2 → m ≠ 1#2 → 2#2 = m := by decide
      exact this mod hm h0 h1

theorem disp_mod_ne (d : Disp) : d.mod ≠ 3#2 := by cases d <;> simp [Disp.mod]

theorem disp_mod_eq_zero {d : Disp} : d.mod = 0#2 ↔ d = .none := by cases d <;> simp [Disp.mod]

/-- SIB and displacement of an address are read back. -/
theorem takeSib_bytes {a : MemAddr} (ha : a.ok = true) (rest : List Byte) :
    match a with
    | .base _ _ _ => True
    | .disp32 _ _ _ => True
    | .sib b i s d =>
      takeSib a.xBit a.bBit d.mod (sibByte s (low3 i) (low3 b) :: (d.bytes ++ rest)) = some (a, rest)
    | .sibNoBase _ i s d =>
      takeSib a.xBit a.bBit 0#2 (sibByte s (low3 i) 5#3 :: (bytes32 d ++ rest)) = some (a, rest) := by
  cases a with
  | base b x d => trivial
  | disp32 x b d => trivial
  | sib b i s d =>
    have hne : ¬ (d.mod = 0#2 ∧ low3 b = 5#3) := by
      rintro ⟨h1, h2⟩
      rw [disp_mod_eq_zero] at h1
      simp [MemAddr.ok, h1, h2] at ha
    simp only [takeSib, base_sibByte, index_sibByte, scale_sibByte, if_neg hne, takeDisp_bytes, MemAddr.xBit,
      MemAddr.bBit, ext_low, Option.map_some]
  | sibNoBase b i s d =>
    simp only [takeSib, base_sibByte, index_sibByte, scale_sibByte, and_self, if_true, take32_bytes32, MemAddr.xBit,
      MemAddr.bBit, ext_low, Option.map_some]

/-- ModRM, SIB and displacement of an address are read back. -/
theorem takeModRM_addr {a : MemAddr} (ha : a.ok = true) (reg : BitVec 3) (rest : List Byte) :
    takeModRM a.xBit a.bBit (a.bytes reg ++ rest) = some (reg, .mem a, rest) := by
  have hs := takeSib_bytes ha rest
  cases a with
  | base b x d =>
    simp only [MemAddr.ok, Bool.and_eq_true, bne_iff_ne, ne_eq] at ha
    have hne : ¬ (d.mod = 0#2 ∧ low3 b = 5#3) := by
      rintro ⟨h1, h2⟩
      rw [disp_mod_eq_zero] at h1
      simp [h1, h2] at ha
    simp only [MemAddr.bytes, List.cons_append, takeModRM, mod_modRM, reg_modRM, rm_modRM, if_neg (disp_mod_ne d),
      if_neg ha.1, if_neg hne, takeDisp_bytes, MemAddr.xBit, MemAddr.bBit, ext_low, Option.map_some]
  | sib b i s d =>
    simp only [MemAddr.bytes, List.cons_append, takeModRM, mod_modRM, reg_modRM, rm_modRM, if_neg (disp_mod_ne d),
      if_true]
    rw [hs]
    rfl
  | sibNoBase b i s d =>
    have h0 : ¬ (0#2 = 3#2) := by decide
    simp only [MemAddr.bytes, List.cons_append, takeModRM, mod_modRM, reg_modRM, rm_modRM, if_neg h0, if_true]
    rw [hs]
    rfl
  | disp32 x b d =>
    have h0 : ¬ (0#2 = 3#2) := by decide
    have h1 : ¬ (5#3 = 4#3) := by decide
    simp only [MemAddr.bytes, List.cons_append, takeModRM, mod_modRM, reg_modRM, rm_modRM, if_neg h0, if_neg h1,
      and_self, if_true, take32_bytes32, MemAddr.xBit, MemAddr.bBit, Option.map_some]

theorem takeModRM_reg (x b : Bool) (reg r : BitVec 3) (rest : List Byte) :
    takeModRM x b (modRM 3#2 reg r :: rest) = some (reg, .reg r, rest) := by
  simp only [takeModRM, mod_modRM, reg_modRM, rm_modRM, if_true]

/-- Operands of the legacy and VEX forms are read back. -/
theorem takeOperands_rm {o : Rm} (ho : o.ok = true) (reg : BitVec 3) (imm : Byte) (rest : List Byte) :
    ∃ rm, takeOperands o.xBit o.bBit (o.bytes reg ++ imm :: rest) = some (reg, rm, imm) ∧
      rm.toRm o.xBit o.bBit = o := by
  cases o with
  | reg r x =>
    refine ⟨.reg (low3 r), ?_, ?_⟩
    · simp only [takeOperands, Rm.bytes, List.cons_append, List.nil_append, takeModRM_reg]
    · simp only [RmField.toRm, Rm.bBit, Rm.xBit, ext_low]
  | mem a =>
    refine ⟨.mem a, ?_, rfl⟩
    simp only [takeOperands, Rm.bytes, Rm.xBit, Rm.bBit, takeModRM_addr ho]

theorem ext_low5 (r : VReg) : BitVec.ofBool (ext4 r) ++ (BitVec.ofBool (ext3 r) ++ low3 r) = r := by
  revert r; decide

/-- Operands of the EVEX forms are read back. -/
theorem takeOperands_evexRm {o : EvexRm} (ho : o.ok = true) (reg : BitVec 3) (imm : Byte) (rest : List Byte) :
    ∃ rm, takeOperands o.xBit o.bBit (o.bytes reg ++ imm :: rest) = some (reg, rm, imm) ∧
      rm.toEvexRm o.xBit o.bBit o.bcstBit = .ok o := by
  cases o with
  | reg r =>
    refine ⟨.reg (low3 r), ?_, ?_⟩
    · simp only [takeOperands, EvexRm.bytes, List.cons_append, List.nil_append, takeModRM_reg]
    · simp only [RmField.toEvexRm, EvexRm.bBit, EvexRm.xBit, EvexRm.bcstBit, Bool.false_eq_true, if_false, ext_low5]
  | mem a =>
    refine ⟨.mem a, ?_, rfl⟩
    simp only [takeOperands, EvexRm.bytes, EvexRm.xBit, EvexRm.bBit, takeModRM_addr ho]
  | bcst a =>
    refine ⟨.mem a, ?_, rfl⟩
    simp only [takeOperands, EvexRm.bytes, EvexRm.xBit, EvexRm.bBit, takeModRM_addr ho]

/-! ## Which bytes give an operand -/

/-- The bytes an r/m field stands for. -/
def RmField.bytes (reg : BitVec 3) : RmField → List Byte
  | .reg r => [modRM 3#2 reg r]
  | .mem a => a.bytes reg

/-- An r/m field that the bits X and B, and some bytes, spell. -/
def RmField.spelt (x b : Bool) : RmField → Prop
  | .reg _ => True
  | .mem a => a.ok = true ∧ a.xBit = x ∧ a.bBit = b

theorem bytes_of_takeSib {x b : Bool} {mod : BitVec 2} {bs rest : List Byte} {a : MemAddr} (hm : mod ≠ 3#2)
    (h : takeSib x b mod bs = some (a, rest)) (reg : BitVec 3) :
    modRM mod reg 4#3 :: bs = a.bytes reg ++ rest ∧ RmField.spelt x b (.mem a) := by
  cases bs with
  | nil => simp [takeSib] at h
  | cons sib bs =>
    have hsib := sibByte_eq sib
    simp only [takeSib] at h
    split at h
    case isTrue hc =>
      simp only [Option.map_eq_some_iff, Prod.mk.injEq, Prod.exists] at h
      obtain ⟨d, r, h, rfl, rfl⟩ := h
      obtain ⟨rfl, h5⟩ := hc
      rw [h5] at hsib
      simp only [MemAddr.bytes, low3_append, hsib, List.cons_append, bytes_of_take32 h]
      exact ⟨trivial, rfl, ext3_append _ _, rfl⟩
    case isFalse hc =>
      simp only [Option.map_eq_some_iff, Prod.mk.injEq, Prod.exists] at h
      obtain ⟨d, r, h, rfl, rfl⟩ := h
      obtain ⟨rfl, rfl⟩ := bytes_of_takeDisp hm h
      simp only [MemAddr.bytes, low3_append, hsib, List.cons_append]
      refine ⟨trivial, ?_, ext3_append _ _, ext3_append _ _⟩
      rw [disp_mod_eq_zero] at hc
      simp only [MemAddr.ok, low3_append, Bool.or_eq_true, bne_iff_ne, ne_eq]
      exact Decidable.not_and_iff_or_not.mp hc

theorem bytes_of_takeModRM {x b : Bool} {bs rest : List Byte} {reg : BitVec 3} {rm : RmField}
    (h : takeModRM x b bs = some (reg, rm, rest)) : bs = rm.bytes reg ++ rest ∧ rm.spelt x b := by
  cases bs with
  | nil => simp [takeModRM] at h
  | cons m bs =>
    have hmod := modRM_eq m
    simp only [takeModRM] at h
    split at h
    case isTrue h3 =>
      cases h
      rw [h3] at hmod
      exact ⟨by simp only [RmField.bytes, hmod, List.cons_append, List.nil_append], trivial⟩
    case isFalse h3 =>
      split at h
      case isTrue h4 =>
        simp only [Option.map_eq_some_iff, Prod.mk.injEq, Prod.exists] at h
        obtain ⟨a, r, h, rfl, rfl, rfl⟩ := h
        rw [h4] at hmod
        have := bytes_of_takeSib h3 h (m.extractLsb' 3 3)
        rwa [hmod] at this
      case isFalse h4 =>
        split at h
        case isTrue h5 =>
          simp only [Option.map_eq_some_iff, Prod.mk.injEq, Prod.exists] at h
          obtain ⟨d, r, h, rfl, rfl, rfl⟩ := h
          rw [h5.1, h5.2] at hmod
          simp only [RmField.bytes, MemAddr.bytes, hmod, List.cons_append, bytes_of_take32 h]
          exact ⟨trivial, rfl, rfl, rfl⟩
        case isFalse h5 =>
          simp only [Option.map_eq_some_iff, Prod.mk.injEq, Prod.exists] at h
          obtain ⟨d, r, h, rfl, rfl, rfl⟩ := h
          obtain ⟨hd, rfl⟩ := bytes_of_takeDisp h3 h
          simp only [RmField.bytes, MemAddr.bytes, low3_append, hd, hmod, List.cons_append]
          refine ⟨trivial, ?_, rfl, ext3_append _ _⟩
          rw [← hd, disp_mod_eq_zero] at h5
          simp only [MemAddr.ok, low3_append, Bool.and_eq_true, Bool.or_eq_true, bne_iff_ne, ne_eq]
          exact ⟨h4, Decidable.not_and_iff_or_not.mp h5⟩

theorem bytes_of_takeOperands {x b : Bool} {bs : List Byte} {reg : BitVec 3} {rm : RmField} {imm : Byte}
    (h : takeOperands x b bs = some (reg, rm, imm)) :
    ∃ rest, bs = rm.bytes reg ++ imm :: rest ∧ rm.spelt x b := by
  unfold takeOperands at h
  split at h
  · simp at h
  · simp at h
  case h_3 reg' rm' imm' rest hm =>
    cases h
    obtain ⟨h1, h2⟩ := bytes_of_takeModRM hm
    exact ⟨rest, h1, h2⟩

/-- Operand bytes that are complete are read the same whatever follows. -/
theorem takeOperands_append {x b : Bool} {bs : List Byte} {p : BitVec 3 × RmField × Byte}
    (h : takeOperands x b bs = some p) (tail : List Byte) : takeOperands x b (bs ++ tail) = some p := by
  obtain ⟨reg, rm, imm⟩ := p
  obtain ⟨rest, rfl, hs⟩ := bytes_of_takeOperands h
  cases rm with
  | reg r => simp [takeOperands, RmField.bytes, takeModRM_reg]
  | mem a =>
    obtain ⟨ha, rfl, rfl⟩ := hs
    simp [takeOperands, RmField.bytes, takeModRM_addr ha]

/-- Operand bytes that lack their end are not read. -/
theorem takeOperands_cut {x b : Bool} {bs : List Byte} {reg : BitVec 3} {rm : RmField} {imm : Byte}
    (h : takeOperands x b (rm.bytes reg ++ [imm]) = some (reg, rm, imm)) (hb : bs <+: rm.bytes reg) :
    takeOperands x b bs = none := by
  cases ht : takeOperands x b bs with
  | none => rfl
  | some p =>
    obtain ⟨reg', rm', imm'⟩ := p
    obtain ⟨tail, htail⟩ := hb
    have := takeOperands_append ht (tail ++ [imm])
    rw [← List.append_assoc, htail, h, Option.some.injEq, Prod.mk.injEq, Prod.mk.injEq] at this
    obtain ⟨rfl, rfl, rfl⟩ := this
    obtain ⟨rest, hr, -⟩ := bytes_of_takeOperands ht
    have := congrArg List.length htail
    have := congrArg List.length hr
    simp at *
    omega
/-! ## The window -/

/-- The bytes a decoder sees of a sequence that begins with at most 15 given ones. -/
theorem decode_of_window {m : Mode} {bs tail : List Byte} {v : Verdict} (hl : bs.length ≤ maxLength)
    (h : ∀ rest, decodeWindow m (bs ++ rest) = some v) : decode m (bs ++ tail) = v := by
  unfold decode
  rw [List.take_append, List.take_of_length_le hl, h]

/-! ## The prefixes of well-formed instructions -/

theorem existsIn_of_okLegacy {m : Mode} {p : Prefix} (h : p.okLegacy m = true) : p.existsIn m := by
  rintro b rfl
  simpa [Prefix.okLegacy] using h

theorem existsIn_of_okVex {m : Mode} {p : Prefix} (h : p.okVex m = true) : p.existsIn m := by
  rintro b rfl
  simp [Prefix.okVex] at h

/-- The first byte after the prefixes is none itself. -/
theorem prefixOf_escape (m : Mode) :
    prefixOf m 0x0F#8 = none ∧ prefixOf m 0xC4#8 = none ∧ prefixOf m 0x62#8 = none := by
  cases m <;> decide

theorem splitRex_append (pfx : List Prefix) (b : BitVec 4) : splitRex (pfx ++ [.rex b]) = (pfx, some b) := by
  simp [splitRex]

/-- Either the last prefix is a REX byte, which the split takes off, or it is none and the split changes nothing. -/
theorem splitRex_cases (pfx : List Prefix) :
    (∃ b, splitRex pfx = (pfx.dropLast, some b) ∧ pfx = pfx.dropLast ++ [.rex b]) ∨
    (splitRex pfx = (pfx, none) ∧ endsInRex pfx = false) := by
  cases h : pfx.getLast? with
  | none => exact .inr (by simp [splitRex, endsInRex, h])
  | some p =>
    cases p with
    | rex b => exact .inl ⟨b, by simp [splitRex, h], (List.dropLast_append_getLast? _ h).symm⟩
    | _ => exact .inr (by simp [splitRex, endsInRex, h])

/-! ## The fields of the REX, VEX and EVEX bytes -/

theorem rex_bits (w r x b : Bool) :
    let v : BitVec 4 := BitVec.ofBool w ++ (BitVec.ofBool r ++ (BitVec.ofBool x ++ BitVec.ofBool b))
    v.getLsbD 0 = b ∧ v.getLsbD 1 = x ∧ v.getLsbD 2 = r ∧ v.getLsbD 3 = w := by
  revert w r x b; decide

theorem vex1_bits (r x b : Bool) :
    let v : Byte := BitVec.ofBool (!r) ++ (BitVec.ofBool (!x) ++ (BitVec.ofBool (!b) ++ 3#5))
    v.extractLsb' 0 5 = 3#5 ∧ v.getLsbD 7 = !r ∧ v.getLsbD 6 = !x ∧ v.getLsbD 5 = !b := by
  revert r x b; decide

theorem vex2_bits (s : BitVec 4) (l : Bool) :
    let v : Byte := 1#1 ++ (~~~s ++ (BitVec.ofBool l ++ 1#2))
    v.extractLsb' 0 2 = 1#2 ∧ v.getLsbD 7 = true ∧ ~~~(v.extractLsb' 3 4) = s ∧ v.getLsbD 2 = l := by
  revert s l; decide

theorem evex0_bits (r x b r' : Bool) :
    let v : Byte := BitVec.ofBool (!r) ++ (BitVec.ofBool (!x) ++ (BitVec.ofBool (!b) ++ (BitVec.ofBool (!r') ++ 3#4)))
    v.extractLsb' 0 2 = 3#2 ∧ v.extractLsb' 2 2 = 0#2 ∧ v.getLsbD 7 = !r ∧ v.getLsbD 6 = !x ∧ v.getLsbD 5 = !b ∧
      v.getLsbD 4 = !r' := by
  revert r x b r'; decide

theorem evex1_bits (s : BitVec 4) :
    let v : Byte := 1#1 ++ (~~~s ++ 5#3)
    v.extractLsb' 0 2 = 1#2 ∧ v.getLsbD 7 = true ∧ ~~~(v.extractLsb' 3 4) = s ∧ v.getLsbD 2 = true := by
  revert s; decide

theorem evex2_bits (z b v' : Bool) (ll : BitVec 2) (aaa : KReg) :
    let v : Byte := BitVec.ofBool z ++ (ll ++ (BitVec.ofBool b ++ (BitVec.ofBool (!v') ++ aaa)))
    v.getLsbD 7 = z ∧ v.extractLsb' 5 2 = ll ∧ v.getLsbD 4 = b ∧ v.getLsbD 3 = !v' ∧ v.extractLsb' 0 3 = aaa := by
  revert z b v' ll aaa; decide +kernel

/-! ## The operand's own bits -/

/-- The r/m operand of the legacy and VEX forms is encoded with the bits X and B it was read with. -/
theorem toRm_spelt {x b : Bool} {rm : RmField} (h : rm.spelt x b) :
    (rm.toRm x b).ok = true ∧ (rm.toRm x b).xBit = x ∧ (rm.toRm x b).bBit = b ∧
      ∀ reg, (rm.toRm x b).bytes reg = rm.bytes reg := by
  cases rm with
  | reg r =>
    exact ⟨rfl, rfl, ext3_append _ _, fun reg => by simp only [RmField.toRm, Rm.bytes, RmField.bytes, low3_append]⟩
  | mem a => exact ⟨h.1, h.2.1, h.2.2, fun _ => rfl⟩

/-- Zeroing needs a mask register, and the mask is encoded with the bits it was read with (R69). -/
theorem maskOf_eq_ok {z : Bool} {aaa : KReg} {k : Masking} (h : maskOf z aaa = .ok k) :
    k.z = z ∧ k.aaa = aaa ∧ k.ok = true := by
  unfold maskOf at h
  split at h
  · split at h <;> simp only [reduceCtorEq, Except.ok.injEq] at h
    subst h
    simp_all [Masking.z, Masking.aaa, Masking.ok]
  · split at h <;> simp only [Except.ok.injEq] at h <;> subst h <;> simp_all [Masking.z, Masking.aaa, Masking.ok]

theorem maskOf_of_ok {k : Masking} (h : k.ok = true) : maskOf k.z k.aaa = .ok k := by
  cases k <;> simp_all [Masking.ok, maskOf, Masking.z, Masking.aaa]

/-! ## The three encodings after their prefixes -/

/-- After prefixes of the mode the byte 0F begins the legacy form. -/
theorem decodeWindow_legacy {m : Mode} {pfx : List Prefix} (h : ∀ p ∈ pfx, p.existsIn m) (rest : List Byte) :
    decodeWindow m (pfx.map Prefix.byte ++ 0x0F#8 :: rest) = decodeLegacy m pfx (0x0F#8 :: rest) := by
  unfold decodeWindow
  rw [scanPrefixes_map h (prefixOf_escape m).1]
  rfl

theorem escapes_cons {m : Mode} {b : Byte} (h : m = .mode32 → b.extractLsb' 6 2 = 3#2) (rest : List Byte) :
    escapes m (b :: rest) = some true := by
  cases m
  · simp [escapes]
  · simp [escapes, h rfl]

/-- After prefixes of the mode the byte C4 begins a VEX form (R61). -/
theorem decodeWindow_vex {m : Mode} {pfx : List Prefix} (h : ∀ p ∈ pfx, p.existsIn m) {b : Byte}
    (hb : m = .mode32 → b.extractLsb' 6 2 = 3#2) (rest : List Byte) :
    decodeWindow m (pfx.map Prefix.byte ++ 0xC4#8 :: b :: rest) = decodeVex m pfx (b :: rest) := by
  unfold decodeWindow
  rw [scanPrefixes_map h (prefixOf_escape m).2.1]
  simp [escapes_cons hb]

/-- After prefixes of the mode the byte 62 begins an EVEX form (R61). -/
theorem decodeWindow_evex {m : Mode} {pfx : List Prefix} (h : ∀ p ∈ pfx, p.existsIn m) {b : Byte}
    (hb : m = .mode32 → b.extractLsb' 6 2 = 3#2) (rest : List Byte) :
    decodeWindow m (pfx.map Prefix.byte ++ 0x62#8 :: b :: rest) = decodeEvex m pfx (b :: rest) := by
  unfold decodeWindow
  rw [scanPrefixes_map h (prefixOf_escape m).2.2]
  simp [escapes_cons hb]

/-- In `Mode32` a byte C4 or 62 whose successor does not have bits 7:6 = 11 is another instruction (R61). -/
theorem decodeWindow_mode32 {pfx : List Prefix} (h : ∀ p ∈ pfx, p.existsIn .mode32) {b c : Byte}
    (hb : b = 0xC4#8 ∨ b = 0x62#8) (hc : c.extractLsb' 6 2 ≠ 3#2) (rest : List Byte) :
    decodeWindow .mode32 (pfx.map Prefix.byte ++ b :: c :: rest) = some (.error .otherInstruction) := by
  unfold decodeWindow
  rw [scanPrefixes_map h (by rcases hb with rfl | rfl <;> decide)]
  simp [hb, escapes, hc]

/-- Bytes that are all prefixes are no instruction yet. -/
theorem scanPrefixes_all {m : Mode} {pfx : List Prefix} (h : ∀ p ∈ pfx, p.existsIn m) :
    scanPrefixes m (pfx.map Prefix.byte) = (pfx, []) := by
  induction pfx with
  | nil => rfl
  | cons p pfx ih =>
    simp only [List.map_cons, scanPrefixes, prefixOf_byte (h p List.mem_cons_self),
      ih fun q hq => h q (List.mem_cons_of_mem _ hq)]

end Sys2Proof
end

