-- ==== Sys2Proof/Laws/Word.lean ====
section
/-! SUPPORT. What `assemble` and `piece` do: the pieces of an assembled value are the pieces it was made of. -/

namespace Sys2Proof

theorem getLsbD_piece {w : Nat} (c : Nat) (v : BitVec w) (k i : Nat) :
    (piece c v k).getLsbD i = (decide (i < c) && v.getLsbD (c * k + i)) := by
  simp [piece, BitVec.getLsbD_extractLsb']

theorem getLsbD_assemble (w c : Nat) (hc : 0 < c) (f : Nat → BitVec c) (n i : Nat) :
    (assemble w c f n).getLsbD i = (decide (i < w) && decide (i < c * n) && (f (i / c)).getLsbD (i % c)) := by
  induction n with
  | zero => simp [assemble]
  | succ n ih =>
    simp only [assemble, BitVec.getLsbD_or, ih, BitVec.getLsbD_shiftLeft, BitVec.getLsbD_setWidth]
    by_cases hw : i < w
    · by_cases h1 : i < c * n
      · have h2 : i < c * (n + 1) := by rw [Nat.mul_succ]; omega
        simp [hw, h1, h2]
      · by_cases h2 : i < c * (n + 1)
        · have hq : i / c = n := by
            apply Nat.div_eq_of_lt_le
            · rw [Nat.mul_comm]; omega
            · rw [Nat.mul_comm]; exact h2
          have hm : i % c = i - c * n := by
            have := Nat.div_add_mod i c
            rw [hq] at this
            omega
          have hwn : i - c * n < w := by omega
          simp [hw, h1, h2, hq, hm, hwn]
        · have hge : c ≤ i - c * n := by rw [Nat.mul_succ] at h2; omega
          simp [hw, h1, h2, BitVec.getLsbD_of_ge _ _ hge]
    · simp [hw]

/-- Piece `k` of an assembled value is the `k`-th piece it was made of. -/
theorem piece_assemble (w c : Nat) (f : Nat → BitVec c) (n k : Nat) (hk : k < n) (hw : c * (k + 1) ≤ w) :
    piece c (assemble w c f n) k = f k := by
  rcases Nat.eq_zero_or_pos c with rfl | hc
  · exact Subsingleton.elim _ _
  · apply BitVec.eq_of_getLsbD_eq
    intro i hi
    rw [Nat.mul_succ] at hw
    have hn : c * k + c ≤ c * n := by
      have := Nat.mul_le_mul_left c hk
      rwa [Nat.mul_succ] at this
    have hq : (c * k + i) / c = k := by
      rw [Nat.mul_add_div hc, Nat.div_eq_of_lt hi, Nat.add_zero]
    have hm : (c * k + i) % c = i := by
      rw [Nat.mul_add_mod, Nat.mod_eq_of_lt hi]
    rw [getLsbD_piece, getLsbD_assemble w c hc, hq, hm]
    simp [hi, show c * k + i < w by omega, show c * k + i < c * n by omega]

/-- Pieces past the last one are 0. -/
theorem piece_assemble_of_le (w c : Nat) (f : Nat → BitVec c) (n k : Nat) (hk : n ≤ k) :
    piece c (assemble w c f n) k = 0#c := by
  rcases Nat.eq_zero_or_pos c with rfl | hc
  · exact Subsingleton.elim _ _
  · apply BitVec.eq_of_getLsbD_eq
    intro i hi
    have := Nat.mul_le_mul_left c hk
    rw [getLsbD_piece, getLsbD_assemble w c hc]
    simp [show ¬ (c * k + i < c * n) by omega]

/-- An assembled value is determined by its pieces. -/
theorem assemble_congr (w c : Nat) (f g : Nat → BitVec c) (n : Nat) (h : ∀ k < n, f k = g k) :
    assemble w c f n = assemble w c g n := by
  induction n with
  | zero => rfl
  | succ n ih =>
    simp only [assemble]
    rw [ih (fun k hk => h k (by omega)), h n (by omega)]

/-- Byte `b` of quadword `j` is byte `8j + b` (R9). -/
theorem byteAt_qwordAt {w : Nat} (v : BitVec w) (j b : Nat) (hb : b < 8) :
    byteAt (qwordAt v j) b = byteAt v (8 * j + b) := by
  apply BitVec.eq_of_getLsbD_eq
  intro i hi
  rw [getLsbD_piece, getLsbD_piece, getLsbD_piece]
  have h1 : 8 * b + i < 64 := by omega
  have h2 : 64 * j + (8 * b + i) = 8 * (8 * j + b) + i := by omega
  simp [hi, h1, h2]

/-- Two vectors with the same 64 bytes are equal. -/
theorem vec_ext {v u : Vec} (h : ∀ k < 64, byteAt v k = byteAt u k) : v = u := by
  apply BitVec.eq_of_getLsbD_eq
  intro i hi
  have hk := congrArg (fun b : Byte => b.getLsbD (i % 8)) (h (i / 8) (by omega))
  simp only [getLsbD_piece] at hk
  have h8 : i % 8 < 8 := Nat.mod_lt _ (by decide)
  have hd : 8 * (i / 8) + i % 8 = i := Nat.div_add_mod i 8
  simpa [h8, hd] using hk

/-- A bit of a vector is a bit of one of its bytes. -/
theorem getLsbD_eq_byteAt {w : Nat} (v : BitVec w) (i : Nat) : v.getLsbD i = (byteAt v (i / 8)).getLsbD (i % 8) := by
  rw [getLsbD_piece]
  have h8 : i % 8 < 8 := Nat.mod_lt _ (by decide)
  have hd : 8 * (i / 8) + i % 8 = i := Nat.div_add_mod i 8
  simp [h8, hd]

end Sys2Proof
end

