-- ==== Sys2Proof/Laws/GaloisField.lean ====
section
/-! SUPPORT. One lemma for each function of Machine/GaloisField.lean: its bits, its bytes. -/

namespace Sys2Proof.Machine

theorem getLsbD_affineInverseByte (q : Qword) (x imm : Byte) (i : Nat) (hi : i < 8) :
    (affineInverseByte q x imm).getLsbD i = affineInverseBit q x imm i := by
  rw [affineInverseByte, getLsbD_assemble 8 1 (by decide)]
  simp [hi, Nat.mod_one]

theorem byteAt_affineInvVec (kl : Nat) (hkl : kl ≤ 8) (x a : Vec) (imm : Byte) (n : Nat) (hn : n < 8 * kl) :
    byteAt (affineInvVec kl x a imm) n = affineInverseByte (qwordAt a (n / 8)) (byteAt x n) imm :=
  piece_assemble 512 8 _ _ n hn (by omega)

theorem byteAt_affineInvVec_of_le (kl : Nat) (x a : Vec) (imm : Byte) (n : Nat) (hn : 8 * kl ≤ n) :
    byteAt (affineInvVec kl x a imm) n = 0#8 :=
  piece_assemble_of_le 512 8 _ _ n hn

end Sys2Proof.Machine
end

