-- ==== Sys2Proof/Laws/State.lean ====
section
/-! SUPPORT. One lemma per field per update of the state, so that no later proof unfolds a record update. -/

namespace Sys2Proof.Machine

@[simp] theorem writeZmm_cfg (s : State) (r : VReg) (v : Vec) : (s.writeZmm r v).cfg = s.cfg := rfl
@[simp] theorem writeZmm_mode (s : State) (r : VReg) (v : Vec) : (s.writeZmm r v).mode = s.mode := rfl
@[simp] theorem writeZmm_cpl (s : State) (r : VReg) (v : Vec) : (s.writeZmm r v).cpl = s.cpl := rfl
@[simp] theorem writeZmm_k (s : State) (r : VReg) (v : Vec) : (s.writeZmm r v).k = s.k := rfl
@[simp] theorem writeZmm_gpr (s : State) (r : VReg) (v : Vec) : (s.writeZmm r v).gpr = s.gpr := rfl
@[simp] theorem writeZmm_rflags (s : State) (r : VReg) (v : Vec) : (s.writeZmm r v).rflags = s.rflags := rfl
@[simp] theorem writeZmm_mxcsr (s : State) (r : VReg) (v : Vec) : (s.writeZmm r v).mxcsr = s.mxcsr := rfl
@[simp] theorem writeZmm_segs (s : State) (r : VReg) (v : Vec) : (s.writeZmm r v).segs = s.segs := rfl
@[simp] theorem writeZmm_cr0 (s : State) (r : VReg) (v : Vec) : (s.writeZmm r v).cr0 = s.cr0 := rfl
@[simp] theorem writeZmm_cr2 (s : State) (r : VReg) (v : Vec) : (s.writeZmm r v).cr2 = s.cr2 := rfl
@[simp] theorem writeZmm_cr4 (s : State) (r : VReg) (v : Vec) : (s.writeZmm r v).cr4 = s.cr4 := rfl
@[simp] theorem writeZmm_xcr0 (s : State) (r : VReg) (v : Vec) : (s.writeZmm r v).xcr0 = s.xcr0 := rfl
@[simp] theorem writeZmm_efer (s : State) (r : VReg) (v : Vec) : (s.writeZmm r v).efer = s.efer := rfl
@[simp] theorem writeZmm_translation (s : State) (r : VReg) (v : Vec) : (s.writeZmm r v).translation = s.translation := rfl
@[simp] theorem writeZmm_mem (s : State) (r : VReg) (v : Vec) : (s.writeZmm r v).mem = s.mem := rfl
@[simp] theorem writeZmm_text (s : State) (r : VReg) (v : Vec) : (s.writeZmm r v).text = s.text := rfl
@[simp] theorem writeZmm_rip (s : State) (r : VReg) (v : Vec) : (s.writeZmm r v).rip = s.rip := rfl
@[simp] theorem writeZmm_draws (s : State) (r : VReg) (v : Vec) : (s.writeZmm r v).draws = s.draws := rfl

@[simp] theorem advance_cfg (s : State) (r : Qword) (n : Nat) : (s.advance r n).cfg = s.cfg := rfl
@[simp] theorem advance_mode (s : State) (r : Qword) (n : Nat) : (s.advance r n).mode = s.mode := rfl
@[simp] theorem advance_cpl (s : State) (r : Qword) (n : Nat) : (s.advance r n).cpl = s.cpl := rfl
@[simp] theorem advance_k (s : State) (r : Qword) (n : Nat) : (s.advance r n).k = s.k := rfl
@[simp] theorem advance_gpr (s : State) (r : Qword) (n : Nat) : (s.advance r n).gpr = s.gpr := rfl
@[simp] theorem advance_rflags (s : State) (r : Qword) (n : Nat) : (s.advance r n).rflags = s.rflags := rfl
@[simp] theorem advance_mxcsr (s : State) (r : Qword) (n : Nat) : (s.advance r n).mxcsr = s.mxcsr := rfl
@[simp] theorem advance_segs (s : State) (r : Qword) (n : Nat) : (s.advance r n).segs = s.segs := rfl
@[simp] theorem advance_cr0 (s : State) (r : Qword) (n : Nat) : (s.advance r n).cr0 = s.cr0 := rfl
@[simp] theorem advance_cr2 (s : State) (r : Qword) (n : Nat) : (s.advance r n).cr2 = s.cr2 := rfl
@[simp] theorem advance_cr4 (s : State) (r : Qword) (n : Nat) : (s.advance r n).cr4 = s.cr4 := rfl
@[simp] theorem advance_xcr0 (s : State) (r : Qword) (n : Nat) : (s.advance r n).xcr0 = s.xcr0 := rfl
@[simp] theorem advance_efer (s : State) (r : Qword) (n : Nat) : (s.advance r n).efer = s.efer := rfl
@[simp] theorem advance_translation (s : State) (r : Qword) (n : Nat) : (s.advance r n).translation = s.translation := rfl
@[simp] theorem advance_mem (s : State) (r : Qword) (n : Nat) : (s.advance r n).mem = s.mem := rfl
@[simp] theorem advance_text (s : State) (r : Qword) (n : Nat) : (s.advance r n).text = s.text := rfl
@[simp] theorem advance_zmm (s : State) (r : Qword) (n : Nat) : (s.advance r n).zmm = s.zmm := rfl
@[simp] theorem advance_rip (s : State) (r : Qword) (n : Nat) : (s.advance r n).rip = r := rfl
@[simp] theorem advance_draws (s : State) (r : Qword) (n : Nat) : (s.advance r n).draws = n := rfl

@[simp] theorem launch_cfg (s : State) : s.launch.cfg = s.cfg := rfl
@[simp] theorem launch_cpl (s : State) : s.launch.cpl = s.cpl := rfl
@[simp] theorem launch_zmm (s : State) : s.launch.zmm = s.zmm := rfl
@[simp] theorem launch_k (s : State) : s.launch.k = s.k := rfl
@[simp] theorem launch_gpr (s : State) : s.launch.gpr = s.gpr := rfl
@[simp] theorem launch_rip (s : State) : s.launch.rip = s.rip := rfl
@[simp] theorem launch_rflags (s : State) : s.launch.rflags = s.rflags := rfl
@[simp] theorem launch_mxcsr (s : State) : s.launch.mxcsr = s.mxcsr := rfl
@[simp] theorem launch_cr2 (s : State) : s.launch.cr2 = s.cr2 := rfl
@[simp] theorem launch_mem (s : State) : s.launch.mem = s.mem := rfl
@[simp] theorem launch_text (s : State) : s.launch.text = s.text := rfl
@[simp] theorem launch_draws (s : State) : s.launch.draws = s.draws := rfl

@[simp] theorem readZmm_advance (s : State) (r : Qword) (n : Nat) (d : VReg) :
    (s.advance r n).readZmm d = s.readZmm d := rfl

@[simp] theorem readK_advance (s : State) (r : Qword) (n : Nat) (d : KReg) : (s.advance r n).readK d = s.readK d := rfl

@[simp] theorem readGpr_advance (s : State) (r : Qword) (n : Nat) (d : GReg) :
    (s.advance r n).readGpr d = s.readGpr d := rfl

@[simp] theorem readK_writeZmm (s : State) (r : VReg) (v : Vec) (d : KReg) : (s.writeZmm r v).readK d = s.readK d := rfl

@[simp] theorem readGpr_writeZmm (s : State) (r : VReg) (v : Vec) (d : GReg) :
    (s.writeZmm r v).readGpr d = s.readGpr d := rfl

/-- The register written reads as what was written. -/
@[simp] theorem readZmm_writeZmm (s : State) (r : VReg) (v : Vec) : (s.writeZmm r v).readZmm r = v := by
  simp [State.readZmm, State.writeZmm]

/-- Every other register reads as before. -/
theorem readZmm_writeZmm_ne (s : State) (r d : VReg) (v : Vec) (h : d ≠ r) :
    (s.writeZmm r v).readZmm d = s.readZmm d := by
  have hn : r.toNat ≠ d.toNat := fun e => h (BitVec.eq_of_toNat_eq e.symm)
  simp [State.readZmm, State.writeZmm, Vector.getElem_set_ne _ _ hn]

end Sys2Proof.Machine
end

