-- ==== Sys2Proof/Laws/Ops.lean ====
section
/-! SUPPORT. What each shared operation of Machine/Ops.lean can do, said once: sequencing, the checks before an
instruction, its completion. -/

namespace Sys2Proof.Machine

section
variable {α β : Type}

@[simp] theorem andThen_next (a : α) (k : α → Res β) : andThen (.next a) k = k a := rfl
@[simp] theorem andThen_fault (f : Fault) (k : α → Res β) : andThen (.fault f) k = .fault f := rfl
@[simp] theorem andThen_refused (f : Refusal) (k : α → Res β) : andThen (.refused f) k = .refused f := rfl

theorem andThen_eq_next {r : Res α} {k : α → Res β} {b : β} :
    andThen r k = .next b ↔ ∃ a, r = .next a ∧ k a = .next b := by
  cases r <;> simp

theorem andThen_eq_fault {r : Res α} {k : α → Res β} {f : Fault} :
    andThen r k = .fault f ↔ r = .fault f ∨ ∃ a, r = .next a ∧ k a = .fault f := by
  cases r <;> simp

theorem andThen_eq_refused {r : Res α} {k : α → Res β} {f : Refusal} :
    andThen r k = .refused f ↔ r = .refused f ∨ ∃ a, r = .next a ∧ k a = .refused f := by
  cases r <;> simp

end

/-- The checks pass exactly in a mode of the spec, without #UD and without #NM. -/
theorem prologue_eq_next {ud : Bool} {s : State} {m : Mode} :
    prologue ud s = .next m ↔ s.modelledMode = some m ∧ ud = false ∧ s.cr0TS = false := by
  unfold prologue
  cases s.modelledMode <;> cases ud <;> cases h : s.cr0TS <;> simp [raise]

/-- The checks raise #UD, or, where that does not hold, #NM. -/
theorem prologue_eq_fault {ud : Bool} {s : State} {f : Fault} :
    prologue ud s = .fault f ↔
      s.modelledMode.isSome ∧ (ud = true ∧ f = .ud ∨ ud = false ∧ s.cr0TS = true ∧ f = .nm) := by
  unfold prologue
  cases s.modelledMode <;> cases ud <;> cases h : s.cr0TS <;> simp [raise, eq_comm]

/-- The checks refuse exactly outside the modes of the spec. -/
theorem prologue_eq_refused {ud : Bool} {s : State} {f : Refusal} :
    prologue ud s = .refused f ↔ s.modelledMode = none ∧ f = .unmodelledMode := by
  unfold prologue
  cases s.modelledMode <;> cases ud <;> cases h : s.cr0TS <;> simp [raise, eq_comm]

theorem finish_eq_next {m : Mode} {len : Nat} {d : VReg} {v : Vec} {n : Nat} {s t : State} :
    finish m len d v n s = .next t ↔ ∃ r, nextRip m len s = some r ∧ t = (s.writeZmm d v).advance r n := by
  unfold finish
  cases nextRip m len s <;> simp [eq_comm]

theorem finish_ne_fault {m : Mode} {len : Nat} {d : VReg} {v : Vec} {n : Nat} {s : State} {f : Fault} :
    finish m len d v n s ≠ .fault f := by
  unfold finish
  cases nextRip m len s <;> simp

theorem finish_eq_refused {m : Mode} {len : Nat} {d : VReg} {v : Vec} {n : Nat} {s : State} {f : Refusal} :
    finish m len d v n s = .refused f ↔ nextRip m len s = none ∧ f = .ripWrap := by
  unfold finish
  cases nextRip m len s <;> simp [eq_comm]

theorem ofNat_toNat_add (a : Qword) (len : Nat) : BitVec.ofNat 64 (a.toNat + len) = a + BitVec.ofNat 64 len := by
  apply BitVec.eq_of_toNat_eq
  simp [BitVec.toNat_add]

/-- The next address, where there is one, is `rip + len`. -/
theorem nextRip_eq {m : Mode} {len : Nat} {s : State} {r : Qword} (h : nextRip m len s = some r) :
    r = s.rip + BitVec.ofNat 64 len := by
  rw [← ofNat_toNat_add]
  cases m <;> simp only [nextRip] at h <;> split at h <;> simp_all

/-- In `Mode64` it is canonical; in `Mode32` it has 32 bits. -/
theorem nextRip_legal {m : Mode} {len : Nat} {s : State} {r : Qword} (h : nextRip m len s = some r) :
    match m with
    | .mode64 => canonical s.cfg.laBits r = true
    | .mode32 => r.toNat < 2 ^ 32 := by
  cases m <;> simp only [nextRip] at h <;> split at h <;> simp_all
  subst h
  rw [BitVec.toNat_ofNat]
  exact Nat.lt_of_le_of_lt (Nat.mod_le _ _) ‹_›

/-- A mode of the spec is the mode field's. -/
theorem modelledMode_eq {s : State} {m : Mode} (h : s.modelledMode = some m) : s.mode = .running m := by
  unfold State.modelledMode at h
  split at h <;> simp_all

/-- Where `rip + len` fits its mode there is a next address. -/
theorem nextRip_of_fits {m : Mode} {len : Nat} {s : State}
    (h : match m with
      | .mode64 => s.rip.toNat + len < 2 ^ 64 ∧ canonical s.cfg.laBits (s.rip + BitVec.ofNat 64 len) = true
      | .mode32 => s.rip.toNat + len < 2 ^ 32) :
    nextRip m len s = some (s.rip + BitVec.ofNat 64 len) := by
  rw [← ofNat_toNat_add] at *
  cases m <;> exact if_pos h

/-- Where it does not there is none. -/
theorem nextRip_of_not_fits {m : Mode} {len : Nat} {s : State}
    (h : ¬ match m with
      | .mode64 => s.rip.toNat + len < 2 ^ 64 ∧ canonical s.cfg.laBits (s.rip + BitVec.ofNat 64 len) = true
      | .mode32 => s.rip.toNat + len < 2 ^ 32) :
    nextRip m len s = none := by
  rw [← ofNat_toNat_add] at *
  cases m <;> exact if_neg h

end Sys2Proof.Machine
end

