-- ==== Sys2Proof/Laws/Operands.lean ====
section
/-! SUPPORT. What the memory read and the matrix operands can answer, said once. -/

namespace Sys2Proof.Machine

variable {m : Mode} {s : State} {g : Seg} {ea : Qword} {n : Nat}

theorem pageFaults_eq_nil : pageFaults m s g ea n = [] ↔ ∀ k < n, bytePageFault m s g ea k = none := by
  simp [pageFaults]

theorem bytePageFault_eq_none {k : Nat} :
    bytePageFault m s g ea k = none ↔ ∃ phys kind, byteTranslated m s g ea k = .ok phys kind := by
  unfold bytePageFault
  cases byteTranslated m s g ea k <;> simp

theorem byteHasKind_iff {kind : PageKind} {k : Nat} :
    byteHasKind kind m s g ea k = true ↔ ∃ phys, byteTranslated m s g ea k = .ok phys kind := by
  unfold byteHasKind
  cases byteTranslated m s g ea k <;> simp

/-- The read succeeds exactly on a readable operand, and then answers its value. -/
theorem memRead_eq_next {v : Vec × Nat} :
    memRead m s g ea n = .next v ↔ Readable m s g ea n ∧ v = (operandValue m s g ea n, drawsAfter m s g ea n) := by
  unfold memRead
  by_cases hl : (List.range n).all (byteLegal m s g ea) = true
  · rw [if_pos hl]
    cases hp : pageFaults m s g ea n with
    | cons first others =>
      constructor
      · intro h; simp [raise] at h
      · rintro ⟨hr, -⟩
        have : pageFaults m s g ea n = [] := pageFaults_eq_nil.mpr fun k hk =>
          bytePageFault_eq_none.mpr (by obtain ⟨-, p, kd, h, -⟩ := hr k hk; exact ⟨p, kd, h⟩)
        simp [this] at hp
    | nil =>
      have hok := pageFaults_eq_nil.mp hp
      by_cases hd : (List.range n).any (byteHasKind .device m s g ea) = true
      · constructor
        · intro h; simp [hd] at h
        · rintro ⟨hr, -⟩
          simp only [List.any_eq_true, List.mem_range] at hd
          obtain ⟨k, hk, hd⟩ := hd
          obtain ⟨p, hp⟩ := byteHasKind_iff.mp hd
          obtain ⟨-, p', kd, h, hne⟩ := hr k hk
          rw [hp] at h
          cases h
          exact absurd rfl hne
      · have hr : Readable m s g ea n := by
          intro k hk
          refine ⟨by simpa using (List.all_eq_true.mp hl) k (List.mem_range.mpr hk), ?_⟩
          obtain ⟨p, kd, h⟩ := bytePageFault_eq_none.mp (hok k hk)
          refine ⟨p, kd, h, ?_⟩
          rintro rfl
          exact hd (List.any_eq_true.mpr ⟨k, List.mem_range.mpr hk, byteHasKind_iff.mpr ⟨p, h⟩⟩)
        simp [hd, hr, eq_comm]
  · rw [if_neg hl]
    constructor
    · intro h; simp [raise] at h
    · rintro ⟨hr, -⟩
      exact absurd (List.all_eq_true.mpr fun k hk => (hr k (List.mem_range.mp hk)).1) hl

/-- The page fault reported is that of one of the operand's bytes (R147). -/
theorem reportedFault_mem {choice : Nat} {first : BitVec 32 × Qword} {others : List (BitVec 32 × Qword)} :
    ∃ p ∈ first :: others, reportedFault choice first others = .pf p.1 p.2 := by
  unfold reportedFault
  cases others with
  | nil => exact ⟨first, by simp, rfl⟩
  | cons o os =>
    refine ⟨(first :: o :: os).getD (choice % ((o :: os).length + 1)) first, ?_, rfl⟩
    have hlt : choice % ((o :: os).length + 1) < (first :: o :: os).length :=
      Nat.mod_lt _ (Nat.succ_pos _)
    rw [List.getD_eq_getElem _ _ hlt]
    exact List.getElem_mem hlt

/-- A read that faults does so on a byte outside its segment or not canonical, or, where there is none, on a byte that
does not translate (R42, R149). -/
theorem memRead_eq_fault {f : Fault} (h : memRead m s g ea n = .fault f) :
    ((∃ k < n, byteLegal m s g ea k = false) ∧ f = segFault g) ∨
    ((∀ k < n, byteLegal m s g ea k = true) ∧
      ∃ k < n, ∃ code, byteTranslated m s g ea k = .fault code ∧ f = .pf code (linearAt m s g ea k)) := by
  unfold memRead at h
  split at h
  case isFalse hl =>
    left
    refine ⟨?_, by simpa [raise, eq_comm] using h⟩
    simpa using hl
  case isTrue hl =>
    right
    refine ⟨fun k hk => (List.all_eq_true.mp hl) k (List.mem_range.mpr hk), ?_⟩
    split at h
    case h_1 first others hp =>
      obtain ⟨p, hmem, hrep⟩ := reportedFault_mem (choice := Config.faultChoice s.draws) (first := first) (others := others)
      rw [← hp] at hmem
      simp only [pageFaults, List.mem_filterMap, List.mem_range] at hmem
      obtain ⟨k, hk, hbf⟩ := hmem
      unfold bytePageFault at hbf
      split at hbf
      · simp at hbf
      case h_2 code hc =>
        refine ⟨k, hk, code, hc, ?_⟩
        simp only [Option.some.injEq] at hbf
        subst hbf
        simpa [raise, hrep, eq_comm] using h
    · split at h <;> simp at h

/-- The matrix operand of each kind, where it can be had. -/
theorem legacyMatrix_mem {f : LegacyForm} {a : MemAddr} (hf : f.src2 = .mem a) :
    legacyMatrix m f s =
      if aligned16 m s (operandSeg m f.pfx a) (effectiveAddress m f.pfx f.len 1 a s) then
        memRead m s (operandSeg m f.pfx a) (effectiveAddress m f.pfx f.len 1 a s) 16
      else raise .gp := by
  simp only [legacyMatrix, hf]

theorem legacyMatrix_reg {f : LegacyForm} {r : BitVec 4} {x : Bool} (hf : f.src2 = .reg r x) :
    legacyMatrix m f s = .next (s.readZmm (vreg16 r), s.draws) := by
  simp only [legacyMatrix, hf]

theorem vexMatrix_mem {vl : Vl} {f : VexForm} {a : MemAddr} (hf : f.src2 = .mem a) :
    vexMatrix m vl f s =
      memRead m s (operandSeg m f.pfx a) (effectiveAddress m f.pfx f.len 1 a s) vl.bytes := by
  simp only [vexMatrix, hf]

theorem vexMatrix_reg {vl : Vl} {f : VexForm} {r : BitVec 4} {x : Bool} (hf : f.src2 = .reg r x) :
    vexMatrix m vl f s = .next (s.readZmm (vreg16 r), s.draws) := by
  simp only [vexMatrix, hf]

theorem evexMatrix_mem {vl : Vl} {f : EvexForm} {a : MemAddr} (hf : f.src2 = .mem a) :
    evexMatrix m vl f s =
      memRead m s (operandSeg m f.pfx a) (effectiveAddress m f.pfx f.len vl.bytes a s) vl.bytes := by
  simp only [evexMatrix, hf]

theorem evexMatrix_bcst {vl : Vl} {f : EvexForm} {a : MemAddr} (hf : f.src2 = .bcst a) :
    evexMatrix m vl f s =
      andThen (memRead m s (operandSeg m f.pfx a) (effectiveAddress m f.pfx f.len 8 a s) 8) fun r =>
      .next (assemble 512 64 (fun _ => qwordAt r.1 0) vl.kl, r.2) := by
  simp only [evexMatrix, hf]

theorem evexMatrix_reg {vl : Vl} {f : EvexForm} {r : VReg} (hf : f.src2 = .reg r) :
    evexMatrix m vl f s = .next (s.readZmm r, s.draws) := by
  simp only [evexMatrix, hf]

/-- Byte `k` of an operand of at most 64 bytes (R41). -/
theorem byteAt_operandValue {k : Nat} (hk : k < n) (hn : n ≤ 64) :
    byteAt (operandValue m s g ea n) k = byteValue m s g ea k :=
  piece_assemble 512 8 _ _ k hk (by omega)

/-- A read depends on the state through the bytes of its operand alone: whether each is legal, its linear address, its
translation, its value, and the counter of free values. -/
theorem memRead_congr {t : State} (hd : t.draws = s.draws)
    (h : ∀ k < n, byteLegal m t g ea k = byteLegal m s g ea k ∧ linearAt m t g ea k = linearAt m s g ea k ∧
      byteTranslated m t g ea k = byteTranslated m s g ea k ∧ byteValue m t g ea k = byteValue m s g ea k) :
    memRead m t g ea n = memRead m s g ea n := by
  have hl : (List.range n).all (byteLegal m t g ea) = (List.range n).all (byteLegal m s g ea) :=
    Bool.eq_iff_iff.mpr (by simp only [List.all_eq_true, List.mem_range]
                            exact forall₂_congr fun k hk => by rw [(h k hk).1])
  have hp : pageFaults m t g ea n = pageFaults m s g ea n :=
    List.filterMap_congr fun k hk => by
      simp only [bytePageFault, (h k (List.mem_range.mp hk)).2.1, (h k (List.mem_range.mp hk)).2.2.1]
  have hk : ∀ kind, (List.range n).any (byteHasKind kind m t g ea) = (List.range n).any (byteHasKind kind m s g ea) :=
    fun kind => Bool.eq_iff_iff.mpr (by
      simp only [List.any_eq_true, List.mem_range, byteHasKind]
      exact exists_congr fun k => and_congr_right fun hk => by rw [(h k hk).2.2.1])
  have hv : operandValue m t g ea n = operandValue m s g ea n :=
    assemble_congr _ _ _ _ n fun k hk => (h k hk).2.2.2
  simp only [memRead, hl, hp, hk, hv, drawsAfter, hd]

/-- Every predicate on offsets is the limit of some segment: `SegCheck` is any function (R7, R58). -/
theorem exists_limit (p : BitVec 32 → Bool) :
    ∃ limit : List OffsetRange, ∀ off : BitVec 32, limit.any (fun r => r.holds (off.setWidth 64)) = p off := by
  let point (k : Nat) : OffsetRange := { first := BitVec.ofNat 32 k, last := BitVec.ofNat 32 k }
  obtain ⟨size, hsize⟩ : ∃ size, ∀ off : BitVec 32, off.toNat < size := ⟨_, BitVec.isLt⟩
  refine ⟨((List.range size).filter fun k => p (BitVec.ofNat 32 k)).map point, fun off => Bool.eq_iff_iff.mpr ?_⟩
  simp only [List.any_eq_true, List.mem_map, List.mem_filter, List.mem_range]
  constructor
  · rintro ⟨_, ⟨k, ⟨-, hp⟩, rfl⟩, h⟩
    simp only [point, OffsetRange.holds, BitVec.toNat_ofNat, BitVec.toNat_setWidth, Bool.and_eq_true,
      decide_eq_true_eq] at h
    have : off = BitVec.ofNat 32 k := BitVec.eq_of_toNat_eq (by simp only [BitVec.toNat_ofNat]; omega)
    rwa [this]
  · intro hp
    refine ⟨_, ⟨off.toNat, ⟨hsize off, by simpa using hp⟩, rfl⟩, ?_⟩
    simp only [point, OffsetRange.holds, BitVec.toNat_ofNat, BitVec.toNat_setWidth, Bool.and_eq_true, decide_eq_true_eq]
    omega

end Sys2Proof.Machine
end

