-- ==== Sys2Proof/Laws/Exec.lean ====
section
/-! SUPPORT. The shape the six meanings share, and from it everything an instruction can do: complete, fault, be
refused; one inversion lemma for each encoding; and that all other fields stay. -/

namespace Sys2Proof.Machine

theorem execLegacyXmm_eq_next {f : LegacyForm} {s t : State} :
    execLegacyXmm f s = .next t ↔
      ∃ m a r, (s.modelledMode = some m ∧ udLegacy s = false ∧ s.cr0TS = false) ∧ legacyMatrix m f s = .next a ∧
        nextRip m f.len s = some r ∧
        t = (s.writeZmm (vreg16 f.dest) (legacyResult (s.readZmm (vreg16 f.dest))
          (affineInvVec 2 (s.readZmm (vreg16 f.dest)) a.1 f.imm))).advance r a.2 := by
  simp only [execLegacyXmm, andThen_eq_next, prologue_eq_next, finish_eq_next]
  constructor
  · rintro ⟨m, hm, a, ha, r, hr, ht⟩; exact ⟨m, a, r, hm, ha, hr, ht⟩
  · rintro ⟨m, a, r, hm, ha, hr, ht⟩; exact ⟨m, hm, a, ha, r, hr, ht⟩

theorem execVex_eq_next {vl : Vl} {f : VexForm} {s t : State} :
    execVex vl f s = .next t ↔
      ∃ m a r, (s.modelledMode = some m ∧ udVex s = false ∧ s.cr0TS = false) ∧ vexMatrix m vl f s = .next a ∧
        nextRip m f.len s = some r ∧
        t = (s.writeZmm (vreg16 f.dest)
          (affineInvVec vl.kl (s.readZmm (vreg16 f.src1)) a.1 f.imm)).advance r a.2 := by
  simp only [execVex, andThen_eq_next, prologue_eq_next, finish_eq_next]
  constructor
  · rintro ⟨m, hm, a, ha, r, hr, ht⟩; exact ⟨m, a, r, hm, ha, hr, ht⟩
  · rintro ⟨m, a, r, hm, ha, hr, ht⟩; exact ⟨m, hm, a, ha, r, hr, ht⟩

theorem execEvex_eq_next {vl : Vl} {f : EvexForm} {s t : State} :
    execEvex vl f s = .next t ↔
      ∃ m a r, (s.modelledMode = some m ∧ udEvex (evexFlag vl s.cfg) s = false ∧ s.cr0TS = false) ∧
        evexMatrix m vl f s = .next a ∧ nextRip m f.len s = some r ∧
        t = (s.writeZmm f.dest (evexResult vl s f.mask (s.readZmm f.dest)
          (affineInvVec vl.kl (s.readZmm f.src1) a.1 f.imm))).advance r a.2 := by
  simp only [execEvex, andThen_eq_next, prologue_eq_next, finish_eq_next]
  constructor
  · rintro ⟨m, hm, a, ha, r, hr, ht⟩; exact ⟨m, a, r, hm, ha, hr, ht⟩
  · rintro ⟨m, a, r, hm, ha, hr, ht⟩; exact ⟨m, hm, a, ha, r, hr, ht⟩

/-- Writing a vector register and advancing leaves everything else alone (R120). -/
theorem onlyDestChanged_write (s : State) (d : VReg) (v : Vec) (r : Qword) (n : Nat) :
    OnlyDestChanged d s ((s.writeZmm d v).advance r n) where
  zmm := fun e he => by rw [readZmm_advance, readZmm_writeZmm_ne _ _ _ _ he]
  k := fun _ => rfl
  gpr := fun _ => rfl
  rflags := rfl
  mxcsr := rfl
  segs := rfl
  cr0 := rfl
  cr2 := rfl
  cr4 := rfl
  xcr0 := rfl
  efer := rfl
  cfg := rfl
  mode := rfl
  cpl := rfl
  translation := rfl
  memBytes := fun _ => rfl
  mem := rfl
  text := rfl

/-- Byte `n` of what the legacy form leaves (R22). -/
theorem byteAt_legacyResult (old r : Vec) (n : Nat) (hn : n < 64) :
    byteAt (legacyResult old r) n = if n < 16 then byteAt r n else byteAt old n :=
  piece_assemble 512 8 _ _ n hn (by omega)

theorem vl_kl_le (vl : Vl) : vl.kl ≤ 8 := by cases vl <;> decide

theorem vl_bytes_le (vl : Vl) : vl.bytes ≤ 64 := by cases vl <;> decide

/-- Byte `n` of what an EVEX form leaves (R117). -/
theorem byteAt_evexResult (vl : Vl) (s : State) (mask : Masking) (old r : Vec) (n : Nat) (hn : n < vl.bytes) :
    byteAt (evexResult vl s mask old r) n =
      if selected s mask n then byteAt r n else unselectedByte mask (byteAt old n) :=
  piece_assemble 512 8 _ _ n hn (by have := vl_bytes_le vl; omega)

theorem byteAt_evexResult_of_le (vl : Vl) (s : State) (mask : Masking) (old r : Vec) (n : Nat) (hn : vl.bytes ≤ n) :
    byteAt (evexResult vl s mask old r) n = 0#8 :=
  piece_assemble_of_le 512 8 _ _ n hn

/-- The bits from VL up of the vector function's value are 0. -/
theorem zeroFrom_affineInvVec (vl : Vl) (x a : Vec) (imm : Byte) :
    ZeroFrom (64 * vl.kl) (affineInvVec vl.kl x a imm) := by
  intro i hi
  rw [getLsbD_eq_byteAt, byteAt_affineInvVec_of_le _ _ _ _ _ (by omega)]
  simp

/-- The bits from VL up of an EVEX form's value are 0 (R114). -/
theorem zeroFrom_evexResult (vl : Vl) (s : State) (mask : Masking) (old r : Vec) :
    ZeroFrom (64 * vl.kl) (evexResult vl s mask old r) := by
  intro i hi
  rw [getLsbD_eq_byteAt, byteAt_evexResult_of_le _ _ _ _ _ _ (by simp only [Vl.bytes]; omega)]
  simp

/-- The bits from 128 up of the legacy form's value are the old ones (R22). -/
theorem keepsFrom_legacyResult (old r : Vec) : KeepsFrom 128 old (legacyResult old r) := by
  intro i hi
  by_cases h : i < 512
  · rw [getLsbD_eq_byteAt, byteAt_legacyResult _ _ _ (by omega), if_neg (by omega), ← getLsbD_eq_byteAt]
  · rw [BitVec.getLsbD_of_ge _ _ (by omega), BitVec.getLsbD_of_ge _ _ (by omega)]

/-! ## The shape the six meanings share -/

/-- The #UD condition of an instruction, as its meaning tests it. -/
def udOf (s : State) : Instr → Bool
  | .legacyXmm _ => udLegacy s
  | .vexXmm _ => udVex s
  | .vexYmm _ => udVex s
  | .evexXmm _ => udEvex (evexFlag .v128 s.cfg) s
  | .evexYmm _ => udEvex (evexFlag .v256 s.cfg) s
  | .evexZmm _ => udEvex (evexFlag .v512 s.cfg) s

/-- The matrix operand of an instruction. -/
def matrixOf (m : Mode) (s : State) : Instr → Res (Vec × Nat)
  | .legacyXmm f => legacyMatrix m f s
  | .vexXmm f => vexMatrix m .v128 f s
  | .vexYmm f => vexMatrix m .v256 f s
  | .evexXmm f => evexMatrix m .v128 f s
  | .evexYmm f => evexMatrix m .v256 f s
  | .evexZmm f => evexMatrix m .v512 f s

/-- What an EVEX form writes, for a matrix operand. -/
def evexValue (vl : Vl) (s : State) (f : EvexForm) (a : Vec) : Vec :=
  evexResult vl s f.mask (s.readZmm f.dest) (affineInvVec vl.kl (s.readZmm f.src1) a f.imm)

/-- What an instruction writes to its destination, for a matrix operand. -/
def resultOf (s : State) (a : Vec) : Instr → Vec
  | .legacyXmm f =>
    legacyResult (s.readZmm (vreg16 f.dest)) (affineInvVec 2 (s.readZmm (vreg16 f.dest)) a f.imm)
  | .vexXmm f => affineInvVec Vl.v128.kl (s.readZmm (vreg16 f.src1)) a f.imm
  | .vexYmm f => affineInvVec Vl.v256.kl (s.readZmm (vreg16 f.src1)) a f.imm
  | .evexXmm f => evexValue .v128 s f a
  | .evexYmm f => evexValue .v256 s f a
  | .evexZmm f => evexValue .v512 s f a

/-- Every instruction is its checks, its matrix operand and its completion, in this order (R119). -/
theorem exec_eq (i : Instr) (s : State) :
    exec i s = andThen (prologue (udOf s i) s) fun m =>
      andThen (matrixOf m s i) fun a => finish m i.len (destOf i) (resultOf s a.1 i) a.2 s := by
  cases i <;> rfl

/-- Everything an instruction does when it completes. -/
theorem exec_eq_next {i : Instr} {s t : State} :
    exec i s = .next t ↔
      ∃ m a r, (s.modelledMode = some m ∧ udOf s i = false ∧ s.cr0TS = false) ∧ matrixOf m s i = .next a ∧
        nextRip m i.len s = some r ∧ t = (s.writeZmm (destOf i) (resultOf s a.1 i)).advance r a.2 := by
  rw [exec_eq]
  simp only [andThen_eq_next, prologue_eq_next, finish_eq_next]
  constructor
  · rintro ⟨m, hm, a, ha, r, hr, ht⟩; exact ⟨m, a, r, hm, ha, hr, ht⟩
  · rintro ⟨m, a, r, hm, ha, hr, ht⟩; exact ⟨m, hm, a, ha, r, hr, ht⟩

/-- Every fault is one of the checks' or one of the matrix operand's (R119). -/
theorem exec_eq_fault {i : Instr} {s : State} {e : Fault} :
    exec i s = .fault e ↔
      prologue (udOf s i) s = .fault e ∨
      ∃ m, prologue (udOf s i) s = .next m ∧ matrixOf m s i = .fault e := by
  rw [exec_eq]
  simp only [andThen_eq_fault, finish_ne_fault, and_false, exists_false, or_false]

/-- The #UD condition of R144 is the one the meaning tests. -/
theorem udOf_iff {s : State} {i : Instr} : udOf s i = true ↔ UdCondition s i := by
  cases i <;>
    simp only [udOf, UdCondition, udLegacy, udVex, udEvex, evexFlag, State.xcr0Avx, State.xcr0Avx512,
      Bool.or_eq_true, Bool.not_eq_true', beq_eq_false_iff_ne, ne_eq, or_assoc]

/-- With a register operand the matrices come from a register, and nothing of memory or privilege plays a part. -/
theorem matrixOf_of_register {m : Mode} {s : State} {i : Instr} (h : memOperandOf m s i = none) :
    ∃ r : VReg, matrixOf m s i = .next (s.readZmm r, s.draws) := by
  cases i with
  | legacyXmm f => cases hs : f.src2 <;> simp_all [memOperandOf, matrixOf, legacyMatrix]
  | vexXmm f => cases hs : f.src2 <;> simp_all [memOperandOf, matrixOf, vexMatrix]
  | vexYmm f => cases hs : f.src2 <;> simp_all [memOperandOf, matrixOf, vexMatrix]
  | evexXmm f => cases hs : f.src2 <;> simp_all [memOperandOf, matrixOf, evexMatrix]
  | evexYmm f => cases hs : f.src2 <;> simp_all [memOperandOf, matrixOf, evexMatrix]
  | evexZmm f => cases hs : f.src2 <;> simp_all [memOperandOf, matrixOf, evexMatrix]

/-- With an aligned memory operand the matrix operand is the memory read, spread by the instruction (R118). -/
theorem matrixOf_of_memory {m : Mode} {s : State} {i : Instr} {g : Seg} {ea : Qword} {n : Nat}
    (h : memOperandOf m s i = some (g, ea, n)) (ha : OperandAligned m s g ea i) :
    n ≤ 64 ∧ ∃ spread : Vec → Vec, matrixOf m s i = andThen (memRead m s g ea n) fun r => .next (spread r.1, r.2) := by
  have id_spread : ∀ r : Res (Vec × Nat), r = andThen r fun r => .next (id r.1, r.2) := fun r => by cases r <;> rfl
  cases i with
  | legacyXmm f =>
    cases hs : f.src2 <;> simp only [memOperandOf, hs, reduceCtorEq, Option.some.injEq, Prod.mk.injEq] at h
    obtain ⟨rfl, rfl, rfl⟩ := h
    refine ⟨by decide, id, ?_⟩
    rw [← id_spread, matrixOf, legacyMatrix_mem hs, if_pos (show aligned16 _ _ _ _ = true from beq_iff_eq.mpr ha)]
  | vexXmm f =>
    cases hs : f.src2 <;> simp only [memOperandOf, hs, reduceCtorEq, Option.some.injEq, Prod.mk.injEq] at h
    obtain ⟨rfl, rfl, rfl⟩ := h
    exact ⟨by decide, id, by rw [← id_spread, matrixOf, vexMatrix_mem hs]; rfl⟩
  | vexYmm f =>
    cases hs : f.src2 <;> simp only [memOperandOf, hs, reduceCtorEq, Option.some.injEq, Prod.mk.injEq] at h
    obtain ⟨rfl, rfl, rfl⟩ := h
    exact ⟨by decide, id, by rw [← id_spread, matrixOf, vexMatrix_mem hs]; rfl⟩
  | evexXmm f =>
    cases hs : f.src2 <;> simp only [memOperandOf, hs, reduceCtorEq, Option.some.injEq, Prod.mk.injEq] at h <;>
      obtain ⟨rfl, rfl, rfl⟩ := h
    · exact ⟨by decide, id, by rw [← id_spread, matrixOf, evexMatrix_mem hs]; rfl⟩
    · exact ⟨by decide, fun v => assemble 512 64 (fun _ => qwordAt v 0) Vl.v128.kl, by rw [matrixOf, evexMatrix_bcst hs]⟩
  | evexYmm f =>
    cases hs : f.src2 <;> simp only [memOperandOf, hs, reduceCtorEq, Option.some.injEq, Prod.mk.injEq] at h <;>
      obtain ⟨rfl, rfl, rfl⟩ := h
    · exact ⟨by decide, id, by rw [← id_spread, matrixOf, evexMatrix_mem hs]; rfl⟩
    · exact ⟨by decide, fun v => assemble 512 64 (fun _ => qwordAt v 0) Vl.v256.kl, by rw [matrixOf, evexMatrix_bcst hs]⟩
  | evexZmm f =>
    cases hs : f.src2 <;> simp only [memOperandOf, hs, reduceCtorEq, Option.some.injEq, Prod.mk.injEq] at h <;>
      obtain ⟨rfl, rfl, rfl⟩ := h
    · exact ⟨by decide, id, by rw [← id_spread, matrixOf, evexMatrix_mem hs]; rfl⟩
    · exact ⟨by decide, fun v => assemble 512 64 (fun _ => qwordAt v 0) Vl.v512.kl, by rw [matrixOf, evexMatrix_bcst hs]⟩

/-- Where nothing of R144 and R145 holds, the checks before an instruction pass. -/
theorem prologue_of_enabled {s : State} {i : Instr} {m : Mode} (hm : s.modelledMode = some m) (he : Enabled s i) :
    prologue (udOf s i) s = .next m :=
  prologue_eq_next.mpr ⟨hm, by simpa using mt udOf_iff.mp he.1, he.2⟩

/-- The matrix operand faults on its alignment, tested first, or in the memory read (R149). -/
theorem matrixOf_eq_fault {m : Mode} {s : State} {i : Instr} {e : Fault} (h : matrixOf m s i = .fault e) :
    ∃ g ea n, memOperandOf m s i = some (g, ea, n) ∧
      (¬ OperandAligned m s g ea i ∧ e = .gp ∨ OperandAligned m s g ea i ∧ memRead m s g ea n = .fault e) := by
  cases hmo : memOperandOf m s i with
  | none => obtain ⟨r, hr⟩ := matrixOf_of_register hmo; simp [hr] at h
  | some p =>
    obtain ⟨g, ea, n⟩ := p
    refine ⟨g, ea, n, rfl, ?_⟩
    by_cases ha : OperandAligned m s g ea i
    · obtain ⟨-, spread, hs⟩ := matrixOf_of_memory hmo ha
      rw [hs] at h
      rcases andThen_eq_fault.mp h with h | ⟨a, -, h⟩
      · exact .inr ⟨ha, h⟩
      · simp at h
    · refine .inl ⟨ha, ?_⟩
      cases i <;> simp only [OperandAligned, not_true_eq_false] at ha
      rename_i f
      cases hs : f.src2 <;> simp only [memOperandOf, hs, reduceCtorEq, Option.some.injEq, Prod.mk.injEq] at hmo
      obtain ⟨rfl, rfl, rfl⟩ := hmo
      rw [matrixOf, legacyMatrix_mem hs, if_neg (by simpa [aligned16] using ha)] at h
      simpa [raise, eq_comm] using h

end Sys2Proof.Machine
end

