-- ==== Sys2Proof/Laws/Memory.lean ====
section
/-! SUPPORT. Every memory operation keeps the canonical form; a read after a write gives the byte written, and every
other address reads as before. -/

namespace Sys2Proof.Machine

theorem mem_insertCell {a : Nat} {b : Byte} {m : List Host.Cell} {c : Host.Cell} (h : c ∈ insertCell a b m) :
    c = (a, b) ∨ c ∈ m := by
  induction m with
  | nil => simpa [insertCell] using h
  | cons d rest ih =>
    obtain ⟨x, y⟩ := d
    simp only [insertCell] at h
    split at h
    · simpa using h
    · split at h
      · rcases List.mem_cons.mp h with h | h
        · exact .inl h
        · exact .inr (List.mem_cons_of_mem _ h)
      · rcases List.mem_cons.mp h with h | h
        · exact .inr (h ▸ List.mem_cons_self)
        · exact (ih h).imp_right (List.mem_cons_of_mem _)

theorem rising_insertCell {a : Nat} {b : Byte} {m : List Host.Cell} (h : rising m) : rising (insertCell a b m) := by
  induction m with
  | nil => simp [insertCell, rising]
  | cons d rest ih =>
    obtain ⟨x, y⟩ := d
    obtain ⟨hx, hrest⟩ := List.pairwise_cons.mp h
    simp only [insertCell]
    split
    case isTrue hlt =>
      refine List.pairwise_cons.mpr ⟨fun c hc => ?_, h⟩
      rcases List.mem_cons.mp hc with rfl | hc
      · exact hlt
      · exact Nat.lt_trans hlt (hx c hc)
    case isFalse hge =>
      split
      case isTrue heq => exact List.pairwise_cons.mpr ⟨fun c hc => heq ▸ hx c hc, hrest⟩
      case isFalse hne =>
        refine List.pairwise_cons.mpr ⟨fun c hc => ?_, ih hrest⟩
        rcases mem_insertCell hc with rfl | hc
        · show x < a
          omega
        · exact hx c hc

theorem rising_eraseCell {a : Nat} {m : List Host.Cell} (h : rising m) : rising (eraseCell a m) := h.filter _

/-- A write keeps the canonical form of data memory. -/
theorem write_keeps_wf {m : Memory} (a : Nat) (b : Byte) (h : m.wf) : (m.write a b).wf := by
  unfold Memory.write
  split
  · exact ⟨rising_eraseCell h.1, fun c hc => h.2 c (List.mem_of_mem_filter hc)⟩
  case isFalse hb =>
    refine ⟨rising_insertCell h.1, fun c hc => ?_⟩
    rcases mem_insertCell hc with rfl | hc
    · exact hb
    · exact h.2 c hc

/-- Placing a byte keeps the canonical form of the program text. -/
theorem place_keeps_wf {t : ProgramText} (a : Nat) (b : Byte) (h : t.wf) : (t.place a b).wf := rising_insertCell h

theorem findCell_insertCell (a : Nat) (b : Byte) (m : List Host.Cell) : findCell a (insertCell a b m) = some b := by
  induction m with
  | nil => simp [insertCell, findCell]
  | cons d rest ih =>
    obtain ⟨x, y⟩ := d
    simp only [insertCell]
    split
    · simp [findCell]
    · split
      · simp [findCell]
      case isFalse hne => simp [findCell, Ne.symm hne, ih]

theorem findCell_insertCell_ne {a a' : Nat} (b : Byte) (m : List Host.Cell) (h : a' ≠ a) :
    findCell a' (insertCell a b m) = findCell a' m := by
  induction m with
  | nil => simp [insertCell, findCell, h.symm]
  | cons d rest ih =>
    obtain ⟨x, y⟩ := d
    simp only [insertCell]
    split
    · simp [findCell, h.symm]
    · split
      case isTrue heq => subst heq; simp [findCell, h.symm]
      · simp [findCell, ih]

theorem findCell_eraseCell (a : Nat) (m : List Host.Cell) : findCell a (eraseCell a m) = none := by
  induction m with
  | nil => rfl
  | cons d rest ih =>
    obtain ⟨x, y⟩ := d
    by_cases hx : x = a
    · simpa [eraseCell, hx] using ih
    · have : eraseCell a ((x, y) :: rest) = (x, y) :: eraseCell a rest := by simp [eraseCell, hx]
      simp [this, findCell, hx, ih]

theorem findCell_eraseCell_ne {a a' : Nat} (m : List Host.Cell) (h : a' ≠ a) :
    findCell a' (eraseCell a m) = findCell a' m := by
  induction m with
  | nil => rfl
  | cons d rest ih =>
    obtain ⟨x, y⟩ := d
    by_cases hx : x = a
    · have : eraseCell a ((x, y) :: rest) = eraseCell a rest := by simp [eraseCell, hx]
      rw [this, ih, findCell, if_neg (by rw [hx]; exact h.symm)]
    · have : eraseCell a ((x, y) :: rest) = (x, y) :: eraseCell a rest := by simp [eraseCell, hx]
      simp [this, findCell, ih]

/-- A byte reads as what was last written there. -/
theorem read_write (m : Memory) (a : Nat) (b : Byte) : (m.write a b).read a = b := by
  unfold Memory.write Memory.read
  split
  case isTrue h => rw [findCell_eraseCell]; exact h.symm
  case isFalse h => rw [findCell_insertCell]; rfl

/-- A write leaves every other byte as it was. -/
theorem read_write_ne (m : Memory) {a a' : Nat} (b : Byte) (h : a' ≠ a) : (m.write a b).read a' = m.read a' := by
  unfold Memory.write Memory.read
  split
  · rw [findCell_eraseCell_ne m h]
  · rw [findCell_insertCell_ne b m h]

/-- The text reads as what was placed. -/
theorem read_place (t : ProgramText) (a : Nat) (b : Byte) : (t.place a b).read a = some b := findCell_insertCell a b t

/-- Placing a byte leaves the rest of the text as it was. -/
theorem read_place_ne (t : ProgramText) {a a' : Nat} (b : Byte) (h : a' ≠ a) :
    (t.place a b).read a' = t.read a' := findCell_insertCell_ne b t h

end Sys2Proof.Machine
end

