-- ==== Sys2Proof/Laws/Step.lean ====
section
/-! SUPPORT. What a step can do, said once; fetching; and that placing a program keeps the text in canonical form. -/

namespace Sys2Proof.Machine

/-- A step that completes ran an instruction that the bytes at `rip` spell. -/
theorem step_eq_next {s t : State} :
    step s = .next t ↔
      ∃ m i, s.modelledMode = some m ∧ decode m (fetch m s) = .ok i ∧ exec i s = .next t := by
  unfold step
  cases hm : s.modelledMode with
  | none => simp
  | some m =>
    cases hd : decode m (fetch m s) with
    | ok i => simp [hd]
    | error r => cases r <;> simp [hd, rejected, raise]

/-- In a mode of the spec a step is what the decoder's answer says. -/
theorem step_of_decode {s : State} {m : Mode} (hm : s.modelledMode = some m) :
    step s = match decode m (fetch m s) with
      | .ok i => exec i s
      | .error r => rejected r := by
  cases h : decode m (fetch m s) <;> simp [step, hm, h]

/-- Fetching at most `n` bytes of a text that holds `bs` gives `bs` and what follows it, cut off at `n`. -/
theorem fetchFrom_of_holds (m : Mode) (t : ProgramText) (bs : List Byte) (n : Nat) (a : Qword)
    (h : ∀ k (hk : k < bs.length), t.read (wrapAddr m (a + BitVec.ofNat 64 k)).toNat = some bs[k]) :
    fetchFrom m t n a = bs.take n ++ fetchFrom m t (n - bs.length) (a + BitVec.ofNat 64 bs.length) := by
  induction bs generalizing n a with
  | nil => simp
  | cons b bs ih =>
    cases n with
    | zero => simp [fetchFrom]
    | succ n =>
      have h0 := h 0 (by simp)
      simp only [BitVec.add_zero, List.getElem_cons_zero] at h0
      have h1 : ∀ k, a + 1#64 + BitVec.ofNat 64 k = a + BitVec.ofNat 64 (k + 1) := fun k => by
        rw [BitVec.add_assoc, ← BitVec.ofNat_add, Nat.add_comm 1 k]
      have := ih n (a + 1#64) fun k hk => by
        rw [h1]
        exact h (k + 1) (Nat.succ_lt_succ hk)
      simp only [fetchFrom, h0, this, h1, List.length_cons, List.take_succ_cons, List.cons_append,
        Nat.add_sub_add_right]

/-- The bytes fetched where the text holds `bs` begin with `bs`, cut off at the longest instruction. -/
theorem fetch_of_holds {m : Mode} {s : State} {bs : List Byte} (h : HoldsText m s bs) :
    ∃ tail, fetch m s = bs.take maxLength ++ tail := ⟨_, fetchFrom_of_holds m s.text bs maxLength s.rip h⟩

/-- Where the text holds at most 15 bytes that the decoder rejects whatever follows, the step is what that rejection
does. -/
theorem step_of_rejected {s : State} {m : Mode} {bs : List Byte} {r : Reject} (hm : s.modelledMode = some m)
    (hl : bs.length ≤ maxLength) (h : HoldsText m s bs)
    (hd : ∀ rest, decodeWindow m (bs ++ rest) = some (.error r)) : step s = rejected r := by
  obtain ⟨tail, ht⟩ := fetch_of_holds h
  have := decode_of_window (tail := tail) hl hd
  rw [List.take_of_length_le hl] at ht
  rw [step_of_decode hm, ht, this]

theorem placeFrom_keeps_wf (m : Mode) (a : Qword) (bs : List Byte) {t : ProgramText} (h : t.wf) :
    (placeFrom m a bs t).wf := by
  induction bs generalizing a t with
  | nil => exact h
  | cons b bs ih => exact ih _ (place_keeps_wf _ _ h)

/-- Loading a program keeps the text in canonical form. -/
theorem loadProgram_keeps_wf (s : State) (bs : List Byte) (h : s.text.wf) : (s.loadProgram bs).text.wf := by
  unfold State.loadProgram
  split <;> exact placeFrom_keeps_wf _ _ _ h

/-- Addresses less than 2^32 apart do not fall together in either mode. -/
theorem wrapAddr_ne (m : Mode) (a : Qword) {k : Nat} (h0 : 0 < k) (hk : k < 2 ^ 32) :
    (wrapAddr m a).toNat ≠ (wrapAddr m (a + BitVec.ofNat 64 k)).toNat := by
  have := a.isLt
  cases m <;> simp only [wrapAddr, BitVec.toNat_setWidth, BitVec.toNat_add, BitVec.toNat_ofNat] <;> omega

/-- Placing bytes leaves the text at other addresses as it was. -/
theorem read_placeFrom_ne (m : Mode) (bs : List Byte) (a : Qword) (t : ProgramText) {x : Nat}
    (h : ∀ k < bs.length, x ≠ (wrapAddr m (a + BitVec.ofNat 64 k)).toNat) : (placeFrom m a bs t).read x = t.read x := by
  induction bs generalizing a t with
  | nil => rfl
  | cons b bs ih =>
    rw [placeFrom, ih, read_place_ne]
    · simpa using h 0 (by simp)
    · intro k hk
      rw [BitVec.add_assoc, show 1#64 + BitVec.ofNat 64 k = BitVec.ofNat 64 (k + 1) by
        rw [← BitVec.ofNat_add, Nat.add_comm 1 k]]
      exact h (k + 1) (Nat.succ_lt_succ hk)

/-- The text after bytes were placed holds them. -/
theorem read_placeFrom (m : Mode) (bs : List Byte) (a : Qword) (t : ProgramText) (hl : bs.length ≤ 2 ^ 32) {k : Nat}
    (hk : k < bs.length) : (placeFrom m a bs t).read (wrapAddr m (a + BitVec.ofNat 64 k)).toNat = some bs[k] := by
  induction bs generalizing a t k with
  | nil => simp at hk
  | cons b bs ih =>
    simp only [List.length_cons] at hl hk
    have next : ∀ j, a + 1#64 + BitVec.ofNat 64 j = a + BitVec.ofNat 64 (j + 1) := fun j => by
      rw [BitVec.add_assoc, ← BitVec.ofNat_add, Nat.add_comm 1 j]
    cases k with
    | zero =>
      rw [BitVec.add_zero, placeFrom, read_placeFrom_ne, read_place, List.getElem_cons_zero]
      intro j hj
      rw [next]
      exact wrapAddr_ne m a (Nat.succ_pos j) (by omega)
    | succ k =>
      have := ih (a + 1#64) (t.place (wrapAddr m a).toNat b) (by omega) (k := k) (by omega)
      rwa [next] at this

/-- A program that was loaded in a mode of the spec stands at `rip`. -/
theorem holdsText_loadProgram {m : Mode} {s : State} (hm : s.modelledMode = some m) (bs : List Byte)
    (hl : bs.length ≤ 2 ^ 32) : HoldsText m (s.loadProgram bs) bs := by
  intro k hk
  rw [State.loadProgram, hm]
  exact read_placeFrom m bs s.rip s.text hl hk

/-- Where bytes stand at `rip`, so do those they begin with. -/
theorem HoldsText.take {m : Mode} {s : State} {bs : List Byte} (h : HoldsText m s bs) (n : Nat) :
    HoldsText m s (bs.take n) := fun k hk => by
  rw [List.getElem_take]
  exact h k (by simp only [List.length_take] at hk; omega)

end Sys2Proof.Machine
end

