-- ==== Sys2Proof/Laws/Window.lean ====
section
/-! SUPPORT. What the decoder answers on the fixed bytes of each encoding, whatever the prefixes before them and the
operand bytes after them, said once for each encoding; and that an instruction that lacks its end is none yet. -/

namespace Sys2Proof

/-! ## Prefixes -/

/-- No allowed prefix of a VEX or EVEX form raises #UD or asks for 16-bit addressing. -/
theorem okVex_allowed {m : Mode} {pfx : List Prefix} (h : pfx.all (Prefix.okVex m) = true) :
    (∀ p ∈ pfx, p.existsIn m) ∧ pfx.any Prefix.badBeforeVex = false ∧ (m = .mode32 → .addrSize ∉ pfx) := by
  have h := List.all_eq_true.mp h
  refine ⟨fun p hp => existsIn_of_okVex (h p hp), List.any_eq_false.mpr fun p hp => ?_, ?_⟩
  · have := h p hp
    cases p <;> simp_all [Prefix.okVex, Prefix.badBeforeVex]
  · rintro rfl hp
    simpa [Prefix.okVex] using h _ hp

/-- No allowed prefix of the legacy form is F2, F3 or LOCK or asks for 16-bit addressing. -/
theorem okLegacy_allowed {m : Mode} {pfx : List Prefix} (h : pfx.all (Prefix.okLegacy m) = true) :
    (∀ p ∈ pfx, p.existsIn m) ∧ .rep ∉ pfx ∧ .repne ∉ pfx ∧ .lock ∉ pfx ∧ (m = .mode32 → .addrSize ∉ pfx) := by
  have h := List.all_eq_true.mp h
  refine ⟨fun p hp => existsIn_of_okLegacy (h p hp), fun hp => ?_, fun hp => ?_, fun hp => ?_, ?_⟩
  · simpa [Prefix.okLegacy] using h _ hp
  · simpa [Prefix.okLegacy] using h _ hp
  · simpa [Prefix.okLegacy] using h _ hp
  · rintro rfl hp
    simpa [Prefix.okLegacy] using h _ hp

theorem splitRex_none {pfx : List Prefix} (h : endsInRex pfx = false) : splitRex pfx = (pfx, none) := by
  rcases splitRex_cases pfx with ⟨b, -, h2⟩ | ⟨h1, -⟩
  · rw [h2] at h; simp [endsInRex] at h
  · exact h1

/-- Bytes that are all prefixes are no instruction yet. -/
theorem decodeWindow_prefixes {m : Mode} {pfx : List Prefix} (h : ∀ p ∈ pfx, p.existsIn m) {w : List Byte}
    (hw : w <+: pfx.map Prefix.byte) : decodeWindow m w = none := by
  rw [List.prefix_iff_eq_take, ← List.map_take] at hw
  rw [hw, decodeWindow, scanPrefixes_all fun p hp => h p (List.mem_of_mem_take hp)]

/-! ## The fixed bytes of the encodings -/

/-- The bytes V1 and V2 of a VEX form (R64, R65). -/
def vexFixed (l : Bool) (f : VexForm) : List Byte :=
  [BitVec.ofBool (!ext3 f.dest) ++ (BitVec.ofBool (!f.src2.xBit) ++ (BitVec.ofBool (!f.src2.bBit) ++ 3#5)),
   1#1 ++ (~~~f.src1 ++ (BitVec.ofBool l ++ 1#2)), 0xCF#8]

/-- The bytes P0, P1 and P2 of an EVEX form (R67, R68). -/
def evexFixed (ll : BitVec 2) (f : EvexForm) : List Byte :=
  [BitVec.ofBool (!ext3 f.dest) ++ (BitVec.ofBool (!f.src2.xBit) ++ (BitVec.ofBool (!f.src2.bBit) ++
     (BitVec.ofBool (!ext4 f.dest) ++ 3#4))),
   1#1 ++ (~~~(f.src1.extractLsb' 0 4) ++ 5#3),
   BitVec.ofBool f.mask.z ++ (ll ++ (BitVec.ofBool f.src2.bcstBit ++ (BitVec.ofBool (!ext4 f.src1) ++ f.mask.aaa))),
   0xCF#8]

/-- The prefixes of a legacy form with the REX byte that is in force. -/
def LegacyForm.allPrefixes (f : LegacyForm) : List Prefix :=
  f.pfx ++ match f.rexW with
    | none => []
    | some w => [.rex (BitVec.ofBool w ++ (BitVec.ofBool (ext3 f.dest) ++
        (BitVec.ofBool f.src2.xBit ++ BitVec.ofBool f.src2.bBit)))]

theorem encode_vex (l : Bool) (f : VexForm) :
    f.encode l = f.pfx.map Prefix.byte ++ 0xC4#8 :: (vexFixed l f ++ (f.src2.bytes (low3 f.dest) ++ [f.imm])) := by
  simp [VexForm.encode, vexFixed]

theorem encode_evex (ll : BitVec 2) (f : EvexForm) :
    f.encode ll = f.pfx.map Prefix.byte ++ 0x62#8 :: (evexFixed ll f ++ (f.src2.bytes (low3 f.dest) ++ [f.imm])) := by
  simp [EvexForm.encode, evexFixed]

theorem encode_legacy (f : LegacyForm) :
    f.encode = f.allPrefixes.map Prefix.byte ++
      0x0F#8 :: ([0x3A#8, 0xCF#8] ++ (f.src2.bytes (low3 f.dest) ++ [f.imm])) := by
  cases h : f.rexW <;> simp [LegacyForm.encode, LegacyForm.allPrefixes, h, Prefix.byte]

/-- A VEX form's fixed bytes after any prefixes, before any operand bytes. -/
theorem decodeVex_fixed {m : Mode} (l : Bool) {f : VexForm} {pfx : List Prefix} (he : m = .mode32 → f.noExt = true)
    (h67 : m = .mode32 → .addrSize ∉ pfx) (ops : List Byte) :
    decodeVex m pfx (vexFixed l f ++ ops) =
      (takeOperands f.src2.xBit f.src2.bBit ops).map fun p =>
        if pfx.any Prefix.badBeforeVex then .error .undefinedOpcode
        else .ok (
          let g : VexForm := { pfx := pfx, dest := BitVec.ofBool (ext3 f.dest) ++ p.1, src1 := f.src1,
                               src2 := p.2.1.toRm f.src2.xBit f.src2.bBit, imm := p.2.2 }
          if l then .vexYmm g else .vexXmm g) := by
  obtain ⟨v1, v2, v3, v4⟩ := vex1_bits (ext3 f.dest) f.src2.xBit f.src2.bBit
  obtain ⟨w1, w2, w3, w4⟩ := vex2_bits f.src1 l
  have n1 : ¬ (m = .mode32 ∧ (ext3 f.dest || f.src2.xBit || f.src2.bBit || f.src1.getLsbD 3) = true) := by
    rintro ⟨hm, h⟩
    have := he hm
    simp [VexForm.noExt] at this
    simp only [ext3] at this h
    simp [this] at h
  have n2 : ¬ (m = .mode32 ∧ pfx.contains .addrSize = true) := fun ⟨hm, h⟩ => h67 hm (by simpa using h)
  simp only [vexFixed, List.cons_append, List.nil_append, decodeVex, v1, w1, ne_eq, not_true_eq_false, or_self, if_false,
    w2, v2, v3, v4, w3, w4, Bool.not_not, n1, n2, Bool.true_eq_false]
  cases takeOperands f.src2.xBit f.src2.bBit ops with
  | none => rfl
  | some p => cases pfx.any Prefix.badBeforeVex <;> simp

theorem src1_low (r : VReg) : BitVec.ofBool (ext4 r) ++ r.extractLsb' 0 4 = r := by revert r; decide

theorem src1_ext (r : VReg) : (r.extractLsb' 0 4).getLsbD 3 = ext3 r := by revert r; decide

/-- An EVEX form's fixed bytes after any prefixes, before any operand bytes. -/
theorem decodeEvex_fixed {m : Mode} (ll : BitVec 2) {f : EvexForm} {pfx : List Prefix} (hk : f.mask.ok = true)
    (he : m = .mode32 → f.noExt = true) (h67 : m = .mode32 → .addrSize ∉ pfx) (ops : List Byte) :
    decodeEvex m pfx (evexFixed ll f ++ ops) =
      (takeOperands f.src2.xBit f.src2.bBit ops).map fun p =>
        if pfx.any Prefix.badBeforeVex then .error .undefinedOpcode
        else (p.2.1.toEvexRm f.src2.xBit f.src2.bBit f.src2.bcstBit).bind fun o =>
          evexRow ll { pfx := pfx, dest := BitVec.ofBool (ext4 f.dest) ++ (BitVec.ofBool (ext3 f.dest) ++ p.1),
                       src1 := f.src1, src2 := o, mask := f.mask, imm := p.2.2 } := by
  obtain ⟨v1, v2, v3, v4, v5, v6⟩ := evex0_bits (ext3 f.dest) f.src2.xBit f.src2.bBit (ext4 f.dest)
  obtain ⟨w1, w2, w3, w4⟩ := evex1_bits (f.src1.extractLsb' 0 4)
  obtain ⟨u1, u2, u3, u4, u5⟩ := evex2_bits f.mask.z f.src2.bcstBit (ext4 f.src1) ll f.mask.aaa
  have n1 : ¬ (m = .mode32 ∧ (ext3 f.dest || f.src2.xBit || f.src2.bBit || ext4 f.dest || ext4 f.src1 ||
      ext3 f.src1) = true) := by
    rintro ⟨hm, h⟩
    have := he hm
    simp [EvexForm.noExt] at this
    simp [this] at h
  have n2 : ¬ (m = .mode32 ∧ pfx.contains .addrSize = true) := fun ⟨hm, h⟩ => h67 hm (by simpa using h)
  have c : ¬ ((3#2 : BitVec 2) = 0#2) := by decide
  simp only [evexFixed, List.cons_append, List.nil_append, decodeEvex, v1, w1, ne_eq, not_true_eq_false, or_self,
    if_false, w2, v2, v3, v4, v5, v6, w3, w4, u1, u2, u3, u4, u5, Bool.not_not, src1_ext, src1_low, n1, n2,
    Bool.true_eq_false, and_false, false_and, c, or_false]
  cases takeOperands f.src2.xBit f.src2.bBit ops with
  | none => rfl
  | some p =>
    cases pfx.any Prefix.badBeforeVex <;> simp only [if_true, Bool.false_eq_true, if_false, Option.map_some]
    cases p.2.1.toEvexRm f.src2.xBit f.src2.bBit f.src2.bcstBit <;> simp [maskOf_of_ok hk, Except.bind]

/-- The legacy form's fixed bytes after prefixes that admit it but for LOCK, before any operand bytes. -/
theorem decodeLegacy_fixed {m : Mode} {pfx : List Prefix} (h66 : .opSize ∈ pfx) (hr : .rep ∉ pfx) (hn : .repne ∉ pfx)
    (h67 : m = .mode32 → .addrSize ∉ pfx) (ops : List Byte) :
    decodeLegacy m pfx (0x0F#8 :: ([0x3A#8, 0xCF#8] ++ ops)) =
      let rex := ((splitRex pfx).2).getD 0#4
      (takeOperands (rex.getLsbD 1) (rex.getLsbD 0) ops).map fun p =>
        if pfx.contains .lock then .error .undefinedOpcode
        else .ok (.legacyXmm
          { pfx := (splitRex pfx).1, rexW := (splitRex pfx).2.map fun r => r.getLsbD 3,
            dest := BitVec.ofBool (rex.getLsbD 2) ++ p.1, src2 := p.2.1.toRm (rex.getLsbD 1) (rex.getLsbD 0),
            imm := p.2.2 }) := by
  have a1 : (pfx.contains .repne || pfx.contains .rep) = false := by simp [hr, hn]
  have a2 : pfx.contains .opSize = true := by simpa using h66
  have n2 : ¬ (m = .mode32 ∧ pfx.contains .addrSize = true) := fun ⟨hm, h⟩ => h67 hm (by simpa using h)
  simp only [decodeLegacy, List.cons_append, List.nil_append, expect, if_true, a1, a2, Bool.false_eq_true, if_false,
    Bool.not_true, n2]
  cases takeOperands ((((splitRex pfx).2).getD 0#4).getLsbD 1) ((((splitRex pfx).2).getD 0#4).getLsbD 0) ops with
  | none => rfl
  | some p => cases pfx.contains .lock <;> simp

/-- What the prefixes of a legacy form say of its register bits (R63). -/
theorem splitRex_allPrefixes {m : Mode} {f : LegacyForm} (h : f.fieldsOk m = true) :
    let rex := ((splitRex f.allPrefixes).2).getD 0#4
    (splitRex f.allPrefixes).1 = f.pfx ∧ (splitRex f.allPrefixes).2.map (fun r => r.getLsbD 3) = f.rexW ∧
      rex.getLsbD 2 = ext3 f.dest ∧ rex.getLsbD 1 = f.src2.xBit ∧ rex.getLsbD 0 = f.src2.bBit := by
  simp only [LegacyForm.fieldsOk, Bool.and_eq_true] at h
  cases hw : f.rexW with
  | none =>
    simp only [hw, LegacyForm.noExt, Bool.and_eq_true, Bool.not_eq_true'] at h
    simp only [LegacyForm.allPrefixes, hw, List.append_nil, splitRex_none h.2.2]
    simp only [h.2.1.1.1, h.2.1.1.2, h.2.1.2, Option.getD_none, BitVec.getLsbD_zero, Option.map_none, and_self]
  | some w =>
    obtain ⟨r0, r1, r2, r3⟩ := rex_bits w (ext3 f.dest) f.src2.xBit f.src2.bBit
    simp only [LegacyForm.allPrefixes, hw, splitRex_append, Option.getD_some, Option.map_some, r0, r1, r2, r3, and_self]

/-! ## An instruction that lacks its end -/

/-- Bytes cut from a list in two parts are cut from the first, or are the first and bytes cut from the second. -/
theorem prefix_append_cases {α : Type} {w a b : List α} (h : w <+: a ++ b) :
    w <+: a ∨ ∃ c, w = a ++ c ∧ c <+: b := by
  rw [List.prefix_iff_eq_take] at h
  by_cases hn : w.length ≤ a.length
  · left
    rw [h, List.take_append_of_le_length hn]
    exact List.take_prefix _ _
  · refine .inr ⟨b.take (w.length - a.length), ?_, List.take_prefix _ _⟩
    conv_lhs => rw [h, List.take_append, List.take_of_length_le (by omega)]

theorem prefix_cons_cases {α : Type} {w b : List α} {a : α} (h : w <+: a :: b) : w = [] ∨ ∃ c, w = a :: c ∧ c <+: b := by
  cases w with
  | nil => exact .inl rfl
  | cons x w => rw [List.cons_prefix_cons] at h; exact .inr ⟨w, by rw [h.1], h.2⟩

/-- Operand bytes of the legacy and VEX forms that lack their end are not read. -/
theorem takeOperands_cutRm {o : Rm} (ho : o.ok = true) (reg : BitVec 3) (imm : Byte) {w : List Byte}
    (hw : w <+: o.bytes reg) : takeOperands o.xBit o.bBit w = none := by
  obtain ⟨rm, h1, h2⟩ := takeOperands_rm ho reg imm []
  obtain ⟨-, -, h4⟩ := bytes_of_takeOperands h1
  have := (toRm_spelt h4).2.2.2 reg
  rw [h2] at this
  rw [this] at hw h1
  exact takeOperands_cut h1 hw

theorem bytes_toEvexRm {x b c : Bool} {rm : RmField} {o : EvexRm} (h : rm.toEvexRm x b c = .ok o) (reg : BitVec 3) :
    o.bytes reg = rm.bytes reg := by
  cases rm with
  | reg r =>
    have low : ∀ (x b : Bool) (r : BitVec 3), low3 (BitVec.ofBool x ++ (BitVec.ofBool b ++ r)) = r := by decide
    cases c <;> simp only [RmField.toEvexRm, if_true, Bool.false_eq_true, if_false, reduceCtorEq, Except.ok.injEq] at h
    subst h
    simp only [EvexRm.bytes, RmField.bytes, low]
  | mem a => cases c <;> cases h <;> rfl

/-- Operand bytes of the EVEX forms that lack their end are not read. -/
theorem takeOperands_cutEvexRm {o : EvexRm} (ho : o.ok = true) (reg : BitVec 3) (imm : Byte) {w : List Byte}
    (hw : w <+: o.bytes reg) : takeOperands o.xBit o.bBit w = none := by
  obtain ⟨rm, h1, h2⟩ := takeOperands_evexRm ho reg imm []
  rw [bytes_toEvexRm h2 reg] at hw h1
  exact takeOperands_cut h1 hw

/-- Bytes cut from a list with a last element are all of it, or cut from what comes before. -/
theorem prefix_init {α : Type} {w a : List α} {x : α} (h : w <+: a ++ [x]) (hl : w.length < (a ++ [x]).length) :
    w <+: a := by
  rcases prefix_append_cases h with h | ⟨c, rfl, -⟩
  · exact h
  · cases c with
    | nil => simp
    | cons => simp at hl

theorem cut_legacy {m : Mode} {f : LegacyForm} (h : f.fieldsOk m = true) {w : List Byte} (hw : w <+: f.encode)
    (hl : w.length < f.encode.length) : decodeWindow m w = none := by
  have hs := splitRex_allPrefixes h
  simp only [LegacyForm.fieldsOk, Bool.and_eq_true] at h
  obtain ⟨⟨⟨hp, h66⟩, ho⟩, hr⟩ := h
  obtain ⟨he, hrep, hrepne, -, h67⟩ := okLegacy_allowed hp
  have he' : ∀ p ∈ f.allPrefixes, p.existsIn m := by
    intro p hp
    rcases List.mem_append.mp hp with hp | hp
    · exact he p hp
    · cases hw : f.rexW with
      | none => simp [hw] at hp
      | some w => exact fun _ _ => by simpa [hw] using hr
  have hmem : ∀ p, (∀ b, p ≠ Prefix.rex b) → (p ∈ f.allPrefixes ↔ p ∈ f.pfx) := by
    intro p hp
    cases hw : f.rexW <;> simp [LegacyForm.allPrefixes, hw, hp]
  rw [encode_legacy, ← List.cons_append, ← List.append_assoc, ← List.append_assoc] at hw hl
  have hw := prefix_init hw hl
  rw [List.append_assoc, List.cons_append] at hw
  rcases prefix_append_cases hw with hw | ⟨c0, rfl, h0⟩
  · exact decodeWindow_prefixes he' hw
  rcases prefix_cons_cases h0 with rfl | ⟨c1, rfl, h1⟩
  · rw [List.append_nil]; exact decodeWindow_prefixes he' (List.prefix_refl _)
  rw [decodeWindow_legacy he']
  rcases prefix_cons_cases h1 with rfl | ⟨c2, rfl, h2⟩
  · rfl
  rcases prefix_cons_cases h2 with rfl | ⟨c3, rfl, h3⟩
  · rfl
  have := decodeLegacy_fixed (m := m) ((hmem _ (by simp)).mpr (by simpa using h66)) (mt (hmem _ (by simp)).mp hrep)
    (mt (hmem _ (by simp)).mp hrepne) (fun hm => mt (hmem _ (by simp)).mp (h67 hm)) c3
  simp only [hs.2.2.2.1, hs.2.2.2.2] at this
  rw [takeOperands_cutRm ho _ f.imm h3] at this
  exact this

theorem cut_vex {m : Mode} {l : Bool} {f : VexForm} (h : f.fieldsOk m = true) {w : List Byte} (hw : w <+: f.encode l)
    (hl : w.length < (f.encode l).length) : decodeWindow m w = none := by
  simp only [VexForm.fieldsOk, Bool.and_eq_true, Bool.or_eq_true, beq_iff_eq] at h
  obtain ⟨⟨hp, ho⟩, hr⟩ := h
  obtain ⟨he, -, h67⟩ := okVex_allowed hp
  have hext : m = .mode32 → f.noExt = true := by rintro rfl; simpa using hr
  have hesc : m = .mode32 → ((BitVec.ofBool (!ext3 f.dest) ++ (BitVec.ofBool (!f.src2.xBit) ++
      (BitVec.ofBool (!f.src2.bBit) ++ 3#5)) : Byte)).extractLsb' 6 2 = 3#2 := by
    intro hm
    have := hext hm
    simp only [VexForm.noExt, Bool.and_eq_true, Bool.not_eq_true'] at this
    rw [this.1.1.1, this.1.2, this.2]; decide
  rw [encode_vex, ← List.append_assoc, ← List.cons_append, ← List.append_assoc] at hw hl
  have hw := prefix_init hw hl
  rcases prefix_append_cases hw with hw | ⟨c0, rfl, h0⟩
  · exact decodeWindow_prefixes he hw
  rcases prefix_cons_cases h0 with rfl | ⟨c1, rfl, h1⟩
  · rw [List.append_nil]; exact decodeWindow_prefixes he (List.prefix_refl _)
  rcases prefix_cons_cases h1 with rfl | ⟨c2, rfl, h2⟩
  · unfold decodeWindow; rw [scanPrefixes_map he (prefixOf_escape m).2.1]; rfl
  rw [decodeWindow_vex he hesc]
  rcases prefix_cons_cases h2 with rfl | ⟨c3, rfl, h3⟩
  · rfl
  rcases prefix_cons_cases h3 with rfl | ⟨c4, rfl, h4⟩
  · rfl
  have := decodeVex_fixed l hext h67 c4
  rw [takeOperands_cutRm ho _ f.imm h4] at this
  exact this

theorem cut_evex {m : Mode} {ll : BitVec 2} {f : EvexForm} (h : f.fieldsOk m = true) {w : List Byte}
    (hw : w <+: f.encode ll) (hl : w.length < (f.encode ll).length) : decodeWindow m w = none := by
  simp only [EvexForm.fieldsOk, Bool.and_eq_true, Bool.or_eq_true, beq_iff_eq] at h
  obtain ⟨⟨⟨hp, ho⟩, hk⟩, hr⟩ := h
  obtain ⟨he, -, h67⟩ := okVex_allowed hp
  have hext : m = .mode32 → f.noExt = true := by rintro rfl; simpa using hr
  have hesc : m = .mode32 → ((BitVec.ofBool (!ext3 f.dest) ++ (BitVec.ofBool (!f.src2.xBit) ++
      (BitVec.ofBool (!f.src2.bBit) ++ (BitVec.ofBool (!ext4 f.dest) ++ 3#4))) : Byte)).extractLsb' 6 2 = 3#2 := by
    intro hm
    have := hext hm
    simp only [EvexForm.noExt, Bool.and_eq_true, Bool.not_eq_true'] at this
    rw [this.1.1.1.1.1, this.1.1.1.1.2, this.1.2, this.2]; decide
  rw [encode_evex, ← List.append_assoc, ← List.cons_append, ← List.append_assoc] at hw hl
  have hw := prefix_init hw hl
  rcases prefix_append_cases hw with hw | ⟨c0, rfl, h0⟩
  · exact decodeWindow_prefixes he hw
  rcases prefix_cons_cases h0 with rfl | ⟨c1, rfl, h1⟩
  · rw [List.append_nil]; exact decodeWindow_prefixes he (List.prefix_refl _)
  rcases prefix_cons_cases h1 with rfl | ⟨c2, rfl, h2⟩
  · unfold decodeWindow; rw [scanPrefixes_map he (prefixOf_escape m).2.2]; rfl
  rw [decodeWindow_evex he hesc]
  rcases prefix_cons_cases h2 with rfl | ⟨c3, rfl, h3⟩
  · rfl
  rcases prefix_cons_cases h3 with rfl | ⟨c4, rfl, h4⟩
  · rfl
  rcases prefix_cons_cases h4 with rfl | ⟨c5, rfl, h5⟩
  · rfl
  have := decodeEvex_fixed ll hk hext h67 c5
  rw [takeOperands_cutEvexRm ho _ f.imm h5] at this
  exact this

/-- The bytes of an instruction without its end are no instruction yet. -/
theorem decodeWindow_cut {m : Mode} {i : Instr} (h : FieldsOk m i = true) {w : List Byte} (hw : w <+: encode i)
    (hl : w.length < (encode i).length) : decodeWindow m w = none := by
  cases i with
  | legacyXmm f => exact cut_legacy h hw hl
  | vexXmm f => exact cut_vex h hw hl
  | vexYmm f => exact cut_vex h hw hl
  | evexXmm f => exact cut_evex h hw hl
  | evexYmm f => exact cut_evex h hw hl
  | evexZmm f => exact cut_evex h hw hl

end Sys2Proof
end

