-- ==== Sys2Proof/Tests/Slice0.lean ====
section
/-! SUPPORT. Tests. Expected values are those of spec/95_test_vectors.md, named by their ids (V, E, P, T); bytes are
written in the order the spec prints them. A theorem `witness_<obligation>` shows a state and operands that meet the
hypotheses of that obligation together. -/

namespace Sys2Proof.Tests

-- One theorem after another: elaborated side by side, the many kernel evaluations of this file take several GB more.
set_option Elab.async false

open Sys2Proof.Machine

/-! ## Building states -/

/-- The `n` bytes of a number written in hexadecimal, the first one printed first. -/
def bytesOf (n w : Nat) : List Byte := (List.range n).map fun k => BitVec.ofNat 8 (w >>> (8 * (n - 1 - k)))

/-- The vector with these bytes, the first one printed being byte 0. -/
def vecOf (n w : Nat) : Vec := (bytesOf n w).foldr (fun b v => (v <<< 8) ||| b.setWidth 512) 0#512

/-- A launch state in `Mode64` at 0x401000, privilege level 3 (95_test_vectors.md section 5). -/
def ready : State := { State.reset.launch with rip := 0x401000#64, cpl := 3#2 }

/-- The same in `Mode32`. -/
def ready32 : State := { ready with mode := .running .mode32 }

def setGpr (s : State) (r : GReg) (v : Qword) : State := { s with gpr := s.gpr.set r.toNat v r.isLt }

def setK (s : State) (r : KReg) (v : Qword) : State := { s with k := s.k.set r.toNat v r.isLt }

/-- Bytes of data memory from an address on. -/
def setMem (s : State) (a n w : Nat) : State :=
  { s with mem := (bytesOf n w).zipIdx.foldl (fun m p => m.write (a + p.2) p.1) s.mem }

def isNext {α : Type} : Res α → Bool
  | .next _ => true
  | .fault _ => false
  | .refused _ => false

/-- A register after a step, and the program counter. -/
def after (r : VReg) : Res State → Option (Vec × Qword)
  | .next t => some (t.readZmm r, t.rip)
  | .fault _ => none
  | .refused _ => none

theorem exists_next {α : Type} {r : Res α} (h : isNext r = true) : ∃ t, r = .next t := by
  cases r with
  | next t => exact ⟨t, rfl⟩
  | fault f => simp [isNext] at h
  | refused f => simp [isNext] at h

theorem readable_of_read {m : Mode} {s : State} {g : Seg} {ea : Qword} {n : Nat}
    (h : isNext (memRead m s g ea n) = true) : Readable m s g ea n := by
  obtain ⟨v, hv⟩ := exists_next h
  exact (memRead_eq_next.mp hv).1

/-- On a processor with 512-bit registers no register is too wide. -/
theorem bounded_of_avx512f {s : State} (h : s.cfg.hasAvx512f = true) : VectorsBounded s := by
  intro r i hi
  simp only [Config.maxVl, h, if_true] at hi
  exact BitVec.getLsbD_of_ge _ _ hi

/-- Bytes loaded on a ready state stand at `rip`, and so do the first `n` of them. -/
theorem holds64 (bs : List Byte) (h : bs.length ≤ 2 ^ 32) : HoldsText .mode64 (ready.loadProgram bs) bs :=
  holdsText_loadProgram (by rfl) bs h

theorem holds32 (bs : List Byte) (h : bs.length ≤ 2 ^ 32) : HoldsText .mode32 (ready32.loadProgram bs) bs :=
  holdsText_loadProgram (by rfl) bs h

/-! ## WellFormed refuses -/

/-- Register-only forms, to be spoilt one field at a time. -/
def legacy0 : LegacyForm := { pfx := [.opSize], rexW := none, dest := 0#4, src2 := .reg 1#4 false, imm := 0x63#8 }

def vex0 : VexForm := { pfx := [], dest := 0#4, src1 := 1#4, src2 := .reg 2#4 false, imm := 0x63#8 }

def evex0 : EvexForm :=
  { pfx := [], dest := 0#5, src1 := 1#5, src2 := .reg 2#5, mask := .unmasked, imm := 0x63#8 }

theorem test_wellFormed_accepts :
    [Instr.legacyXmm legacy0, .vexXmm vex0, .vexYmm vex0, .evexXmm evex0, .evexYmm evex0, .evexZmm evex0].all
      (fun i => WellFormed .mode64 i && WellFormed .mode32 i) = true := by decide

/-- No 66; F2, F3, LOCK; 67 or REX in `Mode32`. -/
theorem test_wellFormed_legacy_prefixes :
    (legacy0.wellFormed .mode64 && !({ legacy0 with pfx := [] } : LegacyForm).wellFormed .mode64 &&
      [Prefix.repne, .rep, .lock].all (fun p => !({ legacy0 with pfx := [p, .opSize] } : LegacyForm).wellFormed .mode64) &&
      [Prefix.addrSize, .rex 0#4].all (fun p =>
        ({ legacy0 with pfx := [p, .opSize] } : LegacyForm).wellFormed .mode64 &&
        !({ legacy0 with pfx := [p, .opSize] } : LegacyForm).wellFormed .mode32)) = true := by decide

/-- A REX byte in force is not a stray one; extension bits need one; `Mode32` has none. -/
theorem test_wellFormed_rex :
    (!({ legacy0 with pfx := [.opSize, .rex 0#4] } : LegacyForm).wellFormed .mode64 &&
      !({ legacy0 with dest := 8#4 } : LegacyForm).wellFormed .mode64 &&
      !({ legacy0 with src2 := .reg 8#4 false } : LegacyForm).wellFormed .mode64 &&
      !({ legacy0 with src2 := .reg 1#4 true } : LegacyForm).wellFormed .mode64 &&
      ({ legacy0 with dest := 8#4, rexW := some false } : LegacyForm).wellFormed .mode64 &&
      !({ legacy0 with rexW := some false } : LegacyForm).wellFormed .mode32) = true := by decide

/-- Addresses that ModRM spells otherwise (R72, R74), in every form. -/
theorem test_wellFormed_addresses :
    [MemAddr.base 4#4 false (.d8 0#8), .base 12#4 false .none, .base 5#4 false .none, .base 13#4 false .none,
      .sib 5#4 0#4 .x1 .none, .sib 13#4 0#4 .x1 .none].all (fun a =>
        !({ legacy0 with src2 := .mem a, rexW := some false } : LegacyForm).wellFormed .mode64 &&
        !({ vex0 with src2 := .mem a } : VexForm).wellFormed .mode64 &&
        !({ evex0 with src2 := .mem a } : EvexForm).wellFormed .mode64 &&
        !({ evex0 with src2 := .bcst a } : EvexForm).wellFormed .mode64) = true := by decide

/-- Sixteen bytes are too many, fifteen are not (R60). -/
theorem test_wellFormed_length :
    (({ legacy0 with pfx := .opSize :: List.replicate 9 (.seg .ds) } : LegacyForm).wellFormed .mode64 &&
      !({ legacy0 with pfx := .opSize :: List.replicate 10 (.seg .ds) } : LegacyForm).wellFormed .mode64 &&
      ({ vex0 with pfx := List.replicate 9 (.seg .ds) } : VexForm).wellFormed .mode64 &&
      !({ vex0 with pfx := List.replicate 10 (.seg .ds) } : VexForm).wellFormed .mode64 &&
      ({ evex0 with pfx := List.replicate 8 (.seg .ds) } : EvexForm).wellFormed .mode64 &&
      !({ evex0 with pfx := List.replicate 9 (.seg .ds) } : EvexForm).wellFormed .mode64) = true := by decide

/-- 66, F2, F3, LOCK and REX before VEX and EVEX (R66); 67 in `Mode32` (R75). -/
theorem test_wellFormed_vex_prefixes :
    ([Prefix.opSize, .repne, .rep, .lock, .rex 0#4].all (fun p =>
        !({ vex0 with pfx := [p] } : VexForm).wellFormed .mode64 &&
        !({ evex0 with pfx := [p] } : EvexForm).wellFormed .mode64) &&
      !({ vex0 with pfx := [.addrSize] } : VexForm).wellFormed .mode32 &&
      !({ evex0 with pfx := [.addrSize] } : EvexForm).wellFormed .mode32) = true := by decide

/-- Each extension bit in `Mode32` (R73), and opmask number 0 as a writemask (R69). -/
theorem test_wellFormed_mode32_and_mask :
    ([{ vex0 with dest := 8#4 }, { vex0 with src1 := 8#4 }, { vex0 with src2 := .reg 8#4 false },
        ({ vex0 with src2 := .reg 0#4 true } : VexForm)].all (fun f => f.wellFormed .mode64 && !f.wellFormed .mode32) &&
      [{ evex0 with dest := 8#5 }, { evex0 with dest := 16#5 }, { evex0 with src1 := 8#5 }, { evex0 with src1 := 16#5 },
        { evex0 with src2 := .reg 8#5 }, ({ evex0 with src2 := .reg 16#5 } : EvexForm)].all
          (fun f => f.wellFormed .mode64 && !f.wellFormed .mode32) &&
      !({ evex0 with mask := .merging 0#3 } : EvexForm).wellFormed .mode64 &&
      !({ evex0 with mask := .zeroing 0#3 } : EvexForm).wellFormed .mode64) = true := by decide

/-! ## Decoding (95_test_vectors.md section 4) -/

/-- E2: `gf2p8affineinvqb xmm9, xmm10, 0x1f`. -/
theorem test_decode_legacy_rex :
    decode .mode64 (bytesOf 7 0x66450F3ACFCA1F) =
      .ok (.legacyXmm { pfx := [.opSize], rexW := some false, dest := 9#4, src2 := .reg 10#4 false, imm := 0x1F#8 }) := rfl

/-- E4: `gf2p8affineinvqb xmm3, [rbx+rcx*4+0x10], 7`. -/
theorem test_decode_legacy_sib :
    decode .mode64 (bytesOf 8 0x660F3ACF5C8B1007) =
      .ok (.legacyXmm { pfx := [.opSize], rexW := none, dest := 3#4,
                        src2 := .mem (.sib 3#4 1#4 .x4 (.d8 0x10#8)), imm := 7#8 }) := rfl

/-- E5: RIP-relative, `[rip+0x100]`. -/
theorem test_decode_legacy_rip :
    decode .mode64 (bytesOf 10 0x660F3ACF050001000063) =
      .ok (.legacyXmm { pfx := [.opSize], rexW := none, dest := 0#4,
                        src2 := .mem (.disp32 false false 0x100#32), imm := 0x63#8 }) := rfl

/-- E9 and E10: `fs:[rax]` and `[eax]`. -/
theorem test_decode_legacy_prefixes :
    decode .mode64 (bytesOf 7 0x64660F3ACF0000) =
      .ok (.legacyXmm { pfx := [.seg .fs, .opSize], rexW := none, dest := 0#4,
                        src2 := .mem (.base 0#4 false .none), imm := 0#8 }) ∧
    decode .mode64 (bytesOf 7 0x67660F3ACF0000) =
      .ok (.legacyXmm { pfx := [.addrSize, .opSize], rexW := none, dest := 0#4,
                        src2 := .mem (.base 0#4 false .none), imm := 0#8 }) := ⟨rfl, rfl⟩

/-- E12: `vgf2p8affineinvqb xmm8, xmm15, xmm9, 0x63`. -/
theorem test_decode_vexXmm :
    decode .mode64 (bytesOf 6 0xC44381CFC163) =
      .ok (.vexXmm { pfx := [], dest := 8#4, src1 := 15#4, src2 := .reg 9#4 false, imm := 0x63#8 }) := rfl

/-- E15: `vgf2p8affineinvqb ymm3, ymm4, [rdi+0x20], 5`. -/
theorem test_decode_vexYmm :
    decode .mode64 (bytesOf 7 0xC4E3DDCF5F2005) =
      .ok (.vexYmm { pfx := [], dest := 3#4, src1 := 4#4, src2 := .mem (.base 7#4 false (.d8 0x20#8)), imm := 5#8 }) :=
  rfl

/-- E20: `vgf2p8affineinvqb xmm0{k1}{z}, xmm1, xmm2, 0x63`. -/
theorem test_decode_evexXmm :
    decode .mode64 (bytesOf 7 0x62F3F589CFC263) =
      .ok (.evexXmm { pfx := [], dest := 0#5, src1 := 1#5, src2 := .reg 2#5, mask := .zeroing 1#3, imm := 0x63#8 }) := rfl

/-- E33: `vgf2p8affineinvqb ymm0, ymm1, [rax+0x20], 0x63`. -/
theorem test_decode_evexYmm :
    decode .mode64 (bytesOf 8 0x62F3F528CF400163) =
      .ok (.evexYmm { pfx := [], dest := 0#5, src1 := 1#5, src2 := .mem (.base 0#4 false (.d8 1#8)), mask := .unmasked,
                      imm := 0x63#8 }) := rfl

/-- E24 and E29: `zmm16, zmm17, zmm18` and `zmm0, zmm1, qword ptr [rax]` broadcast. -/
theorem test_decode_evexZmm :
    decode .mode64 (bytesOf 7 0x62A3F540CFC263) =
      .ok (.evexZmm { pfx := [], dest := 16#5, src1 := 17#5, src2 := .reg 18#5, mask := .unmasked, imm := 0x63#8 }) ∧
    decode .mode64 (bytesOf 7 0x62F3F558CF0063) =
      .ok (.evexZmm { pfx := [], dest := 0#5, src1 := 1#5, src2 := .bcst (.base 0#4 false .none), mask := .unmasked,
                      imm := 0x63#8 }) := ⟨rfl, rfl⟩

/-- E36, in `Mode32`: `gf2p8affineinvqb xmm7, [ebx+esi*2+0x10], 0x63`. -/
theorem test_decode_mode32 :
    decode .mode32 (bytesOf 8 0x660F3ACF7C731063) =
      .ok (.legacyXmm { pfx := [.opSize], rexW := none, dest := 7#4,
                        src2 := .mem (.sib 3#4 6#4 .x2 (.d8 0x10#8)), imm := 0x63#8 }) := rfl

/-- Section 3.4, what raises #UD: V70 to V76. -/
theorem test_decode_undefined :
    [bytesOf 7 0x62F3F588CFC263, bytesOf 7 0x62F3F518CFC263, bytesOf 7 0x62F3F568CFC263, bytesOf 7 0x62F7F508CFC263,
      bytesOf 7 0x62F3F108CFC263, bytesOf 7 0xF0660F3ACF0063, bytesOf 7 0x66C4E3F1CFC263].all
        (fun bs => decide (decode .mode64 bs = .error .undefinedOpcode)) = true := by decide +kernel

/-- R67 and R80: map code 00 raises #UD whatever W is; the bytes of V78 have map 0F 3A. -/
theorem test_decode_map_code_zero :
    decode .mode64 (bytesOf 7 0x62F0F508CFC263) = .error .undefinedOpcode ∧
    decode .mode64 (bytesOf 7 0x62F07508CFC263) = .error .undefinedOpcode ∧
    decode .mode64 (bytesOf 7 0x62F37508CFC263) = .error .wZero := ⟨rfl, rfl, rfl⟩

/-- Section 3.4, what is refused: V77 to V80, V94, V96, V97; and V81, too long. -/
theorem test_decode_refused :
    decode .mode64 (bytesOf 6 0xC4E371CFC263) = .error .wZero ∧
    decode .mode64 (bytesOf 7 0x62F37508CFC263) = .error .wZero ∧
    decode .mode64 (bytesOf 5 0x0F3ACFC163) = .error .noMandatory66 ∧
    decode .mode64 (bytesOf 7 0xF3660F3ACFC163) = .error .repPrefix ∧
    decode .mode32 (bytesOf 6 0xC463F1CFC263) = .error .otherInstruction ∧
    decode .mode32 (bytesOf 7 0x62D3F548CFC263) = .error .mode32Extension ∧
    decode .mode32 (bytesOf 7 0x62A3F540CFC263) = .error .otherInstruction ∧
    decode .mode64 (bytesOf 16 0x2E2E2E2E2E660F3ACF84887856341263) = .error .tooLong :=
  ⟨rfl, rfl, rfl, rfl, rfl, rfl, rfl, rfl⟩

/-- The six rows of spec/opcode_table.json, operand bytes zero: decoded and run as the first instruction after reset. -/
theorem test_table_words :
    [(24, 0xCF3A0F), (32, 0xCF81E3C4), (32, 0xCF85E3C4), (40, 0xCF0885F362), (40, 0xCF2885F362), (40, 0xCF4885F362)].all
      (fun p => (decodeTableWord p.1 p.2).isSome && isNext (step (State.reset.withFetchWord p.1 p.2))) = true := by
  decide +kernel

/-! ## The byte function (95_test_vectors.md sections 1 and 2) -/

/-- T1, and V11 and V12: matrix byte 7 drives result bit 0, matrix byte 0 drives result bit 7. -/
theorem test_affineInverseByte :
    gfmul 0x95#8 (inverse 0x95#8) = 1#8 ∧ inverse 0x95#8 = 0x8A#8 ∧
    affineInverseByte 0xFF00000000000000#64 0x95#8 0#8 = 0x01#8 ∧
    affineInverseByte 0x00000000000000FF#64 0x95#8 0#8 = 0x80#8 ∧
    affineInverseByte 0xF1E3C78F1F3E7CF8#64 0x53#8 0x63#8 = 0xED#8 := by decide +kernel

/-- V14 and V15. -/
theorem test_affineInverseByte_mixed :
    affineInverseByte 0x0123456789ABCDEF#64 0x02#8 0x10#8 = 0x23#8 ∧
    affineInverseByte 0x0123456789ABCDEF#64 0xCA#8 0x3C#8 = 0xA5#8 := by decide +kernel

/-! ## One step (95_test_vectors.md sections 3 and 5) -/

def aesTwice : Vec := vecOf 16 0xF87C3E1F8FC7E3F1F87C3E1F8FC7E3F1

def countUp : Vec := vecOf 16 0x000102030405060708090A0B0C0D0E0F

def allEE : Vec := assemble 512 8 (fun _ => 0xEE#8) 64

/-- V42: one register as both operands; the old values are used. -/
theorem test_legacy_overlap :
    after 0#5 (step ((ready.loadProgram (bytesOf 6 0x660F3ACFC000)).writeZmm 0#5
      (vecOf 16 0xEFCDAB89674523018040201008040201))) =
    some (vecOf 16 0x0FAA9666995569FF831D3A74E8CB8D01, 0x401006#64) := by decide +kernel

/-- P2, second instruction: an aligned memory operand; bits 255:128 stay. -/
theorem test_legacy_memory :
    after 3#5 (step ((setMem (setGpr (ready.loadProgram (bytesOf 6 0x660F3ACF1F63)) 7#4 0x2000#64) 0x2000 16
        0xF87C3E1F8FC7E3F1F87C3E1F8FC7E3F1).writeZmm 3#5
      (vecOf 32 0xF39C48636C1D42D55BB8F3C8EC87C711D7AF99AAF82A0BAC0505050505050505))) =
    some (vecOf 32 0x0DDE52FB50A42C03396C0DE8CE17C682D7AF99AAF82A0BAC0505050505050505, 0x401006#64) := by
  decide +kernel

/-- V50: bits 511:128 become 0. -/
theorem test_vexXmm_registers :
    after 0#5 (step ((((ready.loadProgram (bytesOf 6 0xC4E3F1CFC263)).writeZmm 0#5 allEE).writeZmm 1#5
      countUp).writeZmm 2#5 aesTwice)) =
    some (vecOf 16 0x637C777BF26B6FC53001672BFED7AB76, 0x401006#64) := by decide +kernel

/-- V53: a memory operand at no multiple of 16. -/
theorem test_vexXmm_unaligned :
    after 0#5 (step ((setMem (setGpr (ready.loadProgram (bytesOf 6 0xC4E3F1CF0063)) 0#4 0x2008#64) 0x2000 32
      0x000102030405060708090A0B0C0D0E0F101112131415161718191A1B1C1D1E1F).writeZmm 1#5 countUp)) =
    some (vecOf 16 0x6336C65FFA50FA36630A36639C36390A, 0x401006#64) := by decide +kernel

/-- P2, first instruction: disp8 is not scaled; bits 511:256 become 0. -/
theorem test_vexYmm_memory :
    after 3#5 (step (((setMem (setGpr (ready.loadProgram (bytesOf 7 0xC4E3DDCF5F2005)) 7#4 0x2000#64) 0x2020 32
        0x8040201008040201F87C3E1F8FC7E3F101020408102040800000000000000000).writeZmm 3#5 allEE).writeZmm 4#5
      (vecOf 32 0x031425364758697A8B9CADBECFE0F102132435465768798A9BACBDCEDFF00112))) =
    some (vecOf 32 0xF39C48636C1D42D55BB8F3C8EC87C711D7AF99AAF82A0BAC0505050505050505, 0x401007#64) := by
  decide +kernel

/-- V60, zeroing. -/
theorem test_evexXmm_zeroing :
    after 0#5 (step ((((setK (ready.loadProgram (bytesOf 7 0x62F3F589CFC263)) 1#3 0x8001#64).writeZmm 0#5
      allEE).writeZmm 1#5 countUp).writeZmm 2#5 aesTwice)) =
    some (vecOf 16 0x63000000000000000000000000000076, 0x401007#64) := by decide +kernel

/-- V60, merging. -/
theorem test_evexXmm_merging :
    after 0#5 (step ((((setK (ready.loadProgram (bytesOf 7 0x62F3F509CFC263)) 1#3 0x8001#64).writeZmm 0#5
      allEE).writeZmm 1#5 countUp).writeZmm 2#5 aesTwice)) =
    some (vecOf 16 0x63EEEEEEEEEEEEEEEEEEEEEEEEEEEE76, 0x401007#64) := by decide +kernel

/-- V61: mask bits 63:32 are ignored. -/
theorem test_evexYmm_merging :
    after 0#5 (step ((((setK (ready.loadProgram (bytesOf 7 0x62F3F52ACFC263)) 2#3 0xFFFFFFFF0000FF0F#64).writeZmm 0#5
        allEE).writeZmm 1#5
        (vecOf 32 0xF0EBE6E1DCD7D2CDC8C3BEB9B4AFAAA5A09B96918C87827D78736E69645F5A55)).writeZmm 2#5
      (vecOf 32 0xF87C3E1F8FC7E3F18040201008040201FFFFFFFFFFFFFFFF0102040810204080))) =
    some (vecOf 32 0x8CE98EF8EEEEEEEECAC0E5ED720171DBEEEEEEEEEEEEEEEEEEEEEEEEEEEEEEEE, 0x401007#64) := by
  decide +kernel

/-- The bytes x of V62 and P3. -/
def x62 : Vec :=
  vecOf 64 0x01080F161D242B323940474E555C636A71787F868D949BA2A9B0B7BEC5CCD3DAE1E8EFF6FD040B121920272E353C434A51585F666D747B828990979EA5ACB3BA

/-- V62, merging: 64 mask bits, one for each byte. -/
theorem test_evexZmm_merging :
    after 0#5 (step ((((setK (ready.loadProgram (bytesOf 7 0x62F3F549CFC263)) 1#3 0xAAAA555500FF8001#64).writeZmm 0#5
        allEE).writeZmm 1#5 x62).writeZmm 2#5
      (vecOf 64 0x8040201008040201F87C3E1F8FC7E3F10102040810204080FFFFFFFFFFFFFFFF0000000000000000EFCDAB89674523018040201008040201F87C3E1F8FC7E3F1))) =
    some (vecOf 64 0x62EEEEEEEEEEEEEEEEEEEEEEEEEEEE028E0E221E23787217EEEEEEEEEEEEEEEE63EE63EE63EE63EEA0EE50EEC6EE9CEEEE7BEE55EE73EE1CEE60EE0BEE91EEF4,
      0x401007#64) := by decide +kernel

/-- P3, first instruction: broadcast at RSI + RDX*8 - 8, disp8 scaled by 8, zeroing. -/
theorem test_evexZmm_broadcast :
    after 5#5 (step (((setK (setMem (setGpr (setGpr (ready.loadProgram (bytesOf 9 0x62F3CDDBCF6CD6FF11)) 6#4 0x3000#64)
        2#4 2#64) 0x3008 8 0xF87C3E1F8FC7E3F1) 3#3 0xAAAA555500FF8001#64).writeZmm 6#5 x62).writeZmm 5#5 allEE)) =
    some (vecOf 64 0x0E000000000000000000000000000070D1CEA0362F50664800000000000000008A00AD0026005900A600BE00E40068000018004100E000610012007900E30086,
      0x401009#64) := by decide +kernel

/-! ## Witnesses: states and operands that meet the hypotheses of each obligation together -/

def legacyReg : Instr := .legacyXmm legacy0

/-- `gf2p8affineinvqb xmm0, [rax], 0x63` (E3). -/
def legacyMem : LegacyForm := { legacy0 with src2 := .mem (.base 0#4 false .none) }

/-- `vgf2p8affineinvqb xmm0, xmm1, [rax], 0x63`, and the `ymm` form. -/
def vexMem : VexForm := { vex0 with src2 := .mem (.base 0#4 false .none) }

/-- `vgf2p8affineinvqb zmm0, zmm1, [rax], 0x63` (E26) and its narrower forms. -/
def evexMem : EvexForm := { evex0 with src2 := .mem (.base 0#4 false .none) }

/-- `vgf2p8affineinvqb zmm0, zmm1, qword ptr [rax], 0x63`, broadcast (E29), and its narrower forms. -/
def evexBcst : EvexForm := { evex0 with src2 := .bcst (.base 0#4 false .none) }

/-- Only 0x2000 to 0x2FFF is present (V91). -/
def onePage : State :=
  let row : Mapping := { base := 0x2000, size := 0x1000, cpls := [0#2, 1#2, 2#2, 3#2], access := .ok 0x2000 .ordinary }
  { ready with translation := .table [row] }

/-- Address 0 and on is a device (R49). -/
def devicePage : State :=
  { ready with translation := .table [{ base := 0, size := 0x1000, cpls := [3#2], access := .ok 0 .device }] }

/-- V92 and V93: an address that is not canonical, in RAX and in RSP. -/
def nonCanonical : State := setGpr (setGpr ready 0#4 0x0000800000000000#64) 4#4 0x0000800000000000#64

/-- CR0.TS = 1. -/
def taskSwitched : State := { ready with cr0 := ready.cr0 ||| 8#64 }

theorem ready_legacyEnabled : LegacyEnabled ready := ⟨by decide, by decide, by decide, by decide⟩

theorem ready_vexEnabled : VexEnabled ready := ⟨by decide, by decide, by decide, by decide, by decide⟩

theorem ready_evexEnabled (vl : Vl) : EvexEnabled vl ready :=
  ⟨by decide, by cases vl <;> rfl, by decide, by decide, by decide, by decide⟩

theorem enabled_of_flags {s : State} {i : Instr} (h1 : udOf s i = false) (h2 : s.cr0TS = false) : Enabled s i :=
  ⟨fun h => Bool.false_ne_true (h1.symm.trans (udOf_iff.mpr h)), h2⟩

theorem witness_fieldAndByteFunction :
    (0x95#8 ≠ 0#8) ∧ (0 < 8 ∧ 7 < 8) ∧ 8 ∈ [2, 4, 8] ∧ (7 : Nat) < 8 := by decide

/-- Byte 1 of x and its matrix agree, byte 0 and the other matrices differ. -/
theorem witness_ResultByteIndependence :
    1 < Vl.v128.bytes ∧ byteAt (1#512) 1 = byteAt (2#512 : Vec) 1 ∧
    qwordAt (0#512) (1 / 8) = qwordAt (1#512 <<< 64 : Vec) (1 / 8) ∧ (1#512 : Vec) ≠ 2#512 := by decide +kernel

/-- Every constructor has well-formed instructions, with memory operands, in both modes. -/
theorem witness_DecodeInvertsEncode_EncodedLengthBounds :
    [Instr.legacyXmm legacyMem, .vexXmm vexMem, .vexYmm vexMem, .evexXmm evexMem, .evexYmm evexBcst, .evexZmm evexMem].all
      (fun i => WellFormed .mode64 i && WellFormed .mode32 i) = true := by decide

theorem witness_EncodeInvertsDecode :
    decode .mode32 (bytesOf 6 0xC4E3F1CFC263) = .ok (.vexXmm { vex0 with src2 := .reg 2#4 false }) := rfl

/-- V81, whose five segment overrides make 16 bytes, the least length that is too long; and 67, a stray REX byte, two other
overrides and 66 twice in their place. -/
theorem witness_OverlongInstructionRaisesGp :
    let f : LegacyForm := { legacy0 with src2 := .mem (.sib 0#4 1#4 .x4 (.d32 0x12345678#32)) }
    let i := Instr.legacyXmm { f with pfx := List.replicate 5 (.seg .cs) ++ [.opSize] }
    let j := Instr.legacyXmm { f with pfx := [.addrSize, .rex 8#4, .seg .es, .seg .gs, .opSize, .opSize] }
    encode i = bytesOf 16 0x2E2E2E2E2E660F3ACF84887856341263 ∧
    encode j = bytesOf 16 0x6748266566660F3ACF84887856341263 ∧
    ready.modelledMode = some .mode64 ∧ (∀ e ∈ [i, j], FieldsOk .mode64 e = true ∧ 15 < e.len) ∧
    ∀ e ∈ [i, j], HoldsText .mode64 (ready.loadProgram (encode e)) (encode e) :=
  ⟨by decide, by decide, by decide, by decide, fun e he => holds64 _ (by revert e he; decide)⟩

/-- V72 (L'L = 11) and the same bytes with L'L = 10, which decode; z = 1 with aaa = 000 and a memory operand; map code 00
with W = 0; and in `Mode32`, after an FS override, map code 00 with a memory operand. -/
theorem witness_EvexReservedEncodingsRaiseUd :
    (∀ w : Nat, w ∈ [0x62F3F568CFC263, 0x62F3F548CFC263, 0x62F3F5C8CF0063, 0x62F07508CFC263] →
      HoldsText .mode64 (ready.loadProgram (bytesOf 7 w)) (bytesOf 7 w)) ∧
    HoldsText .mode32 (ready32.loadProgram (bytesOf 8 0x6462F0F548CF0063)) (bytesOf 8 0x6462F0F548CF0063) ∧
    bytesOf 8 0x6462F0F548CF0063 = [Prefix.seg .fs].map Prefix.byte ++
      [0x62#8, 0xF0#8, 0xF5#8, 0x48#8, 0xCF#8, 0x00#8] ++ [0x63#8] ∧
    [Prefix.seg .fs].all (Prefix.okVex .mode32) = true ∧
    (0xF3#8).extractLsb' 0 2 = 3#2 ∧ (0xF0#8).extractLsb' 0 2 = 0#2 ∧ (0xF5#8).extractLsb' 0 2 = 1#2 ∧
    (0xF5#8).getLsbD 7 = true ∧ (0x75#8).extractLsb' 0 2 = 1#2 ∧ (0x75#8).getLsbD 7 = false ∧
    (0xF0#8).extractLsb' 4 4 = 15#4 ∧ (0xF5#8).getLsbD 6 = true ∧ (0x48#8).getLsbD 3 = true ∧
    (takeOperands false false [0x00#8, 0x63#8]).isSome = true ∧
    (takeOperands false false [0xC2#8, 0x63#8]).isSome = true :=
  ⟨fun _ _ => holds64 _ (by simp [bytesOf]), holds32 _ (by decide), by decide, by decide, by decide, by decide,
    by decide, by decide, by decide, by decide, by decide, by decide, by decide, rfl, rfl⟩

/-- V75 and V76, LOCK after 66, and each forbidden prefix between two segment overrides before a VEX and an EVEX form. -/
theorem witness_ForbiddenPrefixRaisesUd :
    let here (l : List Byte) := HoldsText .mode64 (ready.loadProgram l) l
    legacyMem.wellFormed .mode64 = true ∧ vex0.wellFormed .mode64 = true ∧ evex0.wellFormed .mode64 = true ∧
    here (bytesOf 7 0xF0660F3ACF0063) ∧ here (bytesOf 7 0x66C4E3F1CFC263) ∧
    encode (.legacyXmm { legacyMem with pfx := [.lock, .opSize] }) = bytesOf 7 0xF0660F3ACF0063 ∧
    here (encode (.legacyXmm { legacyMem with pfx := [.opSize, .lock] })) ∧
    (∀ p ∈ [Prefix.opSize, .repne, .rep, .lock, .rex 0#4],
      here (encode (.vexXmm { vex0 with pfx := [.seg .cs, p, .seg .ds] })) ∧
      here (encode (.evexZmm { evex0 with pfx := [.seg .cs, p, .seg .ds] }))) :=
  ⟨by decide, by decide, by decide, holds64 _ (by decide), holds64 _ (by decide), by decide, holds64 _ (by decide),
    fun p hp => ⟨holds64 _ (by revert p hp; decide), holds64 _ (by revert p hp; decide)⟩⟩

/-- V79, V80, V77, V78; F3 after 66; and LOCK before W = 0. -/
theorem witness_NeighbourEncodingsRefused :
    let here (l : List Byte) (bs : List Byte) := HoldsText .mode64 (ready.loadProgram l) bs
    ready.modelledMode = some .mode64 ∧
    here (bytesOf 5 0x0F3ACFC163) [0x0F#8, 0x3A#8, 0xCF#8] ∧
    here (bytesOf 7 0xF3660F3ACFC163) ([Prefix.rep, .opSize].map Prefix.byte ++ [0x0F#8, 0x3A#8, 0xCF#8]) ∧
    here (bytesOf 7 0x66F30F3ACFC163) ([Prefix.opSize, .rep].map Prefix.byte ++ [0x0F#8, 0x3A#8, 0xCF#8]) ∧
    here (bytesOf 6 0xC4E371CFC263) [0xC4#8, 0xE3#8, 0x71#8, 0xCF#8] ∧
    here (bytesOf 7 0xF0C4E371CFC263) ([Prefix.lock].map Prefix.byte ++ [0xC4#8, 0xE3#8, 0x71#8, 0xCF#8]) ∧
    here (bytesOf 7 0x62F37508CFC263) [0x62#8, 0xF3#8, 0x75#8, 0x08#8, 0xCF#8] ∧
    (0xE3#8).extractLsb' 0 5 = 3#5 ∧ (0x71#8).extractLsb' 0 2 = 1#2 ∧ (0x71#8).getLsbD 7 = false ∧
    (0xF3#8).extractLsb' 0 2 = 3#2 ∧ (0x75#8).extractLsb' 0 2 = 1#2 ∧ (0x75#8).getLsbD 7 = false :=
  ⟨by decide, (holds64 _ (by decide)).take 3, (holds64 _ (by decide)).take 5, (holds64 _ (by decide)).take 5,
    (holds64 _ (by decide)).take 4, (holds64 _ (by decide)).take 5, (holds64 _ (by decide)).take 5, by decide, by decide,
    by decide, by decide, by decide, by decide⟩

/-- V94, V97, V96 (B = 1) and E39; an extension bit in a VEX prefix; and 67 before each of the three encodings. -/
theorem witness_Mode32Encodings :
    let here (l : List Byte) (bs : List Byte) := HoldsText .mode32 (ready32.loadProgram l) bs
    ready32.modelledMode = some .mode32 ∧ (0x63#8).extractLsb' 6 2 ≠ 3#2 ∧ (0xA3#8).extractLsb' 6 2 ≠ 3#2 ∧
    here (bytesOf 6 0xC463F1CFC263) [0xC4#8, 0x63#8] ∧ here (bytesOf 7 0x62A3F540CFC263) [0x62#8, 0xA3#8] ∧
    here (bytesOf 6 0xC4C3F1CFC263) [0xC4#8, 0xC3#8, 0xF1#8, 0xCF#8] ∧ (0xC3#8).getLsbD 5 = false ∧
    here (bytesOf 7 0x67C4E3F1CFC263) ([Prefix.addrSize].map Prefix.byte ++ [0xC4#8, 0xE3#8, 0xF1#8, 0xCF#8]) ∧
    here (bytesOf 7 0x62D3F548CFC263) [0x62#8, 0xD3#8, 0xF5#8, 0x48#8, 0xCF#8] ∧ (0xD3#8).getLsbD 5 = false ∧
    here (bytesOf 8 0x6762F3F548CFC263)
      ([Prefix.addrSize].map Prefix.byte ++ [0x62#8, 0xF3#8, 0xF5#8, 0x48#8, 0xCF#8]) ∧
    here (bytesOf 7 0x67660F3ACFC163) ([Prefix.addrSize, .opSize].map Prefix.byte ++ [0x0F#8, 0x3A#8, 0xCF#8]) ∧
    decode .mode32 (bytesOf 7 0x62F3F549CFC263) = .ok (.evexZmm { evex0 with mask := .merging 1#3 }) :=
  ⟨by decide, by decide, by decide, (holds32 _ (by decide)).take 2, (holds32 _ (by decide)).take 2,
    (holds32 _ (by decide)).take 4, by decide, (holds32 _ (by decide)).take 5, (holds32 _ (by decide)).take 5, by decide,
    (holds32 _ (by decide)).take 6, (holds32 _ (by decide)).take 5, rfl⟩

/-- E1 at `rip`. -/
theorem witness_StepRunsInstructionAtRip :
    let s := ready.loadProgram (bytesOf 6 0x660F3ACFC163)
    s.modelledMode = some .mode64 ∧ WellFormed .mode64 legacyReg = true ∧ HoldsText .mode64 s (encode legacyReg) :=
  ⟨by decide, by decide, holds64 _ (by decide)⟩

/-- A loaded launch state meets the invariant, and its step completes. -/
theorem witness_StepKeepsInvariant_NoStepWritesMemory :
    let s := ready.loadProgram (bytesOf 7 0x62F3F548CFC263)
    Inv s ∧ ∃ t, step s = .next t :=
  ⟨⟨by decide, bounded_of_avx512f (by decide), show canonical _ _ = true by decide +kernel,
      ⟨by simp [State.loadProgram, ready, State.modelledMode, State.reset, State.launch, State.cr0PE, rising],
        by simp [State.loadProgram, ready, State.modelledMode, State.reset, State.launch, State.cr0PE]⟩,
      loadProgram_keeps_wf _ _ (by simp [ready, State.reset, State.launch])⟩,
    exists_next (by decide +kernel)⟩

theorem witness_OtherModesRefused :
    State.reset.cr0PE = false ∧ ({ ready with mode := .code16 } : State).cr0PE = true ∧
    ∀ m, ({ ready with mode := .code16 } : State).mode ≠ .running m :=
  ⟨by decide, by decide, fun m => by simp⟩

/-- Each of the six instructions completes on registers. -/
theorem witness_CompletedWriteSet_DestinationUpperBits :
    ∀ i ∈ [legacyReg, .vexXmm vex0, .vexYmm vex0, .evexXmm evex0, .evexYmm evex0, .evexZmm evex0],
      ∃ t, exec i ready = .next t := by
  intro i hi
  apply exists_next
  revert i hi
  decide +kernel

theorem witness_RegisterResults :
    ready.modelledMode = some .mode64 ∧ LegacyEnabled ready ∧ VexEnabled ready ∧ (∀ vl, EvexEnabled vl ready) ∧
    legacy0.src2 = .reg 1#4 false ∧ vex0.src2 = .reg 2#4 false ∧ evex0.src2 = .reg 2#5 ∧
    CanAdvance .mode64 legacy0.len ready ∧ CanAdvance .mode64 vex0.len ready ∧ CanAdvance .mode64 evex0.len ready :=
  ⟨by decide, ready_legacyEnabled, ready_vexEnabled, ready_evexEnabled, rfl, rfl, rfl,
    ⟨by decide, by decide +kernel⟩, ⟨by decide, by decide +kernel⟩, ⟨by decide, by decide +kernel⟩⟩

theorem witness_LegacyMemoryResult :
    let g := operandSeg .mode64 legacyMem.pfx (.base 0#4 false .none)
    let ea := effectiveAddress .mode64 legacyMem.pfx legacyMem.len 1 (.base 0#4 false .none) ready
    ready.modelledMode = some .mode64 ∧ LegacyEnabled ready ∧ legacyMem.src2 = .mem (.base 0#4 false .none) ∧
    (linearAt .mode64 ready g ea 0).toNat % 16 = 0 ∧ Readable .mode64 ready g ea 16 ∧
    CanAdvance .mode64 legacyMem.len ready :=
  ⟨by decide, ready_legacyEnabled, rfl, by decide +kernel, readable_of_read (by decide +kernel),
    ⟨by decide, by decide +kernel⟩⟩

theorem witness_VexMemoryResult :
    let g := operandSeg .mode64 vexMem.pfx (.base 0#4 false .none)
    let ea := effectiveAddress .mode64 vexMem.pfx vexMem.len 1 (.base 0#4 false .none) ready
    ready.modelledMode = some .mode64 ∧ VexEnabled ready ∧ vexMem.src2 = .mem (.base 0#4 false .none) ∧
    CanAdvance .mode64 vexMem.len ready ∧ Readable .mode64 ready g ea 16 ∧ Readable .mode64 ready g ea 32 :=
  ⟨by decide, ready_vexEnabled, rfl, ⟨by decide, by decide +kernel⟩, readable_of_read (by decide +kernel),
    readable_of_read (by decide +kernel)⟩

theorem witness_EvexMemoryResult_EvexBroadcastResult :
    let g := operandSeg .mode64 evexMem.pfx (.base 0#4 false .none)
    let ea (n : Nat) := effectiveAddress .mode64 evexMem.pfx evexMem.len n (.base 0#4 false .none) ready
    ready.modelledMode = some .mode64 ∧ (∀ vl, EvexEnabled vl ready) ∧ evexMem.src2 = .mem (.base 0#4 false .none) ∧
    evexBcst.src2 = .bcst (.base 0#4 false .none) ∧ CanAdvance .mode64 evexMem.len ready ∧
    Readable .mode64 ready g (ea 16) 16 ∧ Readable .mode64 ready g (ea 32) 32 ∧ Readable .mode64 ready g (ea 64) 64 ∧
    Readable .mode64 ready g (ea 8) 8 :=
  ⟨by decide, ready_evexEnabled, rfl, rfl, ⟨by decide, by decide +kernel⟩, readable_of_read (by decide +kernel),
    readable_of_read (by decide +kernel), readable_of_read (by decide +kernel), readable_of_read (by decide +kernel)⟩

/-- One register in every position of every form. -/
theorem witness_OverlapUsesOldValues :
    ∀ i ∈ [Instr.legacyXmm { legacy0 with dest := 1#4 }, .vexXmm { vex0 with dest := 2#4, src1 := 2#4 },
        .vexYmm { vex0 with dest := 2#4, src1 := 2#4 }, .evexXmm { evex0 with dest := 2#5, src1 := 2#5 },
        .evexYmm { evex0 with dest := 2#5, src1 := 2#5 }, .evexZmm { evex0 with dest := 2#5, src1 := 2#5 }],
      ∃ t, exec i ready = .next t := by
  intro i hi
  apply exists_next
  revert i hi
  decide +kernel

/-- V64: only bits 16 and up of the mask register are set; both kinds of masking. -/
theorem witness_AllZeroMask :
    let s := setK ready 1#3 0xFFFFFFFFFFFF0000#64
    (∀ n < Vl.v128.bytes, (s.readK 1#3).getLsbD n = false) ∧
    (∃ t, exec (.evexXmm { evex0 with mask := .merging 1#3 }) s = .next t) ∧
    (∃ t, exec (.evexXmm { evex0 with mask := .zeroing 1#3 }) s = .next t) :=
  ⟨by decide +kernel, exists_next (by decide +kernel), exists_next (by decide +kernel)⟩

/-- Bit 15 is read, bit 16 is not, and K2 is not. -/
theorem witness_MaskBitsAboveIgnored :
    let s := setK ready 1#3 0x8001#64
    let k' := (setK (setK ready 1#3 0x18001#64) 2#3 5#64).k
    (∀ k, Masking.merging 1#3 = .merging k ∨ Masking.merging 1#3 = .zeroing k → ∀ n < Vl.v128.bytes,
      (k'[k.toNat]).getLsbD n = (s.readK k).getLsbD n) ∧ k' ≠ s.k ∧
    ∃ t, exec (.evexXmm { evex0 with mask := .merging 1#3 }) s = .next t := by
  refine ⟨fun k hk => ?_, by decide +kernel, exists_next (by decide +kernel)⟩
  have : k = 1#3 := by rcases hk with h | h <;> simp_all
  subst this
  decide +kernel

/-- V84 to V89: each #UD condition, and CR0.TS = 1 without and with one. -/
theorem witness_UdExactlyWhen_NmExactlyWhen :
    ready.modelledMode = some .mode64 ∧ ¬ UdCondition ready legacyReg ∧
    UdCondition { ready with cr4 := 0#64 } legacyReg ∧ UdCondition { ready with xcr0 := 3#64 } (.vexXmm vex0) ∧
    UdCondition { ready with xcr0 := 7#64 } (.evexZmm evex0) ∧ taskSwitched.modelledMode = some .mode64 ∧
    taskSwitched.cr0TS = true ∧ ¬ UdCondition taskSwitched legacyReg ∧
    UdCondition { taskSwitched with cr4 := 0#64 } legacyReg := by
  simp only [← udOf_iff]
  decide +kernel

/-- V44: 0x2008 is a multiple of 8 only. -/
theorem witness_MisalignedLegacyRaisesGp :
    let s := setGpr ready 0#4 0x2008#64
    s.modelledMode = some .mode64 ∧ Enabled s (.legacyXmm legacyMem) ∧
    memOperandOf .mode64 s (.legacyXmm legacyMem) = some (.ds, 0x2008#64, 16) ∧
    (linearAt .mode64 s .ds 0x2008#64 0).toNat % 16 ≠ 0 :=
  ⟨by decide, enabled_of_flags (by decide) (by decide), by decide +kernel, by decide +kernel⟩

/-- V92 through DS and V93 through SS. -/
theorem witness_IllegalAddressRaises :
    let i := Instr.legacyXmm legacyMem
    let j := Instr.legacyXmm { legacy0 with src2 := .mem (.sib 4#4 4#4 .x1 .none) }
    nonCanonical.modelledMode = some .mode64 ∧ Enabled nonCanonical i ∧ Enabled nonCanonical j ∧
    memOperandOf .mode64 nonCanonical i = some (.ds, 0x0000800000000000#64, 16) ∧
    memOperandOf .mode64 nonCanonical j = some (.ss, 0x0000800000000000#64, 16) ∧
    OperandAligned .mode64 nonCanonical .ds 0x0000800000000000#64 i ∧
    OperandAligned .mode64 nonCanonical .ss 0x0000800000000000#64 j ∧
    byteLegal .mode64 nonCanonical .ds 0x0000800000000000#64 0 = false ∧
    byteLegal .mode64 nonCanonical .ss 0x0000800000000000#64 0 = false :=
  ⟨by decide, enabled_of_flags (by decide) (by decide), enabled_of_flags (by decide) (by decide), by decide +kernel,
    by decide +kernel, by show _ % 16 = 0; decide +kernel, by show _ % 16 = 0; decide +kernel, by decide +kernel,
    by decide +kernel⟩

/-- V91: 32 of the 64 bytes lie on the absent page; the mask is all zero. -/
theorem witness_PageFaultRaises_NoFaultSuppression :
    let s := setGpr onePage 0#4 0x2FE0#64
    let i := Instr.evexZmm { evexMem with mask := .merging 1#3 }
    s.modelledMode = some .mode64 ∧ Enabled s i ∧ memOperandOf .mode64 s i = some (.ds, 0x2FE0#64, 64) ∧
    OperandAligned .mode64 s .ds 0x2FE0#64 i ∧ (∀ k < 64, byteLegal .mode64 s .ds 0x2FE0#64 k = true) ∧
    byteTranslated .mode64 s .ds 0x2FE0#64 31 = .ok 0x2FFF .ordinary ∧
    byteTranslated .mode64 s .ds 0x2FE0#64 32 = .fault 4#32 ∧ s.readK 1#3 = 0#64 :=
  ⟨by decide, enabled_of_flags (by decide) (by decide), by decide +kernel, trivial, by decide +kernel, by decide +kernel,
    by decide +kernel, by decide +kernel⟩

theorem witness_RegisterFormsNeverFaultOnMemory :
    taskSwitched.modelledMode = some .mode64 ∧ memOperandOf .mode64 taskSwitched legacyReg = none ∧
    exec legacyReg taskSwitched = .fault .nm := ⟨by decide, rfl, rfl⟩

theorem witness_DeviceOperandRefused :
    let i := Instr.vexXmm vexMem
    devicePage.modelledMode = some .mode64 ∧ Enabled devicePage i ∧
    memOperandOf .mode64 devicePage i = some (.ds, 0#64, 16) ∧ OperandAligned .mode64 devicePage .ds 0#64 i ∧
    (∀ k < 16, byteLegal .mode64 devicePage .ds 0#64 k = true) ∧
    (∀ k < 16, byteTranslated .mode64 devicePage .ds 0#64 k = .ok k .device) :=
  ⟨by decide, enabled_of_flags (by decide) (by decide), by decide +kernel, trivial, by decide +kernel, by decide +kernel⟩

/-- Six bytes end below a limit or at it: the canonical range's, 2^64, and in `Mode32` 2^32. -/
theorem witness_CompletesUnlessRipWraps :
    let at64 (a : Qword) := { ready with rip := a }
    let at32 (a : Qword) := { ready32 with rip := a }
    (∀ a ∈ [0x00007FFFFFFFFFF9#64, 0x00007FFFFFFFFFFA#64, 0xFFFFFFFFFFFFFFF9#64, 0xFFFFFFFFFFFFFFFA#64],
      (at64 a).modelledMode = some .mode64 ∧ Enabled (at64 a) legacyReg ∧ OperandReady .mode64 (at64 a) legacyReg) ∧
    (∀ a ∈ [0xFFFFFFF9#64, 0xFFFFFFFA#64],
      (at32 a).modelledMode = some .mode32 ∧ Enabled (at32 a) legacyReg ∧ OperandReady .mode32 (at32 a) legacyReg) ∧
    CanAdvance .mode64 legacyReg.len (at64 0x00007FFFFFFFFFF9#64) ∧
    ¬ CanAdvance .mode64 legacyReg.len (at64 0x00007FFFFFFFFFFA#64) ∧
    CanAdvance .mode64 legacyReg.len (at64 0xFFFFFFFFFFFFFFF9#64) ∧
    ¬ CanAdvance .mode64 legacyReg.len (at64 0xFFFFFFFFFFFFFFFA#64) ∧
    CanAdvance .mode32 legacyReg.len (at32 0xFFFFFFF9#64) ∧ ¬ CanAdvance .mode32 legacyReg.len (at32 0xFFFFFFFA#64) := by
  have none : ∀ m s, OperandReady m s legacyReg := fun m s g ea n h => by simp [memOperandOf, legacyReg, legacy0] at h
  have mode : ready.modelledMode = some .mode64 ∧ ready32.modelledMode = some .mode32 := by decide
  have enabled : Enabled ready legacyReg ∧ Enabled ready32 legacyReg :=
    ⟨enabled_of_flags (by decide) (by decide), enabled_of_flags (by decide) (by decide)⟩
  refine ⟨fun a _ => ⟨mode.1, enabled.1, none _ _⟩, fun a _ => ⟨mode.2, enabled.2, none _ _⟩, ⟨by decide, by decide +kernel⟩,
    fun h => Bool.false_ne_true ((by decide +kernel : _ = false).symm.trans h.2), ⟨by decide, by decide +kernel⟩,
    fun h => absurd h.1 (by decide), by show (_ : Nat) < _; decide, fun h => absurd h (by show ¬ (_ : Nat) < _; decide)⟩

theorem witness_LittleEndianRead :
    (∃ v, memRead .mode64 ready .ds 0x2000#64 64 = .next v) ∧
    ∀ k < 64, byteTranslated .mode64 ready .ds 0x2000#64 k = .ok (0x2000 + k) .ordinary :=
  ⟨exists_next (by decide +kernel), by decide +kernel⟩

/-- The two memories differ at 0x2008, the first byte past a broadcast operand. -/
theorem witness_ReadsOnlyItsOperand :
    let s := setGpr ready 0#4 0x2000#64
    let mem' : Memory := [(0x2008, 1#8)]
    s.modelledMode = some .mode64 ∧ (∃ t, exec (.evexZmm evexBcst) s = .next t) ∧
    memOperandOf .mode64 s (.evexZmm evexBcst) = some (.ds, 0x2000#64, 8) ∧
    (∀ k < 8, byteTranslated .mode64 s .ds 0x2000#64 k = .ok (0x2000 + k) .ordinary ∧
      mem'.read (0x2000 + k) = s.mem.read (0x2000 + k)) ∧ mem' ≠ s.mem :=
  ⟨by decide, exists_next (by decide +kernel), by decide +kernel, by decide +kernel, by decide⟩

theorem witness_FlagsAndMxcsrUntouched :
    (∃ t, exec legacyReg ready = .next t) ∧ exec legacyReg taskSwitched = .fault .nm :=
  ⟨exists_next (by decide +kernel), rfl⟩

/-- A register operand; a memory operand on a page whose answer is the same at levels 3 and 0; and one that level 0 alone
may read, which the hypothesis leaves out. -/
theorem witness_PrivilegeOnlyThroughTranslate :
    let row (l : List (BitVec 2)) : Mapping := { base := 0, size := 0x1000, cpls := l, access := .ok 0 .ordinary }
    let s := { ready with translation := .table [row [0#2, 3#2]] }
    let t := { ready with translation := .table [row [0#2]] }
    memOperandOf .mode64 s legacyReg = none ∧ memOperandOf .mode64 s (.legacyXmm legacyMem) = some (.ds, 0#64, 16) ∧
    (∀ k < 16, Machine.translate s.translation (linearAt .mode64 s .ds 0#64 k) 0#2 =
      Machine.translate s.translation (linearAt .mode64 s .ds 0#64 k) s.cpl) ∧
    (∃ u, exec (.legacyXmm legacyMem) s = .next u) ∧
    Machine.translate t.translation (linearAt .mode64 t .ds 0#64 0) 0#2 ≠
      Machine.translate t.translation (linearAt .mode64 t .ds 0#64 0) t.cpl :=
  ⟨rfl, by decide +kernel, by decide +kernel, exists_next (by decide +kernel), by decide +kernel⟩

theorem witness_addresses :
    ([.opSize] : List Prefix).contains .addrSize = false ∧ ([.addrSize] : List Prefix).contains .addrSize = true ∧
    (12#4 : GReg) ≠ 4#4 := by decide

/-- Overrides that `Mode64` ignores; the flat segment, one that begins past a first page as one that expands down does, a null
one and an execute-only one. -/
theorem witness_SegmentSelection :
    let with_ (r : SegReg) : State := { ready32 with segs := { ready32.segs with ds := r } }
    let flat := SegReg.flat 0x10#16
    let down := with_ { flat with limit := [{ first := 0x10000#32, last := 0xFFFFFFFF#32 }] }
    (∀ p ∈ [Prefix.seg .cs, .seg .ss, .opSize], p ≠ .seg .fs ∧ p ≠ .seg .gs) ∧ Seg.ds ≠ .fs ∧ Seg.ds ≠ .gs ∧
    (∀ g, Prefix.opSize ≠ .seg g) ∧
    segCheck .mode32 ready32 .ds 0xFFFFFFFF#64 = true ∧ segCheck .mode32 (with_ (SegReg.powerUp 0#16 0#64)) .ds 0xFFFF#64 = true ∧
    segCheck .mode32 (with_ (SegReg.powerUp 0#16 0#64)) .ds 0x10000#64 = false ∧
    segCheck .mode32 down .ds 0xFFFF#64 = false ∧ segCheck .mode32 down .ds 0x10000#64 = true ∧
    segCheck .mode32 (with_ { flat with usable := false }) .ds 0#64 = false ∧
    segCheck .mode32 (with_ { flat with executeOnly := true }) .ds 0#64 = false :=
  ⟨by decide, by decide, by decide, fun g h => (nomatch h), by decide, by decide, by decide, by decide, by decide, by decide,
    by decide⟩

/-- Both sides of the canonical limits, for 48 and 57 bits. -/
theorem test_canonical :
    canonical .la48 0x00007FFFFFFFFFFF#64 = true ∧ canonical .la48 0x0000800000000000#64 = false ∧
    canonical .la48 0xFFFF7FFFFFFFFFFF#64 = false ∧ canonical .la48 0xFFFF800000000000#64 = true ∧
    canonical .la57 0x00FFFFFFFFFFFFFF#64 = true ∧ canonical .la57 0x0100000000000000#64 = false ∧
    canonical .la57 0xFEFFFFFFFFFFFFFF#64 = false ∧ canonical .la57 0xFF00000000000000#64 = true := by decide +kernel

/-- The first and the last byte of a row, the byte past it, and a privilege level it does not speak of. -/
theorem witness_TranslateAnswers :
    let covered (lin : Qword) (cpl : BitVec 2) : Prop := 0x2000 ≤ lin.toNat ∧ lin.toNat < 0x2000 + 0x1000 ∧ cpl ∈ [3#2]
    covered 0x2000#64 3#2 ∧ covered 0x2FFF#64 3#2 ∧ ¬ covered 0x3000#64 3#2 ∧ ¬ covered 0x1FFF#64 3#2 ∧
    ¬ covered 0x2000#64 0#2 := by decide

theorem witness_LinearAddress : Seg.ss ≠ .fs ∧ Seg.ss ≠ .gs := by decide

end Sys2Proof.Tests
end

/-! PROOFS of the family 00_scope.md: what runs outside the modes of the spec, the effective address of `Mode32`, and
the invariant of the machine, which every instruction keeps. -/

namespace Sys2Proof.Machine

/-! ## Outside the modes of the spec -/

/-- The spec has no mode for the state exactly where protected mode is off or the mode field is none of its two (R6). -/
theorem modelledMode_eq_none {s : State} :
    s.modelledMode = none ↔ s.cr0PE = false ∨ ∀ m, s.mode ≠ .running m := by
  unfold State.modelledMode
  cases s.mode <;> simp

theorem step_of_unmodelledMode {s : State} (h : s.modelledMode = none) : step s = .refused .unmodelledMode := by
  rw [step, h]

/-- The mode is the first thing every instruction tests (R119). -/
theorem exec_of_unmodelledMode {s : State} (h : s.modelledMode = none) (i : Instr) :
    exec i s = .refused .unmodelledMode := by
  rw [exec_eq, prologue_eq_refused.mpr ⟨h, rfl⟩, andThen_refused]

/-- Settles O19: the step and every instruction test the mode first, and after power-up it is real-address mode. -/
theorem otherModesRefused : Obligations.OtherModesRefused := by
  refine ⟨fun s h => ?_, step_of_unmodelledMode rfl⟩
  have hm := modelledMode_eq_none.mpr h
  exact ⟨step_of_unmodelledMode hm, exec_of_unmodelledMode hm⟩

/-! ## The effective address in `Mode32`

Truncation to 32 bits commutes with the sum, the product and the sign extension, so the reduced 64-bit sum is the sum
of the low halves. -/

/-- The low bits of a sign extension are the sign extension to fewer bits. -/
theorem setWidth_signExtend {w v i : Nat} (x : BitVec w) (h : i ≤ v) :
    (x.signExtend v).setWidth i = x.signExtend i := by
  apply BitVec.eq_of_getLsbD_eq
  intro j hj
  simp [BitVec.getElem_signExtend, hj, Nat.lt_of_lt_of_le hj h]

theorem effectiveAddress_mode32 (pfx : List Prefix) (len n : Nat) (a : MemAddr) (s : State) :
    effectiveAddress .mode32 pfx len n a s =
      ((addressSum .mode32 true (s.rip + BitVec.ofNat 64 len) n s a).setWidth 32).setWidth 64 := rfl

@[simp] theorem setWidth_addrReg (narrow : Bool) (s : State) (r : GReg) :
    (addrReg narrow s r).setWidth 32 = (s.readGpr r).setWidth 32 := by
  cases narrow <;> simp [addrReg]

@[simp] theorem scaledIndex_four (narrow : Bool) (s : State) (c : Scale) : scaledIndex narrow s 4#4 c = 0#64 := rfl

theorem setWidth_scaledIndex (narrow : Bool) (s : State) {i : GReg} (c : Scale) (h : i ≠ 4#4) :
    (scaledIndex narrow s i c).setWidth 32 = (s.readGpr i).setWidth 32 * (Scale.factor c).setWidth 32 := by
  rw [scaledIndex, if_neg h, BitVec.setWidth_mul _ _ (by decide), setWidth_addrReg]

/-- The low 32 bits of the displacements of R72. -/
theorem setWidth_dispValue (n : Nat) (d8 : Byte) (d32 : BitVec 32) :
    ∀ d ∈ [(Disp.none, 0#32), (.d8 d8, d8.signExtend 32 * BitVec.ofNat 32 n), (.d32 d32, d32)],
      (dispValue n d.1).setWidth 32 = d.2 := by
  simp [dispValue, BitVec.setWidth_mul, BitVec.setWidth_ofNat_of_le, setWidth_signExtend]

/-- The low 32 bits of the scale factors of R71. -/
theorem setWidth_factor :
    ∀ c ∈ [(Scale.x1, 1#32), (.x2, 2#32), (.x4, 4#32), (.x8, 8#32)], (Scale.factor c.1).setWidth 32 = c.2 := by
  decide

/-- Settles O52: each form's sum, reduced to 32 bits, is the sum of its parts' low halves. -/
theorem effectiveAddressMode32 : Obligations.EffectiveAddressMode32 := by
  intro s pfx len n d8 d32 reg ea
  have low_add (x y : Qword) : (x + y).setWidth 32 = x.setWidth 32 + y.setWidth 32 :=
    BitVec.setWidth_add x y (by decide)
  have low_d32 : (d32.signExtend 64).setWidth 32 = d32 := by
    rw [setWidth_signExtend _ (by decide), BitVec.signExtend_eq]
  refine ⟨fun x b => ?_, fun d hd c hc => ?_⟩
  · simp only [ea, effectiveAddress_mode32, addressSum, low_d32]
  · have hdisp := setWidth_dispValue n d8 d32 d hd
    have hscale := setWidth_factor c hc
    refine ⟨fun b x => ?base, fun b i hi => ?sib, fun b => ?sibNoIndex, fun x i hi => ?noBase, fun x => ?noBaseNoIndex⟩
    all_goals simp only [ea, reg, effectiveAddress_mode32, addressSum, low_add, setWidth_addrReg, hdisp, low_d32]
    case sib | noBase => rw [setWidth_scaledIndex _ _ _ hi, hscale]
    case sibNoIndex | noBaseNoIndex => simp

/-! ## The invariant -/

theorem ZeroFrom.mono {n n' : Nat} {v : Vec} (h : ZeroFrom n v) (hn : n ≤ n') : ZeroFrom n' v :=
  fun i hi => h i (Nat.le_trans hn hi)

/-- A value that keeps the bits from `n` up is no wider than the old one (R22). -/
theorem ZeroFrom.of_keepsFrom {n n' : Nat} {old v : Vec} (h : ZeroFrom n' old) (hk : KeepsFrom n old v)
    (hn : n ≤ n') : ZeroFrom n' v :=
  fun i hi => by rw [hk i (Nat.le_trans hn hi), h i hi]

theorem le_maxVl (c : Config) : 128 ≤ c.maxVl := by
  unfold Config.maxVl
  split_ifs <;> decide

theorem le_maxVl_of_avx {c : Config} (h : c.hasAvx = true) : 256 ≤ c.maxVl := by
  unfold Config.maxVl
  split_ifs <;> decide

theorem maxVl_of_avx512f {c : Config} (h : c.hasAvx512f = true) : c.maxVl = 512 := if_pos h

/-- With consistent flags either flag of the EVEX forms brings AVX512F (R7). -/
theorem avx512f_of_evexFlag {c : Config} {vl : Vl} (hc : c.wf = true) (h : evexFlag vl c = true) :
    c.hasAvx512f = true := by
  cases vl <;> simp_all [evexFlag, Config.wf]

theorem hasAvx_of_udVex {s : State} (h : udVex s = false) : s.cfg.hasAvx = true := by
  simp_all [udVex]

theorem flag_of_udEvex {s : State} {has : Bool} (h : udEvex has s = false) : has = true := by
  simp_all [udEvex]

/-- No instruction that may run has a vector length above MAX_VL (R7, R144). -/
theorem vlOf_le_maxVl {s : State} {i : Instr} (hc : s.cfg.wf = true) (h : udOf s i = false) :
    64 * (vlOf i).kl ≤ s.cfg.maxVl := by
  have evex {vl : Vl} (hu : udEvex (evexFlag vl s.cfg) s = false) : 64 * vl.kl ≤ s.cfg.maxVl := by
    rw [maxVl_of_avx512f (avx512f_of_evexFlag hc (flag_of_udEvex hu))]
    have := vl_kl_le vl
    omega
  cases i with
  | legacyXmm f => exact le_maxVl s.cfg
  | vexXmm f => exact le_maxVl s.cfg
  | vexYmm f => exact le_maxVl_of_avx (hasAvx_of_udVex h)
  | evexXmm f => exact evex h
  | evexYmm f => exact evex h
  | evexZmm f => exact evex h

/-- What an instruction writes is no wider than MAX_VL: the legacy form keeps the old value's bits above 128, the
others clear theirs from VL up (R20, R22). -/
theorem zeroFrom_resultOf {s : State} {i : Instr} (hv : VectorsBounded s) (hl : 64 * (vlOf i).kl ≤ s.cfg.maxVl)
    (a : Vec) : ZeroFrom s.cfg.maxVl (resultOf s a i) := by
  cases i with
  | legacyXmm f => exact (hv _).of_keepsFrom (keepsFrom_legacyResult _ _) hl
  | vexXmm f => exact (zeroFrom_affineInvVec .v128 _ _ _).mono hl
  | vexYmm f => exact (zeroFrom_affineInvVec .v256 _ _ _).mono hl
  | evexXmm f => exact (zeroFrom_evexResult .v128 _ _ _ _).mono hl
  | evexYmm f => exact (zeroFrom_evexResult .v256 _ _ _ _).mono hl
  | evexZmm f => exact (zeroFrom_evexResult .v512 _ _ _ _).mono hl

theorem VectorsBounded.write {s : State} {v : Vec} (h : VectorsBounded s) (hv : ZeroFrom s.cfg.maxVl v) (d : VReg)
    (r : Qword) (n : Nat) : VectorsBounded ((s.writeZmm d v).advance r n) := by
  intro e
  simp only [advance_cfg, writeZmm_cfg, readZmm_advance]
  by_cases he : e = d
  · rwa [he, readZmm_writeZmm]
  · rw [readZmm_writeZmm_ne _ _ _ _ he]
    exact h e

/-- The next address is a legal program counter of its mode (R25). -/
theorem ripLegal_of_nextRip {m : Mode} {len : Nat} {s : State} {r : Qword} (hm : s.modelledMode = some m)
    (hr : nextRip m len s = some r) (d : VReg) (v : Vec) (n : Nat) : RipLegal ((s.writeZmm d v).advance r n) := by
  have legal := nextRip_legal hr
  simp only [RipLegal, advance_mode, writeZmm_mode, modelledMode_eq hm]
  cases m <;> exact legal

/-- Every instruction keeps the invariant. -/
theorem exec_keeps_inv {i : Instr} {s t : State} (h : Inv s) (he : exec i s = .next t) : Inv t := by
  obtain ⟨m, a, r, ⟨hm, hud, -⟩, -, hr, rfl⟩ := exec_eq_next.mp he
  exact {
    cfgWf := h.cfgWf
    vectorsBounded := h.vectorsBounded.write (zeroFrom_resultOf h.vectorsBounded (vlOf_le_maxVl h.cfgWf hud) a.1) _ _ _
    ripLegal := ripLegal_of_nextRip hm hr _ _ _
    memWf := h.memWf
    textWf := h.textWf }

/-- Settles O17: a step that completes is an instruction that completes. -/
theorem stepKeepsInvariant : Obligations.StepKeepsInvariant := by
  intro s t h hs
  obtain ⟨m, i, -, -, he⟩ := step_eq_next.mp hs
  exact exec_keeps_inv h he

end Sys2Proof.Machine

/-! PROOFS of the family 10_state.md: the values after power-up, the bits of the destination above VL, the registers
and flags that play no part, and when a set-up instruction completes. -/

namespace Sys2Proof.Machine

/-! ## Power-up and launch -/

@[simp] theorem readZmm_reset (r : VReg) : State.reset.readZmm r = 0#512 := by
  simp [State.readZmm, State.reset]

@[simp] theorem readK_reset (r : KReg) : State.reset.readK r = 0#64 := by
  simp [State.readK, State.reset]

/-- RDX, number 2, is the one general register that power-up does not clear (R33). -/
theorem readGpr_reset {r : GReg} (h : r ≠ 2#4) : State.reset.readGpr r = 0#64 := by
  have hn : 2 ≠ r.toNat := fun e => h (BitVec.eq_of_toNat_eq e.symm)
  simp [State.readGpr, State.reset, Vector.getElem_set_ne _ _ hn]

/-- Settles O20: the register files by their lemmas, every other field by its definition. -/
theorem powerUpValues : Obligations.PowerUpValues :=
  ⟨readZmm_reset, readK_reset, fun _ h => readGpr_reset h, rfl, rfl, rfl, rfl, rfl, rfl, rfl, rfl, rfl, rfl⟩

/-- After power-up no mode asks anything of `rip`, the vector registers are 0 and both memories are empty. -/
theorem inv_reset : Inv State.reset where
  cfgWf := rfl
  vectorsBounded := fun r i _ => by simp
  ripLegal := trivial
  memWf := ⟨.nil, fun _ h => nomatch h⟩
  textWf := .nil

/-- A launch keeps the invariant where `rip` is an address of `Mode64`, which it enters. -/
theorem Inv.launch {s : State} (h : Inv s) (hr : canonical s.cfg.laBits s.rip = true) : Inv s.launch where
  cfgWf := h.cfgWf
  vectorsBounded := h.vectorsBounded
  ripLegal := hr
  memWf := h.memWf
  textWf := h.textWf

/-- Settles O18: the launch finds FFF0 in `rip`, which is canonical. -/
theorem resetAndLaunchMeetInvariant : Obligations.ResetAndLaunchMeetInvariant :=
  ⟨inv_reset, inv_reset.launch (by decide)⟩

/-! ## The destination -/

/-- What holds of a form's value for every matrix operand holds of the destination after an execution. -/
theorem dest_of_exec {i : Instr} {s t : State} {P : Vec → Prop} (h : exec i s = .next t)
    (hP : ∀ a, P (resultOf s a i)) : P (t.readZmm (destOf i)) := by
  obtain ⟨m, a, r, -, -, -, rfl⟩ := exec_eq_next.mp h
  rw [readZmm_advance, readZmm_writeZmm]
  exact hP a.1

/-- Settles O23: each form's value has the upper bits R22 asks for, whatever its matrix operand. -/
theorem destinationUpperBits : Obligations.DestinationUpperBits := by
  intro i s t h
  have dest (P : Vec → Prop) := dest_of_exec (P := P) h
  cases i with
  | legacyXmm f => exact dest (KeepsFrom 128 (s.readZmm (vreg16 f.dest))) fun _ => keepsFrom_legacyResult _ _
  | vexXmm f => exact dest (ZeroFrom 128) fun _ => zeroFrom_affineInvVec .v128 _ _ _
  | vexYmm f => exact dest (ZeroFrom 256) fun _ => zeroFrom_affineInvVec .v256 _ _ _
  | evexXmm f => exact dest (ZeroFrom 128) fun _ => zeroFrom_evexResult .v128 _ _ _ _
  | evexYmm f => exact dest (ZeroFrom 256) fun _ => zeroFrom_evexResult .v256 _ _ _ _
  | evexZmm f => exact dest (ZeroFrom 512) fun _ => zeroFrom_evexResult .v512 _ _ _ _

/-! ## Opmask registers -/

/-- No matrix operand depends on an opmask register (R47: the whole operand is read whatever the mask). -/
theorem matrixOf_withK (m : Mode) (s : State) (k' : Vector Qword 8) (i : Instr) :
    matrixOf m { s with k := k' } i = matrixOf m s i := by
  cases i <;> rfl

/-- Opmask registers that agree on the writemask's bits below `n` select the same bytes below `n`. -/
theorem selected_withK {s : State} {k' : Vector Qword 8} {mask : Masking} {n : Nat}
    (h : ∀ k, mask = .merging k ∨ mask = .zeroing k → (k'[k.toNat]).getLsbD n = (s.readK k).getLsbD n) :
    selected { s with k := k' } mask n = selected s mask n := by
  cases mask with
  | unmasked => rfl
  | merging k => exact h k (.inl rfl)
  | zeroing k => exact h k (.inr rfl)

/-- What an EVEX form writes depends on bits VL/8-1:0 of the writemask only (R23, R117). -/
theorem evexValue_withK {vl : Vl} {s : State} {k' : Vector Qword 8} {f : EvexForm} (a : Vec)
    (h : ∀ k, f.mask = .merging k ∨ f.mask = .zeroing k → ∀ n < vl.bytes,
      (k'[k.toNat]).getLsbD n = (s.readK k).getLsbD n) :
    evexValue vl { s with k := k' } f a = evexValue vl s f a :=
  assemble_congr _ _ _ _ _ fun n hn => by
    rw [selected_withK fun k hk => h k hk n hn]
    rfl

/-- An instruction whose value does not depend on the opmask registers completes the same whatever they hold. -/
theorem exec_withK {i : Instr} {s t : State} {k' : Vector Qword 8}
    (hv : ∀ a, resultOf { s with k := k' } a i = resultOf s a i) (h : exec i s = .next t) :
    exec i { s with k := k' } = .next { t with k := k' } := by
  obtain ⟨m, a, r, hp, ha, hr, rfl⟩ := exec_eq_next.mp h
  refine exec_eq_next.mpr ⟨m, a, r, ?checks, (matrixOf_withK m s k' i).trans ha, hr, by rw [hv]; rfl⟩
  case checks => cases i <;> exact hp

/-- Settles O33: the opmask registers act through the value written alone. -/
theorem maskBitsAboveIgnored : Obligations.MaskBitsAboveIgnored := by
  intro f s t k' i hi hk h
  refine exec_withK (fun a => ?_) h
  simp only [List.mem_cons, List.not_mem_nil, or_false] at hi
  obtain rfl | rfl | rfl := hi
  · exact evexValue_withK (vl := .v128) a hk
  · exact evexValue_withK (vl := .v256) a hk
  · exact evexValue_withK (vl := .v512) a hk

/-! ## RFLAGS and MXCSR -/

/-- The state with other values in RFLAGS and MXCSR. -/
def State.withFlags (s : State) (fl : Qword) (mx : BitVec 32) : State := { s with rflags := fl, mxcsr := mx }

theorem matrixOf_withFlags (m : Mode) (s : State) (fl : Qword) (mx : BitVec 32) (i : Instr) :
    matrixOf m (s.withFlags fl mx) i = matrixOf m s i := by
  cases i <;> rfl

theorem prologue_withFlags (s : State) (fl : Qword) (mx : BitVec 32) (i : Instr) :
    prologue (udOf (s.withFlags fl mx) i) (s.withFlags fl mx) = prologue (udOf s i) s := by
  cases i <;> rfl

theorem resultOf_withFlags (s : State) (fl : Qword) (mx : BitVec 32) (a : Vec) (i : Instr) :
    resultOf (s.withFlags fl mx) a i = resultOf s a i := by
  cases i <;> rfl

theorem finish_withFlags (m : Mode) (len : Nat) (d : VReg) (v : Vec) (n : Nat) (s : State) (fl : Qword)
    (mx : BitVec 32) :
    finish m len d v n (s.withFlags fl mx) = andThen (finish m len d v n s) fun t => .next (t.withFlags fl mx) := by
  have hr : nextRip m len (s.withFlags fl mx) = nextRip m len s := rfl
  unfold finish
  rw [hr]
  cases nextRip m len s <;> rfl

/-- An execution commutes with a change of RFLAGS and MXCSR (R26, R27). -/
theorem exec_withFlags (i : Instr) (s : State) (fl : Qword) (mx : BitVec 32) :
    exec i (s.withFlags fl mx) = andThen (exec i s) fun t => .next (t.withFlags fl mx) := by
  simp only [exec_eq, prologue_withFlags, matrixOf_withFlags, resultOf_withFlags, finish_withFlags]
  cases prologue (udOf s i) s with
  | fault e => rfl
  | refused e => rfl
  | next m => cases h : matrixOf m s i <;> simp [h]

/-- An execution that completes has the frame of R120. -/
theorem onlyDestChanged_of_exec {i : Instr} {s t : State} (h : exec i s = .next t) :
    OnlyDestChanged (destOf i) s t := by
  obtain ⟨m, a, r, -, -, -, rfl⟩ := exec_eq_next.mp h
  exact onlyDestChanged_write _ _ _ _ _

/-- Settles O46: every outcome goes through the commutation, and the frame keeps both registers. -/
theorem flagsAndMxcsrUntouched : Obligations.FlagsAndMxcsrUntouched := by
  intro i s fl mx
  have commutes := exec_withFlags i s fl mx
  refine ⟨fun t h => ?completed, fun e h => ?faulted, fun e h => ?refused⟩
  case completed =>
    have frame := onlyDestChanged_of_exec h
    exact ⟨frame.rflags, frame.mxcsr, by rwa [h] at commutes⟩
  all_goals rwa [h] at commutes

/-! ## Completion -/

/-- Where `rip + len` stays in range it is the next address (R25). -/
theorem nextRip_of_canAdvance {m : Mode} {len : Nat} {s : State} (h : CanAdvance m len s) :
    nextRip m len s = some (s.rip + BitVec.ofNat 64 len) := by
  cases m <;> exact nextRip_of_fits h

/-- Where it does not there is none (R25). -/
theorem nextRip_of_not_canAdvance {m : Mode} {len : Nat} {s : State} (h : ¬ CanAdvance m len s) :
    nextRip m len s = none := by
  cases m <;> exact nextRip_of_not_fits h

/-- A register operand, or a memory operand that is aligned and readable, can be had. -/
theorem matrixOf_of_ready {m : Mode} {s : State} {i : Instr} (h : OperandReady m s i) :
    ∃ a, matrixOf m s i = .next a := by
  cases hmo : memOperandOf m s i with
  | none =>
    obtain ⟨r, hr⟩ := matrixOf_of_register hmo
    exact ⟨_, hr⟩
  | some p =>
    obtain ⟨g, ea, n⟩ := p
    obtain ⟨aligned, readable⟩ := h g ea n hmo
    obtain ⟨-, spread, hs⟩ := matrixOf_of_memory hmo aligned
    exact ⟨_, by rw [hs, memRead_eq_next.mpr ⟨readable, rfl⟩, andThen_next]⟩

/-- An instruction that is set up and whose operand can be had is its completion. -/
theorem exec_of_ready {m : Mode} {s : State} {i : Instr} (hm : s.modelledMode = some m) (he : Enabled s i)
    (ho : OperandReady m s i) : ∃ v n, exec i s = finish m i.len (destOf i) v n s := by
  obtain ⟨a, ha⟩ := matrixOf_of_ready ho
  exact ⟨_, _, by rw [exec_eq, prologue_of_enabled hm he, andThen_next, ha, andThen_next]⟩

/-- Settles O42: what is left of the execution is its completion, which the next address alone decides. -/
theorem completesUnlessRipWraps : Obligations.CompletesUnlessRipWraps := by
  intro s m i hm he ho
  obtain ⟨v, n, hx⟩ := exec_of_ready hm he ho
  rw [hx]
  refine ⟨fun h => ⟨_, finish_eq_next.mpr ⟨_, nextRip_of_canAdvance h, rfl⟩⟩, fun h => ?_⟩
  exact finish_eq_refused.mpr ⟨nextRip_of_not_canAdvance h, rfl⟩

end Sys2Proof.Machine

/-! PROOFS of the family 20_memory.md: the linear address of an operand byte and its translation, what the memory read
of a form answers and what it depends on, and the prefixes that raise #UD. -/

namespace Sys2Proof

/-! ## Forbidden prefixes

The fixed bytes of an encoding are decoded as in `Laws/Window`; what is left is that the prefixes before them make the
verdict #UD. -/

theorem length_encode (i : Instr) : (encode i).length = i.len := by
  cases i with
  | legacyXmm f => exact Laws.EncodedLength.legacyXmm f
  | vexXmm f => exact Laws.EncodedLength.vexXmm f
  | vexYmm f => exact Laws.EncodedLength.vexYmm f
  | evexXmm f => exact Laws.EncodedLength.evexXmm f
  | evexYmm f => exact Laws.EncodedLength.evexYmm f
  | evexZmm f => exact Laws.EncodedLength.evexZmm f

/-- 66, F2, F3, LOCK and REX are the prefixes that raise #UD before C4 and 62 (R66). -/
theorem any_badBeforeVex {pfx : List Prefix}
    (h : .opSize ∈ pfx ∨ .repne ∈ pfx ∨ .rep ∈ pfx ∨ .lock ∈ pfx ∨ ∃ b, .rex b ∈ pfx) :
    pfx.any Prefix.badBeforeVex = true := by
  rw [List.any_eq_true]
  obtain h | h | h | h | ⟨b, h⟩ := h <;> exact ⟨_, h, rfl⟩

/-- A well-formed legacy form has a spelt operand, no extension bits without REX, and REX in `Mode64` only. -/
theorem LegacyForm.operand_and_rex_of_wellFormed {m : Mode} {f : LegacyForm} (h : f.wellFormed m = true) :
    f.src2.ok = true ∧ (f.rexW = none → f.noExt = true) ∧ (f.rexW ≠ none → m = .mode64) := by
  simp only [wellFormed, fieldsOk, Bool.and_eq_true] at h
  obtain ⟨⟨⟨-, ho⟩, hrex⟩, -⟩ := h
  refine ⟨ho, ?_⟩
  cases hw : f.rexW with
  | none => simp_all
  | some w => simpa [hw] using hrex

/-- Apart from REX bytes a legacy form has no prefixes but those it lists. -/
theorem LegacyForm.mem_allPrefixes {f : LegacyForm} {p : Prefix} (hp : ∀ b, p ≠ .rex b) :
    p ∈ f.allPrefixes ↔ p ∈ f.pfx := by
  cases hw : f.rexW <;> simp [allPrefixes, hw, hp]

/-- A REX byte in force exists in `Mode64` only, so the prefixes exist in the mode if those listed do. -/
theorem LegacyForm.allPrefixes_existsIn {m : Mode} {f : LegacyForm} (he : ∀ p ∈ f.pfx, p.existsIn m)
    (hr : f.rexW ≠ none → m = .mode64) : ∀ p ∈ f.allPrefixes, p.existsIn m := by
  intro p hp
  rcases List.mem_append.mp hp with hp | hp
  · exact he p hp
  · cases hw : f.rexW with
    | none => simp [hw] at hp
    | some w => exact fun _ _ => hr (by simp [hw])

/-- The REX byte in force, or none, holds the extension bits X and B of the r/m operand (R63). -/
theorem rexBits_allPrefixes {f : LegacyForm} (hr : f.rexW = none → f.noExt = true ∧ endsInRex f.pfx = false) :
    (((splitRex f.allPrefixes).2).getD 0#4).getLsbD 1 = f.src2.xBit ∧
    (((splitRex f.allPrefixes).2).getD 0#4).getLsbD 0 = f.src2.bBit := by
  cases hw : f.rexW with
  | none =>
    obtain ⟨hext, hend⟩ := hr hw
    simp only [LegacyForm.noExt, Bool.and_eq_true, Bool.not_eq_true'] at hext
    obtain ⟨⟨-, hx⟩, hb⟩ := hext
    simp [LegacyForm.allPrefixes, hw, splitRex_none hend, hx, hb]
  | some w =>
    obtain ⟨hb, hx, -, -⟩ := rex_bits w (ext3 f.dest) f.src2.xBit f.src2.bBit
    simp only [LegacyForm.allPrefixes, hw, splitRex_append, Option.getD_some]
    exact ⟨hx, hb⟩

/-- A legacy form with LOCK among its prefixes, none of which makes it a refused encoding (R54). -/
theorem decodeWindow_legacy_lock {m : Mode} {f : LegacyForm} (ho : f.src2.ok = true)
    (he : ∀ p ∈ f.allPrefixes, p.existsIn m)
    (hr : f.rexW = none → f.noExt = true ∧ endsInRex f.pfx = false) (hlock : .lock ∈ f.pfx)
    (h66 : .opSize ∈ f.pfx) (hrep : .rep ∉ f.pfx) (hrepne : .repne ∉ f.pfx)
    (h67 : m = .mode32 → .addrSize ∉ f.pfx) (rest : List Byte) :
    decodeWindow m (f.encode ++ rest) = some (.error .undefinedOpcode) := by
  have listed {p : Prefix} (hp : ∀ b, p ≠ .rex b) := LegacyForm.mem_allPrefixes (f := f) hp
  obtain ⟨hx, hb⟩ := rexBits_allPrefixes hr
  obtain ⟨rm, htake, -⟩ := takeOperands_rm ho (low3 f.dest) f.imm rest
  have hl : f.allPrefixes.contains .lock = true := by simpa using (listed (by simp)).mpr hlock
  rw [encode_legacy]
  simp only [List.append_assoc, List.cons_append, List.nil_append]
  rw [decodeWindow_legacy he]
  refine (decodeLegacy_fixed ((listed (by simp)).mpr h66) (mt (listed (by simp)).mp hrep)
    (mt (listed (by simp)).mp hrepne) (fun hm => mt (listed (by simp)).mp (h67 hm))
    (f.src2.bytes (low3 f.dest) ++ f.imm :: rest)).trans ?_
  simp only [hx, hb, htake, hl, Option.map_some, if_true]

/-- In `Mode32` bits 7:6 of the byte after C4 are 11 in a form without extension bits (R61). -/
theorem vexFixed_escapes {f : VexForm} (h : f.noExt = true) :
    ((BitVec.ofBool (!ext3 f.dest) ++ (BitVec.ofBool (!f.src2.xBit) ++ (BitVec.ofBool (!f.src2.bBit) ++ 3#5)) :
      Byte)).extractLsb' 6 2 = 3#2 := by
  simp only [VexForm.noExt, Bool.and_eq_true, Bool.not_eq_true'] at h
  obtain ⟨⟨⟨hr, -⟩, hx⟩, hb⟩ := h
  rw [hr, hx, hb]
  decide

/-- In `Mode32` bits 7:6 of the byte after 62 are 11 in a form without extension bits (R61). -/
theorem evexFixed_escapes {f : EvexForm} (h : f.noExt = true) :
    ((BitVec.ofBool (!ext3 f.dest) ++ (BitVec.ofBool (!f.src2.xBit) ++ (BitVec.ofBool (!f.src2.bBit) ++
      (BitVec.ofBool (!ext4 f.dest) ++ 3#4))) : Byte)).extractLsb' 6 2 = 3#2 := by
  simp only [EvexForm.noExt, Bool.and_eq_true, Bool.not_eq_true'] at h
  obtain ⟨⟨⟨⟨⟨hr, hr'⟩, -⟩, -⟩, hx⟩, hb⟩ := h
  rw [hr, hr', hx, hb]
  decide

/-- A VEX form with a forbidden byte among its prefixes (R66). -/
theorem decodeWindow_vex_forbidden {m : Mode} (l : Bool) {f : VexForm} (ho : f.src2.ok = true)
    (hext : m = .mode32 → f.noExt = true) (he : ∀ p ∈ f.pfx, p.existsIn m)
    (hbad : f.pfx.any Prefix.badBeforeVex = true) (h67 : m = .mode32 → .addrSize ∉ f.pfx) (rest : List Byte) :
    decodeWindow m (f.encode l ++ rest) = some (.error .undefinedOpcode) := by
  obtain ⟨rm, htake, -⟩ := takeOperands_rm ho (low3 f.dest) f.imm rest
  rw [encode_vex]
  simp only [List.append_assoc, List.cons_append, List.nil_append]
  refine (decodeWindow_vex he (fun hm => vexFixed_escapes (hext hm)) _).trans ?_
  refine (decodeVex_fixed l hext h67 _).trans ?_
  simp only [htake, hbad, Option.map_some, if_true]

/-- An EVEX form with a forbidden byte among its prefixes (R66). -/
theorem decodeWindow_evex_forbidden {m : Mode} (ll : BitVec 2) {f : EvexForm} (ho : f.src2.ok = true)
    (hk : f.mask.ok = true) (hext : m = .mode32 → f.noExt = true) (he : ∀ p ∈ f.pfx, p.existsIn m)
    (hbad : f.pfx.any Prefix.badBeforeVex = true) (h67 : m = .mode32 → .addrSize ∉ f.pfx) (rest : List Byte) :
    decodeWindow m (f.encode ll ++ rest) = some (.error .undefinedOpcode) := by
  obtain ⟨rm, htake, -⟩ := takeOperands_evexRm ho (low3 f.dest) f.imm rest
  rw [encode_evex]
  simp only [List.append_assoc, List.cons_append, List.nil_append]
  refine (decodeWindow_evex he (fun hm => evexFixed_escapes (hext hm)) _).trans ?_
  refine (decodeEvex_fixed ll hk hext h67 _).trans ?_
  simp only [htake, hbad, Option.map_some, if_true]

end Sys2Proof

namespace Sys2Proof.Machine

/-- Where the bytes of an instruction stand at `rip` and decode to #UD whatever follows them, the step raises #UD. -/
theorem step_of_undefined {s : State} {m : Mode} {i : Instr} (hm : s.modelledMode = some m) (hl : i.len ≤ 15)
    (ht : HoldsText m s (encode i))
    (hd : ∀ rest, decodeWindow m (encode i ++ rest) = some (.error .undefinedOpcode)) : step s = .fault .ud :=
  step_of_rejected hm ((length_encode i).trans_le hl) ht hd

/-- Settles O13: each encoding's fixed bytes are read as without the forbidden byte, whose verdict comes last. -/
theorem forbiddenPrefixRaisesUd : Obligations.ForbiddenPrefixRaisesUd := by
  refine ⟨?legacy, ?vex, ?evex⟩
  case legacy =>
    intro s m f pfx hm hwf he hlock h66 hrep hrepne h67 hend hl ht
    obtain ⟨ho, hext, hrex⟩ := LegacyForm.operand_and_rex_of_wellFormed hwf
    let g : LegacyForm := { f with pfx := pfx }
    have existsIn : ∀ p ∈ g.allPrefixes, p.existsIn m := LegacyForm.allPrefixes_existsIn he hrex
    exact step_of_undefined (i := .legacyXmm g) hm hl ht <|
      decodeWindow_legacy_lock ho existsIn (fun hn => ⟨hext hn, hend hn⟩) hlock h66 hrep hrepne h67
  case vex =>
    intro s m f pfx hm hwf he hbad h67 i hi hl ht
    simp only [VexForm.wellFormed, VexForm.fieldsOk, Bool.and_eq_true, Bool.or_eq_true, beq_iff_eq] at hwf
    obtain ⟨⟨⟨-, ho⟩, hmode⟩, -⟩ := hwf
    have forbidden (l : Bool) := decodeWindow_vex_forbidden (f := { f with pfx := pfx }) l ho
      (by rintro rfl; exact hmode.resolve_left nofun) he (any_badBeforeVex hbad) h67
    refine step_of_undefined hm hl ht ?_
    simp only [List.mem_cons, List.not_mem_nil, or_false] at hi
    obtain rfl | rfl := hi
    · exact forbidden false
    · exact forbidden true
  case evex =>
    intro s m f pfx hm hwf he hbad h67 i hi hl ht
    simp only [EvexForm.wellFormed, EvexForm.fieldsOk, Bool.and_eq_true, Bool.or_eq_true, beq_iff_eq] at hwf
    obtain ⟨⟨⟨⟨-, ho⟩, hk⟩, hmode⟩, -⟩ := hwf
    have forbidden (ll : BitVec 2) := decodeWindow_evex_forbidden (f := { f with pfx := pfx }) ll ho hk
      (by rintro rfl; exact hmode.resolve_left nofun) he (any_badBeforeVex hbad) h67
    refine step_of_undefined hm hl ht ?_
    simp only [List.mem_cons, List.not_mem_nil, or_false] at hi
    obtain rfl | rfl | rfl := hi
    · exact forbidden 0#2
    · exact forbidden 1#2
    · exact forbidden 2#2

/-! ## What a step writes -/

/-- Settles O22: a step that completes is an execution that completes, and its frame holds both memories. -/
theorem noStepWritesMemory : Obligations.NoStepWritesMemory := by
  intro s t h
  obtain ⟨m, i, -, -, he⟩ := step_eq_next.mp h
  have frame := onlyDestChanged_of_exec he
  exact ⟨frame.mem, frame.memBytes, frame.text⟩

/-! ## The canonical test -/

/-- Bits `lo` to `lo + n - 1` of `a` are those of a constant value exactly where each of them is its bit. -/
theorem extractLsb'_eq_const {w : Nat} (a : BitVec w) (lo : Nat) {n : Nat} {v : BitVec n} {b : Bool}
    (hv : ∀ j < n, v.getLsbD j = b) :
    a.extractLsb' lo n = v ↔ ∀ i, lo ≤ i → i < lo + n → a.getLsbD i = b := by
  constructor
  · intro h i hlo hi
    have hbit : (a.extractLsb' lo n).getLsbD (i - lo) = b := by rw [h, hv _ (by omega)]
    simpa [show i - lo < n by omega, Nat.add_sub_cancel' hlo] using hbit
  · intro h
    refine BitVec.eq_of_getLsbD_eq fun j hj => ?_
    rw [hv j hj, BitVec.getLsbD_extractLsb', decide_eq_true hj, Bool.true_and, h (lo + j) (by omega) (by omega)]

/-- The test passes exactly where the bits from LA_BITS - 1 up are all one and the same bit (R40). -/
theorem canonical_iff {la : LaBits} {a : Qword} :
    canonical la a = true ↔ ∃ b, ∀ i, la.bits - 1 ≤ i → i < 64 → a.getLsbD i = b := by
  have top : la.bits - 1 + (65 - la.bits) = 64 := by cases la <;> rfl
  have zeros := extractLsb'_eq_const a (la.bits - 1) (n := 65 - la.bits) (v := 0#_) fun _ _ => BitVec.getLsbD_zero
  have ones := extractLsb'_eq_const a (la.bits - 1) (n := 65 - la.bits) (v := BitVec.allOnes _) (b := true)
    fun j hj => by simpa using hj
  rw [top] at zeros ones
  simp only [canonical, Bool.or_eq_true, decide_eq_true_eq, zeros, ones, Bool.exists_bool]

/-- Settles O53: the bit all of them share is bit 63. -/
theorem canonicalAddress : Obligations.CanonicalAddress := by
  refine ⟨fun la a => canonical_iff.trans ⟨?shared, fun h => ⟨_, h⟩⟩, rfl, rfl⟩
  have top : la.bits - 1 ≤ 63 := by cases la <;> decide
  rintro ⟨b, h⟩ i hlo hi
  rw [h i hlo hi, h 63 top (by decide)]

/-! ## Segments -/

/-- Prefixes that override nothing in the mode leave the default segment (R57). -/
theorem operandSeg_of_no_override {m : Mode} {pfx : List Prefix} (h : ∀ p ∈ pfx, Prefix.override m p = none)
    (a : MemAddr) : operandSeg m pfx a = defaultSeg a := by
  simp [operandSeg, List.filterMap_eq_nil_iff.mpr h]

/-- An override that none in force follows selects its segment (R57). -/
theorem operandSeg_of_last_override {m : Mode} {q : Prefix} {g : Seg} {rest : List Prefix}
    (hq : Prefix.override m q = some g) (h : ∀ p ∈ rest, Prefix.override m p = none) (pfx : List Prefix) (a : MemAddr) :
    operandSeg m (pfx ++ [q] ++ rest) a = g := by
  simp [operandSeg, List.filterMap_append, hq, List.filterMap_eq_nil_iff.mpr h]

/-- In `Mode64` only FS and GS override (R57). -/
theorem override_mode64 {p : Prefix} (hfs : p ≠ .seg .fs) (hgs : p ≠ .seg .gs) :
    Prefix.override .mode64 p = none := by
  cases p with
  | seg g => cases g <;> simp_all [Prefix.override]
  | _ => rfl

/-- In `Mode32` every segment override counts (R57). -/
theorem override_seg_mode32 (g : Seg) : Prefix.override .mode32 (.seg g) = some g := by cases g <;> rfl

/-- Prefixes that name no segment override none. -/
theorem override_of_ne_seg {m : Mode} {p : Prefix} (h : ∀ g, p ≠ .seg g) : Prefix.override m p = none := by
  cases p with
  | seg g => exact absurd rfl (h g)
  | _ => rfl

/-- In `Mode64` only FS and GS have a base (R58). -/
theorem segBase_mode64 {s : State} {g : Seg} (hfs : g ≠ .fs) (hgs : g ≠ .gs) : segBase .mode64 s g = 0#64 := by
  cases g with
  | fs => exact absurd rfl hfs
  | gs => exact absurd rfl hgs
  | _ => rfl

theorem segCheck_mode32 {s : State} {g : Seg} {off : Qword} :
    segCheck .mode32 s g off = true ↔
      (s.segs.get g).usable = true ∧ (s.segs.get g).executeOnly = false ∧
      ∃ r ∈ (s.segs.get g).limit, r.first.toNat ≤ off.toNat ∧ off.toNat ≤ r.last.toNat := by
  simp [segCheck, OffsetRange.holds, and_assoc]

/-- Settles O51: which prefixes override in each mode, and the last of them. -/
theorem segmentSelection : Obligations.SegmentSelection := by
  refine ⟨fun m b x i c d => ⟨rfl, rfl⟩, fun m x b i c d => ⟨rfl, rfl⟩, ?ignored, ?last64, ?last32,
    fun s g => segBase_mode64, fun s g off => rfl, fun s g off => segCheck_mode32⟩
  case ignored =>
    intro m pfx a h
    refine operandSeg_of_no_override (fun p hp => ?_) a
    by_cases hseg : ∃ g, p = .seg g
    · obtain ⟨g, rfl⟩ := hseg
      obtain ⟨rfl, hfs, hgs⟩ := h _ hp g rfl
      exact override_mode64 (by simpa using hfs) (by simpa using hgs)
    · exact override_of_ne_seg (not_exists.mp hseg)
  case last64 =>
    intro pfx rest a g hg hrest
    refine operandSeg_of_last_override ?_ (fun p hp => override_mode64 (hrest p hp).1 (hrest p hp).2) pfx a
    obtain rfl | rfl := hg <;> rfl
  case last32 =>
    intro pfx rest a g hrest
    exact operandSeg_of_last_override (override_seg_mode32 g) (fun p hp => override_of_ne_seg (hrest p hp)) pfx a

/-! ## The address of an operand -/

/-- With 64-bit addresses an 8-bit displacement counts `n` (R72, R74). -/
theorem effectiveAddress_base_d8 {pfx : List Prefix} (h : pfx.contains .addrSize = false) (len n : Nat) (b : GReg)
    (x : Bool) (d : Byte) (s : State) :
    effectiveAddress .mode64 pfx len n (.base b x (.d8 d)) s =
      s.readGpr b + d.signExtend 64 * BitVec.ofNat 64 n := by
  have narrow : addr32 .mode64 pfx = false := by rw [addr32, h]; rfl
  simp [effectiveAddress, narrow, addressSum, addrReg, dispValue]

/-- Settles O50: the base register gives the segment, each form its scale and its size. -/
theorem disp8Scaling : Obligations.Disp8Scaling := by
  intro s b x d imm r4 q4 r q k a g at_
  have segment (pfx : List Prefix) (h : ∀ p ∈ pfx, Prefix.override .mode64 p = none) :
      operandSeg .mode64 pfx a = g := operandSeg_of_no_override h a
  have address (pfx : List Prefix) (h : pfx.contains .addrSize = false) (len n : Nat) :
      effectiveAddress .mode64 pfx len n a s = at_ (BitVec.ofNat 64 n) := effectiveAddress_base_d8 h len n b x d s
  have noPrefix := segment [] nofun
  have only66 := segment [.opSize] (by simp [Prefix.override])
  simp only [memOperandOf, noPrefix, only66, address [] rfl, address [.opSize] rfl, and_self]

/-- In `Mode64` nothing is cut off (R10, R42). -/
theorem linearAt_mode64 (s : State) (g : Seg) (ea : Qword) (k : Nat) :
    linearAt .mode64 s g ea k = segBase .mode64 s g + (ea + BitVec.ofNat 64 k) := rfl

/-- The 32-bit offset of byte `k` in `Mode32` (R42). -/
theorem offsetAt_mode32 (ea : Qword) (k : Nat) :
    offsetAt .mode32 ea k = (ea.setWidth 32 + BitVec.ofNat 32 k).setWidth 64 := by
  rw [offsetAt, wrapAddr, BitVec.setWidth_add _ _ (by decide), BitVec.setWidth_ofNat_of_le (by decide)]

/-- In `Mode32` base and offset are added modulo 2^32 (R42, R58). -/
theorem linearAt_mode32 (s : State) (g : Seg) (ea : Qword) (k : Nat) :
    linearAt .mode32 s g ea k =
      ((s.segs.get g).base.setWidth 32 + (ea.setWidth 32 + BitVec.ofNat 32 k)).setWidth 64 := by
  have low (v : BitVec 32) : (v.setWidth 64).setWidth 32 = v := by simp
  rw [linearAt, offsetAt_mode32, segBase, wrapAddr, BitVec.setWidth_add _ _ (by decide), low, low]

/-- In `Mode64` a byte is legal where its address is canonical (R42, R58). -/
theorem byteLegal_mode64 (s : State) (g : Seg) (ea : Qword) (k : Nat) :
    byteLegal .mode64 s g ea k = canonical s.cfg.laBits (linearAt .mode64 s g ea k) := rfl

/-- In `Mode32` a byte is legal where its offset passes the segment check (R42, R58). -/
theorem byteLegal_mode32 (s : State) (g : Seg) (ea : Qword) (k : Nat) :
    byteLegal .mode32 s g ea k = segCheck .mode32 s g (offsetAt .mode32 ea k) := Bool.and_true _

/-- Settles O54: each mode's lemma, with the base of the segment. -/
theorem linearAddress : Obligations.LinearAddress := by
  intro s g ea k
  refine ⟨linearAt_mode64 s .fs ea k, linearAt_mode64 s .gs ea k, fun hfs hgs => ?_, linearAt_mode32 s g ea k,
    byteLegal_mode64 s g ea k, ?_, fun m => rfl⟩
  · rw [linearAt_mode64, segBase_mode64 hfs hgs, BitVec.zero_add]
  · rw [byteLegal_mode32, offsetAt_mode32]

/-! ## Translation -/

/-- Settles O43: the code is a bitwise or of bits 0, 2, 3 and 5, each by its own condition. -/
theorem pageFaultCodeBits : Obligations.PageFaultCodeBits := by
  intro ⟨protection, reservedBit, protectionKey⟩ cpl
  revert protection reservedBit protectionKey cpl
  decide

theorem Mapping.covers_iff {r : Mapping} {lin : Nat} {cpl : BitVec 2} :
    r.covers lin cpl = true ↔ r.base ≤ lin ∧ lin < r.base + r.size ∧ cpl ∈ r.cpls := by
  simp [Mapping.covers, and_assoc]

/-- The first row answers where it covers the address (R51). -/
theorem translate_cons_of_covers {r : Mapping} {lin : Qword} {cpl : BitVec 2} (h : r.covers lin.toNat cpl = true)
    (rows : List Mapping) : translate (.table (r :: rows)) lin cpl = r.answer lin.toNat cpl := by
  simp [translate, h]

/-- Where it does not, the other rows do (R51). -/
theorem translate_cons_of_not_covers {r : Mapping} {lin : Qword} {cpl : BitVec 2} (h : ¬ r.covers lin.toNat cpl = true)
    (rows : List Mapping) : translate (.table (r :: rows)) lin cpl = translate (.table rows) lin cpl := by
  simp [translate, h]

/-- An absent page's code has U/S alone (R51). -/
theorem code_absent (cpl : BitVec 2) : PfCause.absent.code cpl = if cpl = 3#2 then 4#32 else 0#32 := by
  revert cpl; decide

/-- Settles O55: by whether the first row covers the address. -/
theorem translateAnswers : Obligations.TranslateAnswers := by
  intro lin cpl
  refine ⟨rfl, congrArg Translated.fault (code_absent cpl), fun base size cpls rows => ?_⟩
  refine ⟨?_, ?_, ?_⟩
  · exact fun phys kind h => translate_cons_of_covers (Mapping.covers_iff.mpr h) rows
  · exact fun c h => translate_cons_of_covers (Mapping.covers_iff.mpr h) rows
  · exact fun access h => translate_cons_of_not_covers (mt Mapping.covers_iff.mp h) rows

/-! ## What the memory read answers -/

section
variable {m : Mode} {s : State} {g : Seg} {ea : Qword} {n : Nat}

/-- A byte that is not legal comes before everything else (R42, R149). -/
theorem memRead_of_illegal (h : ∃ k < n, byteLegal m s g ea k = false) :
    memRead m s g ea n = .fault (segFault g) := by
  have hl : ¬ (List.range n).all (byteLegal m s g ea) = true := by simpa using h
  rw [memRead, if_neg hl, raise]

/-- A device page is refused once every byte is legal and translates (R49; log entry 10). -/
theorem memRead_of_device (hl : ∀ k < n, byteLegal m s g ea k = true)
    (ht : ∀ k < n, ∃ phys kind, byteTranslated m s g ea k = .ok phys kind)
    (hd : ∃ k < n, ∃ phys, byteTranslated m s g ea k = .ok phys .device) :
    memRead m s g ea n = .refused .deviceMemory := by
  have legal : (List.range n).all (byteLegal m s g ea) = true := by simpa using hl
  have noFault : pageFaults m s g ea n = [] :=
    pageFaults_eq_nil.mpr fun k hk => bytePageFault_eq_none.mpr (ht k hk)
  have device : (List.range n).any (byteHasKind .device m s g ea) = true := by
    simpa [byteHasKind_iff] using hd
  simp only [memRead, legal, noFault, device, if_true]

theorem segFault_eq (g : Seg) : segFault g = if g = .ss then .ss else .gp := by cases g <;> rfl

/-- A read of fewer bytes at the same address is readable too. -/
theorem Readable.mono {n' : Nat} (h : Readable m s g ea n) (hn : n' ≤ n) : Readable m s g ea n' :=
  fun k hk => h k (Nat.lt_of_lt_of_le hk hn)

/-- Quadword 0 of a read is the same whatever its size, from 8 bytes on (R41). -/
theorem qwordAt_operandValue_zero (hn : 8 ≤ n) :
    qwordAt (operandValue m s g ea n) 0 = qwordAt (operandValue m s g ea 8) 0 := by
  refine BitVec.eq_of_getLsbD_eq fun i hi => ?_
  simp only [operandValue, getLsbD_piece, getLsbD_assemble _ 8 (by decide), show 64 * 0 + i < 8 * n by omega,
    show 64 * 0 + i < 8 * 8 by omega]

/-- The value read holds the operand's bytes, lowest address first (R41). -/
theorem holdsOperand_operandValue (hn : n ≤ 64) : HoldsOperand m s g ea n (operandValue m s g ea n) := by
  intro k hk phys ht
  rw [byteAt_operandValue hk hn, byteValue, ht]

end

/-- Settles O44: both reads assemble the same bytes. -/
theorem littleEndianRead : Obligations.LittleEndianRead := by
  intro s m g ea n v hn h
  have size : 8 ≤ n ∧ n ≤ 64 := (by decide : ∀ k ∈ [8, 16, 32, 64], 8 ≤ k ∧ k ≤ 64) n hn
  obtain ⟨hr, rfl⟩ := memRead_eq_next.mp h
  refine ⟨holdsOperand_operandValue size.2, fun _ => ⟨_, memRead_eq_next.mpr ⟨hr.mono size.1, rfl⟩, ?_⟩⟩
  exact (qwordAt_operandValue_zero size.1).symm

/-! ## What an instruction does with its memory operand -/

section
variable {m : Mode} {s : State} {i : Instr} {g : Seg} {ea : Qword} {n : Nat}

/-- A misaligned operand, which the legacy form alone can have, raises #GP(0) before memory is looked at (R44). -/
theorem matrixOf_of_misaligned (h : memOperandOf m s i = some (g, ea, n)) (ha : ¬ OperandAligned m s g ea i) :
    matrixOf m s i = .fault .gp := by
  cases i with
  | legacyXmm f =>
    cases hs : f.src2 <;> simp only [memOperandOf, hs, reduceCtorEq, Option.some.injEq, Prod.mk.injEq] at h
    obtain ⟨rfl, rfl, rfl⟩ := h
    rw [matrixOf, legacyMatrix_mem hs, if_neg (by simpa [aligned16, OperandAligned] using ha), raise]
  | _ => exact absurd trivial ha

/-- A fault of the matrix operand is the fault of an instruction that is set up. -/
theorem exec_of_matrix_fault {e : Fault} (hm : s.modelledMode = some m) (he : Enabled s i)
    (h : matrixOf m s i = .fault e) : exec i s = .fault e :=
  exec_eq_fault.mpr (.inr ⟨m, prologue_of_enabled hm he, h⟩)

/-- An instruction that is set up stops as the read of its aligned operand does. -/
theorem exec_of_read_fault {e : Fault} (hm : s.modelledMode = some m) (he : Enabled s i)
    (hmo : memOperandOf m s i = some (g, ea, n)) (ha : OperandAligned m s g ea i)
    (h : memRead m s g ea n = .fault e) : exec i s = .fault e := by
  obtain ⟨-, spread, hs⟩ := matrixOf_of_memory hmo ha
  exact exec_of_matrix_fault hm he (by rw [hs, h, andThen_fault])

theorem exec_of_read_refused {e : Refusal} (hm : s.modelledMode = some m) (he : Enabled s i)
    (hmo : memOperandOf m s i = some (g, ea, n)) (ha : OperandAligned m s g ea i)
    (h : memRead m s g ea n = .refused e) : exec i s = .refused e := by
  obtain ⟨-, spread, hs⟩ := matrixOf_of_memory hmo ha
  rw [exec_eq, prologue_of_enabled hm he, andThen_next, hs, h, andThen_refused, andThen_refused]

/-- Where the matrix operand can be had, the memory operand was readable. -/
theorem readable_of_matrixOf {a : Vec × Nat} (h : matrixOf m s i = .next a)
    (hmo : memOperandOf m s i = some (g, ea, n)) : Readable m s g ea n := by
  by_cases ha : OperandAligned m s g ea i
  · obtain ⟨-, spread, hs⟩ := matrixOf_of_memory hmo ha
    obtain ⟨v, hv, -⟩ := andThen_eq_next.mp (hs ▸ h)
    exact (memRead_eq_next.mp hv).1
  · simp [matrixOf_of_misaligned hmo ha] at h

end

/-- Settles O36: the alignment is tested before the read. -/
theorem misalignedLegacyRaisesGp : Obligations.MisalignedLegacyRaisesGp :=
  fun _ _ _ _ _ _ hm he hmo ha => exec_of_matrix_fault hm he (matrixOf_of_misaligned hmo ha)

/-- Settles O37: the legality of all bytes is what the read tests first. -/
theorem illegalAddressRaises : Obligations.IllegalAddressRaises := by
  intro s m i g ea n hm he hmo ha hk
  rw [← segFault_eq]
  exact exec_of_read_fault hm he hmo ha (memRead_of_illegal hk)

/-- Settles O41: the read is refused and the instruction with it. -/
theorem deviceOperandRefused : Obligations.DeviceOperandRefused :=
  fun _ _ _ _ _ _ hm he hmo ha hl ht hd => exec_of_read_refused hm he hmo ha (memRead_of_device hl ht hd)

/-! ## What an execution depends on in memory -/

/-- The state with another data memory. -/
def State.withMem (s : State) (mem' : Memory) : State := { s with mem := mem' }

/-- A readable operand reads the same in a memory that agrees on its ordinary bytes; none of them lies on a device
page, and a shared byte is not memory's. -/
theorem memRead_withMem {m : Mode} {s : State} {g : Seg} {ea : Qword} {n : Nat} {mem' : Memory}
    (hr : Readable m s g ea n)
    (h : ∀ k < n, ∀ phys, byteTranslated m s g ea k = .ok phys .ordinary → mem'.read phys = s.mem.read phys) :
    memRead m (s.withMem mem') g ea n = memRead m s g ea n := by
  refine memRead_congr rfl fun k hk => ⟨rfl, rfl, rfl, ?_⟩
  have same : byteTranslated m (s.withMem mem') g ea k = byteTranslated m s g ea k := rfl
  obtain ⟨-, phys, kind, ht, hne⟩ := hr k hk
  simp only [byteValue, same, ht]
  cases kind with
  | ordinary => exact h k hk phys ht
  | shared => rfl
  | device => exact absurd rfl hne

section
variable {m : Mode} {s : State} {mem' : Memory}

theorem legacyMatrix_withMem {f : LegacyForm}
    (h : ∀ a, f.src2 = .mem a →
      memRead m (s.withMem mem') (operandSeg m f.pfx a) (effectiveAddress m f.pfx f.len 1 a s) 16 =
        memRead m s (operandSeg m f.pfx a) (effectiveAddress m f.pfx f.len 1 a s) 16) :
    legacyMatrix m f (s.withMem mem') = legacyMatrix m f s := by
  cases hs : f.src2 with
  | reg r x => rw [legacyMatrix_reg hs, legacyMatrix_reg hs]; rfl
  | mem a => rw [legacyMatrix_mem hs, legacyMatrix_mem hs, ← h a hs]; rfl

theorem vexMatrix_withMem {vl : Vl} {f : VexForm}
    (h : ∀ a, f.src2 = .mem a →
      memRead m (s.withMem mem') (operandSeg m f.pfx a) (effectiveAddress m f.pfx f.len 1 a s) vl.bytes =
        memRead m s (operandSeg m f.pfx a) (effectiveAddress m f.pfx f.len 1 a s) vl.bytes) :
    vexMatrix m vl f (s.withMem mem') = vexMatrix m vl f s := by
  cases hs : f.src2 with
  | reg r x => rw [vexMatrix_reg hs, vexMatrix_reg hs]; rfl
  | mem a => rw [vexMatrix_mem hs, vexMatrix_mem hs, ← h a hs]; rfl

theorem evexMatrix_withMem {vl : Vl} {f : EvexForm}
    (hmem : ∀ a, f.src2 = .mem a →
      memRead m (s.withMem mem') (operandSeg m f.pfx a) (effectiveAddress m f.pfx f.len vl.bytes a s) vl.bytes =
        memRead m s (operandSeg m f.pfx a) (effectiveAddress m f.pfx f.len vl.bytes a s) vl.bytes)
    (hbcst : ∀ a, f.src2 = .bcst a →
      memRead m (s.withMem mem') (operandSeg m f.pfx a) (effectiveAddress m f.pfx f.len 8 a s) 8 =
        memRead m s (operandSeg m f.pfx a) (effectiveAddress m f.pfx f.len 8 a s) 8) :
    evexMatrix m vl f (s.withMem mem') = evexMatrix m vl f s := by
  cases hs : f.src2 with
  | reg r => rw [evexMatrix_reg hs, evexMatrix_reg hs]; rfl
  | mem a => rw [evexMatrix_mem hs, evexMatrix_mem hs, ← hmem a hs]; rfl
  | bcst a => rw [evexMatrix_bcst hs, evexMatrix_bcst hs, ← hbcst a hs]; rfl

/-- The matrix operand depends on memory through the read of the memory operand alone (R43, R46). -/
theorem matrixOf_withMem {i : Instr}
    (h : ∀ g ea n, memOperandOf m s i = some (g, ea, n) →
      memRead m (s.withMem mem') g ea n = memRead m s g ea n) :
    matrixOf m (s.withMem mem') i = matrixOf m s i := by
  cases i with
  | legacyXmm f => exact legacyMatrix_withMem fun a hs => h _ _ _ (by simp only [memOperandOf, hs])
  | vexXmm f => exact vexMatrix_withMem fun a hs => h _ _ _ (by simp only [memOperandOf, hs]; rfl)
  | vexYmm f => exact vexMatrix_withMem fun a hs => h _ _ _ (by simp only [memOperandOf, hs]; rfl)
  | evexXmm f =>
    exact evexMatrix_withMem (fun a hs => h _ _ _ (by simp only [memOperandOf, hs]; rfl))
      fun a hs => h _ _ _ (by simp only [memOperandOf, hs])
  | evexYmm f =>
    exact evexMatrix_withMem (fun a hs => h _ _ _ (by simp only [memOperandOf, hs]; rfl))
      fun a hs => h _ _ _ (by simp only [memOperandOf, hs])
  | evexZmm f =>
    exact evexMatrix_withMem (fun a hs => h _ _ _ (by simp only [memOperandOf, hs]; rfl))
      fun a hs => h _ _ _ (by simp only [memOperandOf, hs])

end

/-- Settles O45: memory acts through the read of the operand alone, which was readable. -/
theorem readsOnlyItsOperand : Obligations.ReadsOnlyItsOperand := by
  intro s t m i mem' hm h hmem
  obtain ⟨m', a, r, hp, ha, hr, rfl⟩ := exec_eq_next.mp h
  obtain rfl : m' = m := Option.some.inj (hp.1.symm.trans hm)
  have matrix : matrixOf m' (s.withMem mem') i = .next a :=
    (matrixOf_withMem fun g ea n hmo =>
      memRead_withMem (readable_of_matrixOf ha hmo) (hmem g ea n hmo)).trans ha
  refine exec_eq_next.mpr ⟨m', a, r, ?checks, matrix, hr, ?written⟩
  case checks => cases i <;> exact hp
  case written => cases i <;> rfl

end Sys2Proof.Machine

/-! PROOFS of the family 30_encoding.md: decoder and encoder are inverse to each other, the lengths of instructions, the
encodings that raise #UD or #GP(0) or are refused, and the effective address of `Mode64`. -/

namespace Sys2Proof

/-! ## What well-formedness says -/

theorem wellFormed_iff {m : Mode} {i : Instr} : WellFormed m i = true ↔ FieldsOk m i = true ∧ i.len ≤ 15 := by
  cases i <;>
    simp only [WellFormed, FieldsOk, Instr.len, LegacyForm.wellFormed, VexForm.wellFormed, EvexForm.wellFormed,
      Bool.and_eq_true, decide_eq_true_eq]

theorem LegacyForm.fieldsOk_iff {m : Mode} {f : LegacyForm} :
    f.fieldsOk m = true ↔ f.pfx.all (Prefix.okLegacy m) = true ∧ .opSize ∈ f.pfx ∧ f.src2.ok = true ∧
      (f.rexW = none → f.noExt = true ∧ endsInRex f.pfx = false) ∧ (f.rexW ≠ none → m = .mode64) := by
  cases h : f.rexW <;> simp [fieldsOk, h, and_assoc]

theorem VexForm.fieldsOk_iff {m : Mode} {f : VexForm} :
    f.fieldsOk m = true ↔
      f.pfx.all (Prefix.okVex m) = true ∧ f.src2.ok = true ∧ (m = .mode32 → f.noExt = true) := by
  cases m <;> simp [fieldsOk, and_assoc]

theorem EvexForm.fieldsOk_iff {m : Mode} {f : EvexForm} :
    f.fieldsOk m = true ↔
      f.pfx.all (Prefix.okVex m) = true ∧ f.src2.ok = true ∧ f.mask.ok = true ∧ (m = .mode32 → f.noExt = true) := by
  cases m <;> simp [fieldsOk, and_assoc]

/-! ## Decoding what the encoder writes -/

/-- The VEX row that VEX.L selects (R65). -/
def vexRow (l : Bool) (f : VexForm) : Instr := if l then .vexYmm f else .vexXmm f

theorem decodeWindow_encode_legacy {m : Mode} {f : LegacyForm} (h : f.fieldsOk m = true) (rest : List Byte) :
    decodeWindow m (f.encode ++ rest) = some (.ok (.legacyXmm f)) := by
  obtain ⟨hp, h66, ho, -, hrex⟩ := LegacyForm.fieldsOk_iff.mp h
  obtain ⟨he, hrep, hrepne, hlock, h67⟩ := okLegacy_allowed hp
  have listed {p : Prefix} (hp : ∀ b, p ≠ .rex b) := LegacyForm.mem_allPrefixes (f := f) hp
  obtain ⟨hpfx, hw, hr, hx, hb⟩ := splitRex_allPrefixes h
  obtain ⟨rm, htake, hrm⟩ := takeOperands_rm ho (low3 f.dest) f.imm rest
  have hnolock : f.allPrefixes.contains .lock = false := by simpa using mt (listed (by simp)).mp hlock
  rw [encode_legacy]
  simp only [List.append_assoc, List.cons_append, List.nil_append]
  rw [decodeWindow_legacy (LegacyForm.allPrefixes_existsIn he hrex)]
  refine (decodeLegacy_fixed ((listed (by simp)).mpr h66) (mt (listed (by simp)).mp hrep)
    (mt (listed (by simp)).mp hrepne) (fun hm => mt (listed (by simp)).mp (h67 hm))
    (f.src2.bytes (low3 f.dest) ++ f.imm :: rest)).trans ?_
  simp only [hx, hb, hr, hpfx, hw, htake, hnolock, hrm, ext_low, Option.map_some, Bool.false_eq_true, if_false]

theorem decodeWindow_encode_vex {m : Mode} (l : Bool) {f : VexForm} (h : f.fieldsOk m = true) (rest : List Byte) :
    decodeWindow m (f.encode l ++ rest) = some (.ok (vexRow l f)) := by
  obtain ⟨hp, ho, hext⟩ := VexForm.fieldsOk_iff.mp h
  obtain ⟨he, hbad, h67⟩ := okVex_allowed hp
  obtain ⟨rm, htake, hrm⟩ := takeOperands_rm ho (low3 f.dest) f.imm rest
  rw [encode_vex]
  simp only [List.append_assoc, List.cons_append, List.nil_append]
  refine (decodeWindow_vex he (fun hm => vexFixed_escapes (hext hm)) _).trans ?_
  refine (decodeVex_fixed l hext h67 _).trans ?_
  simp only [htake, hbad, hrm, ext_low, vexRow, Option.map_some, Bool.false_eq_true, if_false]

theorem decodeWindow_encode_evex {m : Mode} (ll : BitVec 2) {f : EvexForm} (h : f.fieldsOk m = true)
    (rest : List Byte) : decodeWindow m (f.encode ll ++ rest) = some (evexRow ll f) := by
  obtain ⟨hp, ho, hk, hext⟩ := EvexForm.fieldsOk_iff.mp h
  obtain ⟨he, hbad, h67⟩ := okVex_allowed hp
  obtain ⟨rm, htake, hrm⟩ := takeOperands_evexRm ho (low3 f.dest) f.imm rest
  rw [encode_evex]
  simp only [List.append_assoc, List.cons_append, List.nil_append]
  refine (decodeWindow_evex he (fun hm => evexFixed_escapes (hext hm)) _).trans ?_
  refine (decodeEvex_fixed ll hk hext h67 _).trans ?_
  simp only [htake, hbad, hrm, ext_low5, Except.bind, Option.map_some, Bool.false_eq_true, if_false]

theorem decodeWindow_encode {m : Mode} {i : Instr} (h : FieldsOk m i = true) (rest : List Byte) :
    decodeWindow m (encode i ++ rest) = some (.ok i) := by
  cases i with
  | legacyXmm f => exact decodeWindow_encode_legacy h rest
  | vexXmm f => exact decodeWindow_encode_vex false h rest
  | vexYmm f => exact decodeWindow_encode_vex true h rest
  | evexXmm f => exact decodeWindow_encode_evex 0#2 h rest
  | evexYmm f => exact decodeWindow_encode_evex 1#2 h rest
  | evexZmm f => exact decodeWindow_encode_evex 2#2 h rest

/-- Settles O8: the window reads the instruction back, and it is no longer than the window. -/
theorem decodeInvertsEncode : Obligations.DecodeInvertsEncode := by
  intro m i tail h
  obtain ⟨hf, hl⟩ := wellFormed_iff.mp h
  exact decode_of_window ((length_encode i).trans_le hl) (decodeWindow_encode hf)

/-! ## What the decoder reads -/

/-- Prefixes of the mode that neither raise #UD before VEX or EVEX nor ask for 16-bit addressing are allowed there. -/
theorem all_okVex {m : Mode} {pfx : List Prefix} (hbad : pfx.any Prefix.badBeforeVex = false)
    (h67 : m = .mode32 → .addrSize ∉ pfx) : pfx.all (Prefix.okVex m) = true := by
  refine List.all_eq_true.mpr fun p hp => ?_
  have hgood := List.any_eq_false.mp hbad p hp
  cases p with
  | addrSize => cases m with
    | mode64 => rfl
    | mode32 => exact absurd hp (h67 rfl)
  | seg g => rfl
  | _ => exact absurd rfl hgood

/-- Prefixes of the mode without F2, F3, LOCK and 16-bit addressing are allowed in the legacy form. -/
theorem all_okLegacy {m : Mode} {pfx : List Prefix} (he : ∀ p ∈ pfx, p.existsIn m) (hrep : .rep ∉ pfx)
    (hrepne : .repne ∉ pfx) (hlock : .lock ∉ pfx) (h67 : m = .mode32 → .addrSize ∉ pfx) :
    pfx.all (Prefix.okLegacy m) = true := by
  refine List.all_eq_true.mpr fun p hp => ?_
  cases p with
  | seg g => rfl
  | opSize => rfl
  | addrSize => cases m with
    | mode64 => rfl
    | mode32 => exact absurd hp (h67 rfl)
  | repne => exact absurd hp hrepne
  | rep => exact absurd hp hrep
  | lock => exact absurd hp hlock
  | rex b => exact beq_iff_eq.mpr (he _ hp b rfl)

/-! Each fixed byte is put together from the fields read from it (R63 to R68). -/

theorem vex1_eq {v : Byte} (h : v.extractLsb' 0 5 = 3#5) :
    BitVec.ofBool (v.getLsbD 7) ++ (BitVec.ofBool (v.getLsbD 6) ++ (BitVec.ofBool (v.getLsbD 5) ++ 3#5)) = v := by
  revert v; decide +kernel

theorem vex2_eq {v : Byte} (h : v.extractLsb' 0 2 = 1#2) (hw : v.getLsbD 7 = true) :
    1#1 ++ (v.extractLsb' 3 4 ++ (BitVec.ofBool (v.getLsbD 2) ++ 1#2)) = v := by
  revert v; decide +kernel

theorem evex0_eq {v : Byte} (h : v.extractLsb' 0 2 = 3#2) (h0 : v.extractLsb' 2 2 = 0#2) :
    BitVec.ofBool (v.getLsbD 7) ++ (BitVec.ofBool (v.getLsbD 6) ++ (BitVec.ofBool (v.getLsbD 5) ++
      (BitVec.ofBool (v.getLsbD 4) ++ 3#4))) = v := by
  revert v; decide +kernel

theorem evex1_eq {v : Byte} (h : v.extractLsb' 0 2 = 1#2) (h1 : v.getLsbD 2 = true) (hw : v.getLsbD 7 = true) :
    1#1 ++ (v.extractLsb' 3 4 ++ 5#3) = v := by
  revert v; decide +kernel

theorem evex2_eq (v : Byte) :
    BitVec.ofBool (v.getLsbD 7) ++ (v.extractLsb' 5 2 ++ (BitVec.ofBool (v.getLsbD 4) ++
      (BitVec.ofBool (v.getLsbD 3) ++ v.extractLsb' 0 3))) = v := by
  revert v; decide +kernel

/-- A stage of the decoder answers an instruction only where its test for a rejection fails. -/
theorem ite_error_eq_ok {c : Prop} [Decidable c] {r : Reject} {v : Option Verdict} {i : Instr} :
    (if c then some (.error r) else v) = some (.ok i) ↔ ¬ c ∧ v = some (.ok i) := by
  by_cases hc : c <;> simp [hc]

/-- A VEX form that was read: its fixed bytes and operand bytes are the first bytes read. -/
theorem decodeVex_eq_ok {m : Mode} {pfx : List Prefix} {bs : List Byte} {i : Instr}
    (h : decodeVex m pfx bs = some (.ok i)) :
    ∃ l f, i = vexRow l f ∧ f.pfx = pfx ∧ f.fieldsOk m = true ∧
      vexFixed l f ++ (f.src2.bytes (low3 f.dest) ++ [f.imm]) <+: bs := by
  unfold decodeVex at h
  split at h
  case h_2 => simp at h
  case h_1 v1 v2 op ops =>
    simp only [ite_error_eq_ok, not_or, not_not] at h
    obtain ⟨⟨hmap, hpp, rfl⟩, hw, hext, h67, h⟩ := h
    split at h
    case h_1 => simp at h
    case h_2 reg rm imm htake =>
      obtain ⟨rest, rfl, hspelt⟩ := bytes_of_takeOperands htake
      obtain ⟨hok, hx, hb, hbytes⟩ := toRm_spelt hspelt
      simp only [ite_error_eq_ok, Option.some.injEq, Except.ok.injEq] at h
      obtain ⟨hbad, rfl⟩ := h
      refine ⟨v2.getLsbD 2, _, rfl, rfl, VexForm.fieldsOk_iff.mpr ⟨?pfx, hok, ?noExt⟩, ?bytes⟩
      case pfx => exact all_okVex (by simpa using hbad) (by simpa using h67)
      case noExt =>
        intro hm
        simp only [VexForm.noExt, hx, hb, ext3_append]
        grind
      case bytes =>
        simp only [vexFixed, hx, hb, hbytes, ext3_append, low3_append, Bool.not_not, BitVec.not_not, vex1_eq hmap,
          vex2_eq hpp (by simpa using hw)]
        exact ⟨rest, by simp⟩

/-- A vector register's number put together from its extension bits and low bits (R67, R73). -/
theorem vreg_bits (b4 b3 : Bool) (r : BitVec 3) :
    let v : VReg := BitVec.ofBool b4 ++ (BitVec.ofBool b3 ++ r)
    ext4 v = b4 ∧ ext3 v = b3 ∧ low3 v = r := by
  revert b4 b3 r; decide

theorem src1_bits (b4 : Bool) (r : BitVec 4) :
    let v : VReg := BitVec.ofBool b4 ++ r
    ext4 v = b4 ∧ ext3 v = r.getLsbD 3 ∧ v.extractLsb' 0 4 = r := by
  revert b4 r; decide

/-- The r/m operand of the EVEX forms is encoded with the bits X, B and b it was read with. -/
theorem toEvexRm_spelt {x b c : Bool} {rm : RmField} {o : EvexRm} (h : rm.spelt x b)
    (ho : rm.toEvexRm x b c = .ok o) : o.ok = true ∧ o.xBit = x ∧ o.bBit = b ∧ o.bcstBit = c := by
  cases rm with
  | reg r =>
    cases c <;> simp only [RmField.toEvexRm, if_true, Bool.false_eq_true, if_false, reduceCtorEq, Except.ok.injEq] at ho
    subst ho
    obtain ⟨hx, hb, -⟩ := vreg_bits x b r
    exact ⟨rfl, hx, hb, rfl⟩
  | mem a =>
    obtain ⟨hok, hx, hb⟩ := h
    cases c <;> cases ho <;> exact ⟨hok, hx, hb, rfl⟩

/-- An EVEX form that was read: its fixed bytes and operand bytes are the first bytes read. -/
theorem decodeEvex_eq_ok {m : Mode} {pfx : List Prefix} {bs : List Byte} {i : Instr}
    (h : decodeEvex m pfx bs = some (.ok i)) :
    ∃ ll f, evexRow ll f = .ok i ∧ f.pfx = pfx ∧ f.fieldsOk m = true ∧
      evexFixed ll f ++ (f.src2.bytes (low3 f.dest) ++ [f.imm]) <+: bs := by
  unfold decodeEvex at h
  split at h
  case h_2 => simp at h
  case h_1 p0 p1 p2 op ops =>
    simp only [ite_error_eq_ok, not_or, not_not] at h
    obtain ⟨⟨hmap, hpp, rfl⟩, hw, hext, h67, h⟩ := h
    split at h
    case h_1 => simp at h
    case h_2 reg rm imm htake =>
      obtain ⟨rest, rfl, hspelt⟩ := bytes_of_takeOperands htake
      simp only [ite_error_eq_ok, not_or, not_not] at h
      obtain ⟨⟨hbad, hmm, h0, h1⟩, h⟩ := h
      split at h
      case h_2 => simp at h
      case h_3 => simp at h
      case h_1 src2 mask hsrc2 hmask =>
        obtain ⟨hok, hx, hb, hbcst⟩ := toEvexRm_spelt hspelt hsrc2
        have hbytes := bytes_toEvexRm hsrc2
        obtain ⟨hz, haaa, hk⟩ := maskOf_eq_ok hmask
        refine ⟨p2.extractLsb' 5 2, _, Option.some.inj h, rfl,
          EvexForm.fieldsOk_iff.mpr ⟨?pfx, hok, hk, ?noExt⟩, ?bytes⟩
        case pfx => exact all_okVex (by simpa using hbad) (by simpa using h67)
        case noExt =>
          intro hm
          simp only [EvexForm.noExt, hx, hb, vreg_bits, src1_bits]
          grind
        case bytes =>
          have hmap : p0.extractLsb' 0 2 = 3#2 := by grind
          simp only [evexFixed, hx, hb, hbytes, hbcst, hz, haaa, vreg_bits, src1_bits, Bool.not_not, BitVec.not_not,
            evex0_eq hmap h0, evex1_eq hpp (by simpa using h1) (by simpa [hmap] using hw), evex2_eq]
          exact ⟨rest, by simp⟩

theorem expect_eq_ok {b : Byte} {bs : List Byte} {k : List Byte → Option Verdict} {i : Instr} :
    expect b bs k = some (.ok i) ↔ ∃ rest, bs = b :: rest ∧ k rest = some (.ok i) := by
  cases bs with
  | nil => simp [expect]
  | cons c rest => by_cases hc : c = b <;> simp [expect, hc]

theorem rex_eq (v : BitVec 4) :
    BitVec.ofBool (v.getLsbD 3) ++ (BitVec.ofBool (v.getLsbD 2) ++
      (BitVec.ofBool (v.getLsbD 1) ++ BitVec.ofBool (v.getLsbD 0))) = v := by
  revert v; decide

/-- The prefixes of a legacy form whose register bits are those of the REX byte in force are the prefixes read (R63). -/
theorem allPrefixes_of_splitRex {pfx : List Prefix} {f : LegacyForm} (hp : f.pfx = (splitRex pfx).1)
    (hw : f.rexW = (splitRex pfx).2.map fun r => r.getLsbD 3)
    (hbits : let rex := ((splitRex pfx).2).getD 0#4
      ext3 f.dest = rex.getLsbD 2 ∧ f.src2.xBit = rex.getLsbD 1 ∧ f.src2.bBit = rex.getLsbD 0) :
    f.allPrefixes = pfx ∧ (f.rexW = none → f.noExt = true ∧ endsInRex f.pfx = false) := by
  obtain ⟨hr, hx, hb⟩ := hbits
  obtain ⟨b, hs, heq⟩ | ⟨hs, hend⟩ := splitRex_cases pfx
  · simp only [hs, Option.map_some, Option.getD_some] at hp hw hr hx hb
    refine ⟨?_, by simp [hw]⟩
    simp only [LegacyForm.allPrefixes, hp, hw, hr, hx, hb, rex_eq, ← heq]
  · simp only [hs, Option.map_none, Option.getD_none, BitVec.getLsbD_zero] at hp hw hr hx hb
    exact ⟨by simp [LegacyForm.allPrefixes, hp, hw],
      fun _ => ⟨by simp only [LegacyForm.noExt, hr, hx, hb]; rfl, by rw [hp, hend]⟩⟩

theorem LegacyForm.exists_rex_mem_allPrefixes {f : LegacyForm} (h : f.rexW ≠ none) : ∃ b, .rex b ∈ f.allPrefixes := by
  obtain ⟨w, hw⟩ := Option.ne_none_iff_exists'.mp h
  simp [allPrefixes, hw]

/-- A legacy form read from prefixes among which 66 is and none is forbidden has the fields it should. -/
theorem LegacyForm.fieldsOk_of_allPrefixes {m : Mode} {f : LegacyForm} {pfx : List Prefix} (hall : f.allPrefixes = pfx)
    (he : ∀ p ∈ pfx, p.existsIn m) (hrep : .rep ∉ pfx) (hrepne : .repne ∉ pfx) (h66 : .opSize ∈ pfx)
    (hlock : .lock ∉ pfx) (h67 : m = .mode32 → .addrSize ∉ pfx) (ho : f.src2.ok = true)
    (hrex : f.rexW = none → f.noExt = true ∧ endsInRex f.pfx = false) : f.fieldsOk m = true := by
  subst hall
  have sub : ∀ p ∈ f.pfx, p ∈ f.allPrefixes := fun p hp => List.mem_append_left _ hp
  refine fieldsOk_iff.mpr ⟨?pfx, (mem_allPrefixes (by simp)).mp h66, ho, hrex, fun hw => ?mode⟩
  case pfx =>
    exact all_okLegacy (fun p hp => he p (sub p hp)) (mt (sub _) hrep) (mt (sub _) hrepne) (mt (sub _) hlock)
      fun hm => mt (sub _) (h67 hm)
  case mode =>
    obtain ⟨b, hb⟩ := exists_rex_mem_allPrefixes hw
    exact he _ hb b rfl

/-- A legacy form that was read: its opcode and operand bytes are the first bytes read. -/
theorem decodeLegacy_eq_ok {m : Mode} {pfx : List Prefix} (he : ∀ p ∈ pfx, p.existsIn m) {bs : List Byte} {i : Instr}
    (h : decodeLegacy m pfx bs = some (.ok i)) :
    ∃ f, i = .legacyXmm f ∧ f.allPrefixes = pfx ∧ f.fieldsOk m = true ∧
      0x0F#8 :: ([0x3A#8, 0xCF#8] ++ (f.src2.bytes (low3 f.dest) ++ [f.imm])) <+: bs := by
  simp only [decodeLegacy, expect_eq_ok, ite_error_eq_ok, Bool.or_eq_true, Bool.not_eq_true', Bool.not_eq_false,
    List.contains_iff_mem, not_or, not_and] at h
  obtain ⟨_, rfl, _, rfl, ops, rfl, ⟨hrepne, hrep⟩, h66, h67, h⟩ := h
  split at h
  case h_1 => simp at h
  case h_2 reg rm imm htake =>
    obtain ⟨rest, rfl, hspelt⟩ := bytes_of_takeOperands htake
    obtain ⟨hok, hx, hb, hbytes⟩ := toRm_spelt hspelt
    simp only [ite_error_eq_ok, Option.some.injEq, Except.ok.injEq] at h
    obtain ⟨hlock, rfl⟩ := h
    refine ⟨_, rfl, ?_⟩
    generalize hf : LegacyForm.mk _ _ _ _ _ = f
    obtain ⟨hall, hrex⟩ := allPrefixes_of_splitRex (pfx := pfx) (f := f) (by rw [← hf]) (by rw [← hf])
      (by rw [← hf]; exact ⟨ext3_append _ _, hx, hb⟩)
    have ho : f.src2.ok = true := by rw [← hf]; exact hok
    refine ⟨hall, LegacyForm.fieldsOk_of_allPrefixes hall he hrep hrepne h66 hlock h67 ho hrex, ?_⟩
    simp only [← hf, hbytes, low3_append]
    exact ⟨rest, by simp⟩

@[simp] theorem fieldsOk_vexRow (m : Mode) (l : Bool) (f : VexForm) : FieldsOk m (vexRow l f) = f.fieldsOk m := by
  cases l <;> rfl

@[simp] theorem encode_vexRow (l : Bool) (f : VexForm) : encode (vexRow l f) = f.encode l := by cases l <;> rfl

/-- The row that L'L selects has the form's fields and bytes (R68). -/
theorem evexRow_eq_ok {ll : BitVec 2} {f : EvexForm} {i : Instr} (h : evexRow ll f = .ok i) :
    (∀ m, FieldsOk m i = f.fieldsOk m) ∧ encode i = f.encode ll := by
  have select : ll = 0#2 ∧ i = .evexXmm f ∨ ll = 1#2 ∧ i = .evexYmm f ∨ ll = 2#2 ∧ i = .evexZmm f := by
    unfold evexRow at h
    grind
  obtain ⟨rfl, rfl⟩ | ⟨rfl, rfl⟩ | ⟨rfl, rfl⟩ := select <;> exact ⟨fun _ => rfl, rfl⟩

/-- An instruction that was read has the fields it should, and its bytes are the first bytes read. -/
theorem decodeWindow_eq_ok {m : Mode} {w : List Byte} {i : Instr} (h : decodeWindow m w = some (.ok i)) :
    FieldsOk m i = true ∧ encode i <+: w := by
  obtain ⟨hbytes, he⟩ := bytes_of_scanPrefixes m w
  unfold decodeWindow at h
  split at h
  case h_1 => simp at h
  case h_2 pfx b bs hscan =>
    rw [hscan] at hbytes he
    subst hbytes
    split at h
    case isFalse hb =>
      obtain ⟨f, rfl, rfl, hf, hread⟩ := decodeLegacy_eq_ok he h
      rw [encode, encode_legacy]
      exact ⟨hf, (List.prefix_append_right_inj _).mpr hread⟩
    case isTrue hb =>
      split at h
      case h_1 => simp at h
      case h_2 => simp at h
      case h_3 =>
        split at h
        case isTrue hvex =>
          obtain ⟨l, f, rfl, rfl, hf, hread⟩ := decodeVex_eq_ok h
          rw [fieldsOk_vexRow, encode_vexRow, encode_vex, hvex]
          exact ⟨hf, (List.prefix_append_right_inj _).mpr (List.cons_prefix_cons.mpr ⟨rfl, hread⟩)⟩
        case isFalse hvex =>
          obtain ⟨ll, f, hrow, rfl, hf, hread⟩ := decodeEvex_eq_ok h
          obtain ⟨hfields, hencode⟩ := evexRow_eq_ok hrow
          rw [hfields, hencode, encode_evex, hb.resolve_left hvex]
          exact ⟨hf, (List.prefix_append_right_inj _).mpr (List.cons_prefix_cons.mpr ⟨rfl, hread⟩)⟩

theorem decode_eq_ok {m : Mode} {bs : List Byte} {i : Instr} :
    decode m bs = .ok i ↔ decodeWindow m (bs.take maxLength) = some (.ok i) := by
  unfold decode
  cases h : decodeWindow m (bs.take maxLength) <;> simp

/-- Settles O9: the bytes of the instruction are the first bytes of the window, which holds at most 15. -/
theorem encodeInvertsDecode : Obligations.EncodeInvertsDecode := by
  intro m bs i h
  obtain ⟨hf, hwindow⟩ := decodeWindow_eq_ok (decode_eq_ok.mp h)
  have hbs : encode i <+: bs := hwindow.trans (List.take_prefix _ _)
  have hlen : i.len ≤ bs.length := length_encode i ▸ hbs.length_le
  have h15 : i.len ≤ 15 := length_encode i ▸ hwindow.length_le.trans (List.length_take_le _ _)
  exact ⟨wellFormed_iff.mpr ⟨hf, h15⟩, hlen, length_encode i ▸ List.prefix_iff_eq_take.mp hbs⟩

/-! ## Lengths -/

/-- Settles O10: the fixed bytes, ModRM, the immediate, and in the legacy form the byte 66. -/
theorem encodedLengthBounds : Obligations.EncodedLengthBounds := by
  intro m i h
  obtain ⟨hf, h15⟩ := wellFormed_iff.mp h
  have h7 : ∀ f : EvexForm, 7 ≤ f.len := fun f => by unfold EvexForm.len; omega
  have h6 : 6 ≤ i.len := by
    cases i with
    | legacyXmm f =>
      obtain ⟨-, h66, -⟩ := LegacyForm.fieldsOk_iff.mp hf
      have := List.length_pos_of_mem h66
      simp only [Instr.len, LegacyForm.len]
      omega
    | vexXmm f | vexYmm f => simp only [Instr.len, VexForm.len]; omega
    | evexXmm f | evexYmm f | evexZmm f => exact Nat.le_of_succ_le (h7 f)
  refine ⟨length_encode i, h6, h15, ?_⟩
  rintro f (rfl | rfl | rfl) <;> exact h7 f

end Sys2Proof

namespace Sys2Proof.Machine

/-- Settles O11: the first 15 bytes are a proper beginning of the instruction, so they are none yet. -/
theorem overlongInstructionRaisesGp : Obligations.OverlongInstructionRaisesGp := by
  intro s m i hm hf hl ht
  obtain ⟨tail, hfetch⟩ := fetch_of_holds ht
  have hlen : maxLength < (encode i).length := (length_encode i).symm ▸ hl
  have hwindow : (fetch m s).take maxLength = (encode i).take maxLength := by
    rw [hfetch, List.take_append_of_le_length (by simp; omega), List.take_take, Nat.min_self]
  have hnone : decodeWindow m ((encode i).take maxLength) = none :=
    decodeWindow_cut hf (List.take_prefix _ _) (by simpa using hlen)
  have h15 : maxLength ≤ (fetch m s).length := by rw [hfetch]; simp; omega
  rw [step_of_decode hm, decode, hwindow, hnone]
  simp only [h15, if_true, rejected, raise]

end Sys2Proof.Machine

namespace Sys2Proof

/-! ## Refused encodings

What each encoding's decoder answers where a test of its fixed bytes fails, whatever operand bytes follow. -/

/-- The extension bit of vvvv, which is stored inverted (R73). -/
theorem vvvv_ext (v : Byte) : (~~~(v.extractLsb' 3 4)).getLsbD 3 = !v.getLsbD 6 := by simp

theorem top2_eq_iff {v : Byte} : v.extractLsb' 6 2 = 3#2 ↔ v.getLsbD 7 = true ∧ v.getLsbD 6 = true := by
  revert v; decide +kernel

theorem top4_eq_iff {v : Byte} :
    v.extractLsb' 4 4 = 15#4 ↔
      v.getLsbD 7 = true ∧ v.getLsbD 6 = true ∧ v.getLsbD 5 = true ∧ v.getLsbD 4 = true := by
  revert v; decide +kernel

section
variable {m : Mode} {pfx : List Prefix}

theorem decodeLegacy_rep (h : .rep ∈ pfx ∨ .repne ∈ pfx) (ops : List Byte) :
    decodeLegacy m pfx (0x0F#8 :: 0x3A#8 :: 0xCF#8 :: ops) = some (.error .repPrefix) := by
  simp [decodeLegacy, expect, h.symm]

theorem decodeLegacy_no66 (h66 : .opSize ∉ pfx) (hrep : .rep ∉ pfx) (hrepne : .repne ∉ pfx) (ops : List Byte) :
    decodeLegacy m pfx (0x0F#8 :: 0x3A#8 :: 0xCF#8 :: ops) = some (.error .noMandatory66) := by
  simp [decodeLegacy, expect, h66, hrep, hrepne]

theorem decodeLegacy_addr16 (h66 : .opSize ∈ pfx) (hrep : .rep ∉ pfx) (hrepne : .repne ∉ pfx) (h67 : .addrSize ∈ pfx)
    (ops : List Byte) : decodeLegacy .mode32 pfx (0x0F#8 :: 0x3A#8 :: 0xCF#8 :: ops) = some (.error .addr16) := by
  simp [decodeLegacy, expect, h66, hrep, hrepne, h67]

section
variable {v1 v2 : Byte} (hmap : v1.extractLsb' 0 5 = 3#5) (hpp : v2.extractLsb' 0 2 = 1#2)
include hmap hpp

theorem decodeVex_wZero (hw : v2.getLsbD 7 = false) (ops : List Byte) :
    decodeVex m pfx (v1 :: v2 :: 0xCF#8 :: ops) = some (.error .wZero) := by
  simp only [decodeVex, hmap, hpp, hw, ne_eq, not_true_eq_false, or_self, if_false, if_true]

theorem decodeVex_extension (hw : v2.getLsbD 7 = true) (h : v1.getLsbD 5 = false ∨ v2.getLsbD 6 = false)
    (ops : List Byte) : decodeVex .mode32 pfx (v1 :: v2 :: 0xCF#8 :: ops) = some (.error .mode32Extension) := by
  have hext : (!v1.getLsbD 7 || !v1.getLsbD 6 || !v1.getLsbD 5 || !v2.getLsbD 6) = true := by
    rcases h with h | h <;> simp only [h, Bool.not_false, Bool.or_true, Bool.true_or]
  simp only [decodeVex, hmap, hpp, hw, vvvv_ext, hext, ne_eq, not_true_eq_false, or_self, if_false, and_self, if_true,
    Bool.true_eq_false]

theorem decodeVex_addr16 (hw : v2.getLsbD 7 = true) (hrx : v1.extractLsb' 6 2 = 3#2) (hb : v1.getLsbD 5 = true)
    (hv : v2.getLsbD 6 = true) (h67 : .addrSize ∈ pfx) (ops : List Byte) :
    decodeVex .mode32 pfx (v1 :: v2 :: 0xCF#8 :: ops) = some (.error .addr16) := by
  obtain ⟨hr, hx⟩ := top2_eq_iff.mp hrx
  have h67 : pfx.contains .addrSize = true := by simpa using h67
  simp only [decodeVex, hmap, hpp, hw, vvvv_ext, hr, hx, hb, hv, h67, ne_eq, not_true_eq_false, or_self, if_false,
    Bool.true_eq_false, Bool.not_true, Bool.or_self, Bool.false_eq_true, and_false, and_self, if_true]

end

section
variable {p0 p1 p2 : Byte} (hmap : p0.extractLsb' 0 2 = 3#2) (hpp : p1.extractLsb' 0 2 = 1#2)
include hmap hpp

theorem decodeEvex_wZero (hw : p1.getLsbD 7 = false) (ops : List Byte) :
    decodeEvex m pfx (p0 :: p1 :: p2 :: 0xCF#8 :: ops) = some (.error .wZero) := by
  simp only [decodeEvex, hmap, hpp, hw, ne_eq, not_true_eq_false, false_and, or_self, if_false, and_self, if_true]

theorem decodeEvex_extension (hw : p1.getLsbD 7 = true)
    (h : p0.getLsbD 5 = false ∨ p0.getLsbD 4 = false ∨ p1.getLsbD 6 = false ∨ p2.getLsbD 3 = false) (ops : List Byte) :
    decodeEvex .mode32 pfx (p0 :: p1 :: p2 :: 0xCF#8 :: ops) = some (.error .mode32Extension) := by
  have hext : (!p0.getLsbD 7 || !p0.getLsbD 6 || !p0.getLsbD 5 || !p0.getLsbD 4 || !p2.getLsbD 3 ||
      !p1.getLsbD 6) = true := by
    rcases h with h | h | h | h <;> simp only [h, Bool.not_false, Bool.or_true, Bool.true_or]
  simp only [decodeEvex, hmap, hpp, hw, vvvv_ext, hext, ne_eq, not_true_eq_false, false_and, or_self, if_false,
    Bool.true_eq_false, and_false, and_self, if_true]

theorem decodeEvex_addr16 (hw : p1.getLsbD 7 = true) (hrx : p0.extractLsb' 6 2 = 3#2) (hb : p0.getLsbD 5 = true)
    (hr' : p0.getLsbD 4 = true) (hv : p1.getLsbD 6 = true) (hv' : p2.getLsbD 3 = true) (h67 : .addrSize ∈ pfx)
    (ops : List Byte) : decodeEvex .mode32 pfx (p0 :: p1 :: p2 :: 0xCF#8 :: ops) = some (.error .addr16) := by
  obtain ⟨hr, hx⟩ := top2_eq_iff.mp hrx
  have h67 : pfx.contains .addrSize = true := by simpa using h67
  simp only [decodeEvex, hmap, hpp, hw, vvvv_ext, hr, hx, hb, hr', hv, hv', h67, ne_eq, not_true_eq_false, false_and,
    or_self, if_false, Bool.true_eq_false, Bool.not_true, Bool.or_self, Bool.false_eq_true, and_false, and_self,
    if_true]

end
end

end Sys2Proof

namespace Sys2Proof.Machine

/-- Where the bytes at `rip` are rejected after their prefixes whatever follows, the step is what that rejection
does. -/
theorem step_of_rejected_after {s : State} {m : Mode} {pfx : List Prefix} {fixed : List Byte} {r : Reject}
    (hm : s.modelledMode = some m) (hl : pfx.length + fixed.length ≤ maxLength)
    (ht : HoldsText m s (pfx.map Prefix.byte ++ fixed))
    (hd : ∀ rest, decodeWindow m (pfx.map Prefix.byte ++ (fixed ++ rest)) = some (.error r)) : step s = rejected r :=
  step_of_rejected hm (by simpa using hl) ht fun rest => by rw [List.append_assoc]; exact hd rest

/-- Settles O14: each of the three encodings tests its prefixes and W before it looks at the operand bytes. -/
theorem neighbourEncodingsRefused : Obligations.NeighbourEncodingsRefused := by
  intro s m pfx hm he
  refine ⟨?no66, ?rep, ?vex, ?evex⟩
  case no66 =>
    intro h66 hrep hrepne hl ht
    exact step_of_rejected_after hm hl ht fun rest =>
      (decodeWindow_legacy he _).trans (decodeLegacy_no66 h66 hrep hrepne rest)
  case rep =>
    intro hrep hl ht
    exact step_of_rejected_after hm hl ht fun rest => (decodeWindow_legacy he _).trans (decodeLegacy_rep hrep rest)
  case vex =>
    intro v1 v2 hesc hmap hpp hw hl ht
    exact step_of_rejected_after hm hl ht fun rest =>
      (decodeWindow_vex he hesc _).trans (decodeVex_wZero hmap hpp hw rest)
  case evex =>
    intro p0 p1 p2 hesc hmap hpp hw hl ht
    exact step_of_rejected_after hm hl ht fun rest =>
      (decodeWindow_evex he hesc _).trans (decodeEvex_wZero hmap hpp hw rest)

end Sys2Proof.Machine

namespace Sys2Proof

/-! ## `Mode32` -/

theorem LegacyForm.of_fieldsOk_mode32 {f : LegacyForm} (h : f.fieldsOk .mode32 = true) :
    f.noExt = true ∧ f.pfx.contains .addrSize = false := by
  obtain ⟨hp, -, -, hext, hrex⟩ := fieldsOk_iff.mp h
  have noRex : f.rexW = none := by_contra fun hw => nomatch hrex hw
  obtain ⟨-, -, -, -, h67⟩ := okLegacy_allowed hp
  exact ⟨(hext noRex).1, by simpa using h67 rfl⟩

theorem VexForm.of_fieldsOk_mode32 {f : VexForm} (h : f.fieldsOk .mode32 = true) :
    f.noExt = true ∧ f.pfx.contains .addrSize = false := by
  obtain ⟨hp, -, hext⟩ := fieldsOk_iff.mp h
  obtain ⟨-, -, h67⟩ := okVex_allowed hp
  exact ⟨hext rfl, by simpa using h67 rfl⟩

theorem EvexForm.of_fieldsOk_mode32 {f : EvexForm} (h : f.fieldsOk .mode32 = true) :
    f.noExt = true ∧ f.pfx.contains .addrSize = false := by
  obtain ⟨hp, -, -, hext⟩ := fieldsOk_iff.mp h
  obtain ⟨-, -, h67⟩ := okVex_allowed hp
  exact ⟨hext rfl, by simpa using h67 rfl⟩

end Sys2Proof

namespace Sys2Proof.Machine

/-- A register of the legacy and VEX forms without its extension bit is one of the first eight (R73). -/
theorem vreg16_lt_eight {r : BitVec 4} (h : ext3 r = false) : (vreg16 r).toNat < 8 := by
  revert r; decide

/-- A register of the EVEX forms without its extension bits is one of the first eight (R73). -/
theorem vreg_lt_eight {r : VReg} (h3 : ext3 r = false) (h4 : ext4 r = false) : r.toNat < 8 := by
  revert r; decide

theorem destOf_legacy_lt_eight {f : LegacyForm} (h : f.noExt = true) : (vreg16 f.dest).toNat < 8 := by
  simp only [LegacyForm.noExt, Bool.and_eq_true, Bool.not_eq_true'] at h
  obtain ⟨⟨hr, -⟩, -⟩ := h
  exact vreg16_lt_eight hr

theorem destOf_vex_lt_eight {f : VexForm} (h : f.noExt = true) : (vreg16 f.dest).toNat < 8 := by
  simp only [VexForm.noExt, Bool.and_eq_true, Bool.not_eq_true'] at h
  obtain ⟨⟨⟨hr, -⟩, -⟩, -⟩ := h
  exact vreg16_lt_eight hr

theorem destOf_evex_lt_eight {f : EvexForm} (h : f.noExt = true) : f.dest.toNat < 8 := by
  simp only [EvexForm.noExt, Bool.and_eq_true, Bool.not_eq_true'] at h
  obtain ⟨⟨⟨⟨⟨hr, hr'⟩, -⟩, -⟩, -⟩, -⟩ := h
  exact vreg_lt_eight hr hr'

/-- Settles O15: each encoding's fixed bytes decide the refusals, and what decodes has the fields `Mode32` asks for. -/
theorem mode32Encodings : Obligations.Mode32Encodings := by
  refine ⟨fun s pfx hm he => ⟨?escape, ?vex, ?evex, ?legacy⟩, ?decoded⟩
  case escape =>
    intro b c hb hc hl ht
    exact step_of_rejected_after hm hl ht fun rest => decodeWindow_mode32 he hb hc rest
  case vex =>
    intro v1 v2 hesc hmap hpp hw hl ht
    have refused {r : Reject} (h : ∀ ops, decodeVex .mode32 pfx (v1 :: v2 :: 0xCF#8 :: ops) = some (.error r)) :=
      step_of_rejected_after hm hl ht fun rest => (decodeWindow_vex he (fun _ => hesc) _).trans (h rest)
    exact ⟨fun hext => refused (decodeVex_extension hmap hpp hw hext),
      fun hb hv h67 => refused (decodeVex_addr16 hmap hpp hw hesc hb hv h67)⟩
  case evex =>
    intro p0 p1 p2 hesc hmap hpp hw hl ht
    have refused {r : Reject} (h : ∀ ops, decodeEvex .mode32 pfx (p0 :: p1 :: p2 :: 0xCF#8 :: ops) = some (.error r)) :=
      step_of_rejected_after hm hl ht fun rest => (decodeWindow_evex he (fun _ => hesc) _).trans (h rest)
    exact ⟨fun hext => refused (decodeEvex_extension hmap hpp hw hext),
      fun hb hr' hv hv' h67 => refused (decodeEvex_addr16 hmap hpp hw hesc hb hr' hv hv' h67)⟩
  case legacy =>
    intro h66 hrep hrepne h67 hl ht
    exact step_of_rejected_after hm hl ht fun rest =>
      (decodeWindow_legacy he _).trans (decodeLegacy_addr16 h66 hrep hrepne h67 rest)
  case decoded =>
    intro bs i h
    obtain ⟨hf, -⟩ := decodeWindow_eq_ok (decode_eq_ok.mp h)
    cases i with
    | legacyXmm f =>
      have hform := LegacyForm.of_fieldsOk_mode32 hf
      exact ⟨destOf_legacy_lt_eight hform.1, hform⟩
    | vexXmm f | vexYmm f =>
      have hform := VexForm.of_fieldsOk_mode32 hf
      exact ⟨destOf_vex_lt_eight hform.1, hform⟩
    | evexXmm f | evexYmm f | evexZmm f =>
      have hform := EvexForm.of_fieldsOk_mode32 hf
      exact ⟨destOf_evex_lt_eight hform.1, hform⟩

end Sys2Proof.Machine

namespace Sys2Proof

/-! ## Reserved EVEX fields -/

/-- The operand is a register exactly where ModRM.mod is 11 (R70). -/
theorem takeOperands_reg_iff {x b : Bool} {modrm : Byte} {rest : List Byte} {reg : BitVec 3} {rm : RmField} {imm : Byte}
    (h : takeOperands x b (modrm :: rest) = some (reg, rm, imm)) :
    modrm.extractLsb' 6 2 = 3#2 ↔ ∃ r, rm = .reg r := by
  obtain ⟨tail, hbytes, -⟩ := bytes_of_takeOperands h
  cases rm with
  | reg r =>
    obtain ⟨rfl, -⟩ := List.cons.inj hbytes
    exact iff_of_true (mod_modRM _ _ _) ⟨r, rfl⟩
  | mem a =>
    refine iff_of_false ?_ nofun
    cases a with
    | base | sib =>
      obtain ⟨rfl, -⟩ := List.cons.inj hbytes
      rw [mod_modRM]
      exact disp_mod_ne _
    | sibNoBase | disp32 =>
      obtain ⟨rfl, -⟩ := List.cons.inj hbytes
      rw [mod_modRM]
      decide

/-- The EVEX fields that raise #UD: map code 00, P0[3:2] not 00 or P1[2] = 0; L'L = 11, b = 1 with a register operand,
or z = 1 without a mask (R67, R68, R69, R80). -/
def EvexReserved (p0 p1 p2 : Byte) (rm : RmField) : Prop :=
  (p0.extractLsb' 0 2 = 0#2 ∨ p0.extractLsb' 2 2 ≠ 0#2 ∨ p1.getLsbD 2 = false) ∨
  p2.extractLsb' 5 2 = 3#2 ∨ (p2.getLsbD 4 = true ∧ ∃ r, rm = .reg r) ∨ (p2.getLsbD 7 = true ∧ p2.extractLsb' 0 3 = 0#3)

/-- What `decodeEvex` answers once nothing is refused and the operand bytes are complete (`decodeEvex_admitted`): the
fixed bits are tested, then come the operand, the mask and the row, each of which can be reserved. -/
def evexVerdict (pfx : List Prefix) (p0 p1 p2 : Byte) (reg : BitVec 3) (rm : RmField) (imm : Byte) : Verdict :=
  if p0.extractLsb' 0 2 = 0#2 ∨ p0.extractLsb' 2 2 ≠ 0#2 ∨ p1.getLsbD 2 = false then .error .undefinedOpcode
  else
    (rm.toEvexRm (!p0.getLsbD 6) (!p0.getLsbD 5) (p2.getLsbD 4)).bind fun src2 =>
    (maskOf (p2.getLsbD 7) (p2.extractLsb' 0 3)).bind fun mask =>
    evexRow (p2.extractLsb' 5 2)
      { pfx := pfx, dest := BitVec.ofBool (!p0.getLsbD 4) ++ (BitVec.ofBool (!p0.getLsbD 7) ++ reg),
        src1 := BitVec.ofBool (!p2.getLsbD 3) ++ ~~~(p1.extractLsb' 3 4), src2 := src2, mask := mask, imm := imm }

theorem toEvexRm_cases (x b bcst : Bool) (rm : RmField) :
    ((bcst = true ∧ ∃ r, rm = .reg r) ∧ rm.toEvexRm x b bcst = .error .undefinedOpcode) ∨
    (¬ (bcst = true ∧ ∃ r, rm = .reg r) ∧ ∃ o, rm.toEvexRm x b bcst = .ok o) := by
  cases rm <;> cases bcst <;> simp [RmField.toEvexRm]

theorem maskOf_cases (z : Bool) (aaa : KReg) :
    ((z = true ∧ aaa = 0#3) ∧ maskOf z aaa = .error .undefinedOpcode) ∨
    (¬ (z = true ∧ aaa = 0#3) ∧ ∃ k, maskOf z aaa = .ok k) := by
  by_cases h : aaa = 0#3 <;> cases z <;> simp [maskOf, h]

theorem evexRow_cases (ll : BitVec 2) (f : EvexForm) :
    (ll = 3#2 ∧ evexRow ll f = .error .undefinedOpcode) ∨ (ll ≠ 3#2 ∧ ∃ i, evexRow ll f = .ok i) := by
  have values : ll = 0#2 ∨ ll = 1#2 ∨ ll = 2#2 ∨ ll = 3#2 := by revert ll; decide
  obtain rfl | rfl | rfl | rfl := values
  · exact .inr ⟨by decide, _, rfl⟩
  · exact .inr ⟨by decide, _, rfl⟩
  · exact .inr ⟨by decide, _, rfl⟩
  · exact .inl ⟨rfl, rfl⟩

/-- The verdict is #UD exactly for the reserved fields. -/
theorem evexVerdict_cases (pfx : List Prefix) (p0 p1 p2 : Byte) (reg : BitVec 3) (rm : RmField) (imm : Byte) :
    (EvexReserved p0 p1 p2 rm ∧ evexVerdict pfx p0 p1 p2 reg rm imm = .error .undefinedOpcode) ∨
    (¬ EvexReserved p0 p1 p2 rm ∧ ∃ i, evexVerdict pfx p0 p1 p2 reg rm imm = .ok i) := by
  unfold evexVerdict EvexReserved
  split
  case isTrue hfixed => exact .inl ⟨.inl hfixed, rfl⟩
  case isFalse hfixed =>
    obtain ⟨hb, hrm⟩ | ⟨hb, src2, hrm⟩ := toEvexRm_cases (!p0.getLsbD 6) (!p0.getLsbD 5) (p2.getLsbD 4) rm
    · exact .inl ⟨.inr (.inr (.inl hb)), by rw [hrm]; rfl⟩
    obtain ⟨hz, hmask⟩ | ⟨hz, mask, hmask⟩ := maskOf_cases (p2.getLsbD 7) (p2.extractLsb' 0 3)
    · exact .inl ⟨.inr (.inr (.inr hz)), by rw [hrm, hmask]; rfl⟩
    rw [hrm, hmask]
    obtain ⟨hl, hrow⟩ | ⟨hl, hrow⟩ := evexRow_cases (p2.extractLsb' 5 2) ⟨pfx, _, _, src2, mask, imm⟩
    · exact .inl ⟨.inr (.inl hl), hrow⟩
    · exact .inr ⟨by simp only [hfixed, hl, hb, hz, or_self, not_false_eq_true], hrow⟩

/-- The bytes of an EVEX form that is not refused, after any allowed prefixes (R67, R80; log entry 12). -/
theorem decodeEvex_admitted {m : Mode} {pfx : List Prefix} {p0 p1 p2 : Byte} {ops : List Byte} {reg : BitVec 3}
    {rm : RmField} {imm : Byte} (hp : pfx.all (Prefix.okVex m) = true)
    (hmap : p0.extractLsb' 0 2 = 3#2 ∧ p1.getLsbD 7 = true ∨ p0.extractLsb' 0 2 = 0#2) (hpp : p1.extractLsb' 0 2 = 1#2)
    (hext : m = .mode32 → p0.extractLsb' 4 4 = 15#4 ∧ p1.getLsbD 6 = true ∧ p2.getLsbD 3 = true)
    (htake : takeOperands (!p0.getLsbD 6) (!p0.getLsbD 5) ops = some (reg, rm, imm)) :
    decodeEvex m pfx (p0 :: p1 :: p2 :: 0xCF#8 :: ops) = some (evexVerdict pfx p0 p1 p2 reg rm imm) := by
  obtain ⟨-, hbad, h67⟩ := okVex_allowed hp
  have hrow : ¬ ((p0.extractLsb' 0 2 ≠ 3#2 ∧ p0.extractLsb' 0 2 ≠ 0#2) ∨ p1.extractLsb' 0 2 ≠ 1#2 ∨
      (0xCF#8 : Byte) ≠ 0xCF#8) := by grind
  have hw : ¬ (p0.extractLsb' 0 2 = 3#2 ∧ p1.getLsbD 7 = false) := by grind
  have hnoExt : ¬ (m = .mode32 ∧ (!p0.getLsbD 7 || !p0.getLsbD 6 || !p0.getLsbD 5 || !p0.getLsbD 4 ||
      !p2.getLsbD 3 || !p1.getLsbD 6) = true) := by
    rintro ⟨hm, hbits⟩
    obtain ⟨htop, hv, hv'⟩ := hext hm
    obtain ⟨hr, hx, hb, hr'⟩ := top4_eq_iff.mp htop
    simp only [hr, hx, hb, hr', hv, hv', Bool.not_true, Bool.or_self, Bool.false_eq_true] at hbits
  have hno67 : ¬ (m = .mode32 ∧ pfx.contains .addrSize = true) := fun ⟨hm, h⟩ => h67 hm (by simpa using h)
  simp only [decodeEvex, if_neg hrow, if_neg hw, vvvv_ext, if_neg hnoExt, if_neg hno67, htake, hbad, Bool.false_eq_true,
    false_or, evexVerdict]
  split
  · rfl
  · cases rm.toEvexRm (!p0.getLsbD 6) (!p0.getLsbD 5) (p2.getLsbD 4) with
    | error e => rfl
    | ok o => cases maskOf (p2.getLsbD 7) (p2.extractLsb' 0 3) <;> rfl

end Sys2Proof

namespace Sys2Proof.Machine

/-- In a mode of the spec, where the text holds at most 15 bytes that decode the same whatever follows, so does what is
fetched. -/
theorem decode_fetch {s : State} {m : Mode} {bs : List Byte} {v : Verdict} (hl : bs.length ≤ maxLength)
    (h : HoldsText m s bs) (hd : ∀ rest, decodeWindow m (bs ++ rest) = some v) : decode m (fetch m s) = v := by
  obtain ⟨tail, ht⟩ := fetch_of_holds h
  rw [ht, List.take_of_length_le hl]
  exact decode_of_window hl hd

/-- Settles O12: none of these bytes is refused, and their verdict is #UD exactly for the reserved fields. -/
theorem evexReservedEncodingsRaiseUd : Obligations.EvexReservedEncodingsRaiseUd := by
  intro s m pfx p0 p1 p2 modrm rest hm hp hmap hpp hext hops hl ht
  obtain ⟨⟨reg, rm, imm⟩, htake⟩ := Option.isSome_iff_exists.mp hops
  have hesc : m = .mode32 → p0.extractLsb' 6 2 = 3#2 := fun h =>
    top2_eq_iff.mpr ((top4_eq_iff.mp (hext h).1).imp_right And.left)
  have hdecode := decode_fetch (by simp [maxLength]; omega) ht fun tail => by
    simp only [List.append_assoc, List.cons_append, List.nil_append]
    refine (decodeWindow_evex (okVex_allowed hp).1 hesc _).trans ?_
    exact decodeEvex_admitted hp hmap hpp hext (takeOperands_append htake tail)
  have reserved : (p0.extractLsb' 0 2 = 0#2 ∨ p0.extractLsb' 2 2 ≠ 0#2 ∨ p1.getLsbD 2 = false ∨
      p2.extractLsb' 5 2 = 3#2 ∨ (p2.getLsbD 4 = true ∧ modrm.extractLsb' 6 2 = 3#2) ∨
      (p2.getLsbD 7 = true ∧ p2.extractLsb' 0 3 = 0#3)) ↔ EvexReserved p0 p1 p2 rm := by
    simp only [EvexReserved, takeOperands_reg_iff htake, or_assoc]
  obtain ⟨hres, hv⟩ | ⟨hres, i, hv⟩ := evexVerdict_cases pfx p0 p1 p2 reg rm imm
  · rw [if_pos (reserved.mpr hres), step_of_decode hm, hdecode, hv]
    rfl
  · rw [if_neg (mt reserved.mp hres)]
    exact ⟨i, hdecode.trans hv, (encodeInvertsDecode m _ i (hdecode.trans hv)).1⟩

/-! ## The effective address in `Mode64` -/

/-- A sum has the same low half whether its registers are cut to 32 bits or not (R75). -/
theorem setWidth_addressSum (m : Mode) (narrow : Bool) (next : Qword) (n : Nat) (s : State) (a : MemAddr) :
    (addressSum m narrow next n s a).setWidth 32 = (addressSum m false next n s a).setWidth 32 := by
  have low_add (x y : Qword) : (x + y).setWidth 32 = x.setWidth 32 + y.setWidth 32 :=
    BitVec.setWidth_add x y (by decide)
  have low_index (i : GReg) (c : Scale) :
      (scaledIndex narrow s i c).setWidth 32 = (scaledIndex false s i c).setWidth 32 := by
    by_cases h : i = 4#4
    · rw [h, scaledIndex_four, scaledIndex_four]
    · rw [setWidth_scaledIndex _ _ _ h, setWidth_scaledIndex _ _ _ h]
  cases a with
  | disp32 => rfl
  | base | sib | sibNoBase => simp only [addressSum, low_add, setWidth_addrReg, low_index]

/-- Settles O49: the reduction forgets whether the registers were cut before. -/
theorem addressSize32 : Obligations.AddressSize32 := by
  intro s pfx len n a h67
  have narrow : addr32 .mode64 pfx = true := by rw [addr32, h67, Bool.or_true]
  have wide : addr32 .mode64 [] = false := rfl
  simp only [effectiveAddress, narrow, wide, if_true, Bool.false_eq_true, if_false, setWidth_addressSum _ true]

theorem effectiveAddress_mode64 {pfx : List Prefix} (h : pfx.contains .addrSize = false) (len n : Nat) (a : MemAddr)
    (s : State) :
    effectiveAddress .mode64 pfx len n a s = addressSum .mode64 false (s.rip + BitVec.ofNat 64 len) n s a := by
  have wide : addr32 .mode64 pfx = false := by rw [addr32, h]; rfl
  simp only [effectiveAddress, wide, Bool.false_eq_true, if_false]

theorem scaledIndex_wide (s : State) {i : GReg} (c : Scale) (h : i ≠ 4#4) :
    scaledIndex false s i c = s.readGpr i * Scale.factor c := if_neg h

/-- Settles O48: nothing is cut off, so the address is the sum each form stands for. -/
theorem effectiveAddressMode64 : Obligations.EffectiveAddressMode64 := by
  intro s pfx len n d8 d32 h67
  have address (a : MemAddr) := effectiveAddress_mode64 h67 len n a s
  have reg (r : GReg) : addrReg false s r = s.readGpr r := rfl
  refine ⟨fun x b => address _, fun d hd c hc => ?_⟩
  have hdisp : dispValue n d.1 = d.2 := by
    revert d
    simp [dispValue]
  have hscale : Scale.factor c.1 = c.2 := by
    revert c
    decide
  refine ⟨fun b x => ?base, fun b i hi => ?sib, fun b => ?sibNoIndex, fun x i hi => ?noBase, fun x => ?noBaseNoIndex⟩
  all_goals simp only [address, addressSum, reg, hdisp]
  case sib | noBase => rw [scaledIndex_wide _ _ hi, hscale]
  case sibNoIndex | noBaseNoIndex => simp

end Sys2Proof.Machine

namespace Sys2Proof

/-- Settles O7: the decoder evaluates on each word. -/
theorem specWordsDecode : Obligations.SpecWordsDecode := ⟨rfl, rfl, rfl, rfl, rfl, rfl⟩

end Sys2Proof

/-! PROOFS of the family 40_gf2p8_helpers.md: the inverse table, parity, the bits of the byte function and its special
cases, and what a byte of the vector function depends on. -/

namespace Sys2Proof.Machine

/-! ## The field -/

theorem gfmul_inverse : ∀ x : Byte, x ≠ 0#8 → gfmul x (inverse x) = 1#8 := by decide +kernel

theorem inverse_involutive : Function.Involutive inverse := by
  unfold Function.Involutive
  decide +kernel

theorem inverse_eq_self_iff : ∀ x : Byte, inverse x = x ↔ x = 0#8 ∨ x = 1#8 := by decide +kernel

/-- Settles O1: an involution is a bijection; the rest is read off the 256 entries of the table. -/
theorem inverseTableInvertsField : Obligations.InverseTableInvertsField :=
  ⟨gfmul_inverse, inverse_involutive.bijective, inverse_involutive, inverse_eq_self_iff⟩

/-! ## Parity

The XOR along a list is what the three readings of parity share: of the bits, of their count, of a sum. -/

/-- The XOR of the values of `p` along a list. -/
def xorAlong {α : Type} (p : α → Bool) : List α → Bool
  | [] => false
  | i :: l => p i ^^ xorAlong p l

theorem parity_eq_xorAlong (v : Byte) : parity v = xorAlong v.getLsbD [7, 6, 5, 4, 3, 2, 1, 0] := by
  simp only [parity, xorAlong, Bool.xor_assoc, Bool.xor_false]

theorem xorAlong_eq_odd_filter {α : Type} (p : α → Bool) (l : List α) :
    xorAlong p l = decide ((l.filter p).length % 2 = 1) := by
  induction l with
  | nil => rfl
  | cons i l ih =>
    rw [xorAlong, ih]
    cases h : p i
    · simp only [List.filter_cons, h, Bool.false_eq_true, if_false, Bool.false_xor]
    · simp only [List.filter_cons, h, if_true, List.length_cons, Bool.true_xor, ← decide_not]
      exact decide_eq_decide.mpr (by omega)

theorem xorAlong_xor {α : Type} (p q : α → Bool) (l : List α) :
    xorAlong (fun i => p i ^^ q i) l = (xorAlong p l ^^ xorAlong q l) := by
  induction l with
  | nil => rfl
  | cons i l ih => simp only [xorAlong, ih, Bool.xor_assoc, Bool.xor_left_comm]

/-- Settles O2: the XOR along the bits counts the ones modulo 2, in whatever order they stand. -/
theorem parityCountsOnes : Obligations.ParityCountsOnes := by
  refine ⟨fun v => ?count, fun _ => rfl, rfl, rfl, rfl⟩
  have order : ((List.range 8).filter fun i => v.getLsbD i).length =
      ([7, 6, 5, 4, 3, 2, 1, 0].filter v.getLsbD).length :=
    ((List.reverse_perm (List.range 8)).symm.filter _).length_eq
  rw [order, parity_eq_xorAlong, xorAlong_eq_odd_filter]

theorem parity_zero : parity 0#8 = false := rfl

theorem parity_xor (u v : Byte) : parity (u ^^^ v) = (parity u ^^ parity v) := by
  have bits : (u ^^^ v).getLsbD = fun i => u.getLsbD i ^^ v.getLsbD i := funext fun _ => BitVec.getLsbD_xor
  simp only [parity_eq_xorAlong, bits, xorAlong_xor]

theorem parity_twoPow : ∀ k < 8, parity (BitVec.twoPow 8 k) = true := by decide

theorem parity_twoPow_and (v : Byte) {k : Nat} (hk : k < 8) : parity (BitVec.twoPow 8 k &&& v) = v.getLsbD k := by
  rw [BitVec.twoPow_and]
  cases v.getLsbD k
  · rw [if_neg Bool.false_ne_true, parity_zero]
  · rw [if_pos rfl, parity_twoPow k hk]

/-! ## The byte function -/

theorem affineInverseByte_eq {q : Qword} {x imm v : Byte}
    (h : ∀ i < 8, affineInverseBit q x imm i = v.getLsbD i) : affineInverseByte q x imm = v :=
  BitVec.eq_of_getLsbD_eq fun i hi => (getLsbD_affineInverseByte q x imm i hi).trans (h i hi)

/-- A row of the matrix with a single 1 takes its bit from one bit of the inverse (R105). -/
theorem affineInverseBit_of_row_twoPow {q : Qword} {i k : Nat} (hk : k < 8) (h : byteAt q (7 - i) = BitVec.twoPow 8 k)
    (x imm : Byte) : affineInverseBit q x imm i = ((inverse x).getLsbD k ^^ imm.getLsbD i) := by
  rw [affineInverseBit, h, parity_twoPow_and _ hk]

/-! ## The special cases (R106) -/

theorem byteAt_identityMatrix : ∀ i < 8, byteAt 0x0102040810204080#64 (7 - i) = BitVec.twoPow 8 i := by decide

theorem byteAt_reversalMatrix : ∀ i < 8, byteAt 0x8040201008040201#64 (7 - i) = BitVec.twoPow 8 (7 - i) := by decide

theorem byteAt_onesMatrix : ∀ i < 8, byteAt 0xFFFFFFFFFFFFFFFF#64 (7 - i) = BitVec.allOnes 8 := by decide

theorem byteAt_zero (k : Nat) : byteAt 0#64 k = 0#8 := BitVec.extractLsb'_zero

theorem affineInverseByte_zeroMatrix (x b : Byte) : affineInverseByte 0#64 x b = b :=
  affineInverseByte_eq fun i _ => by
    rw [affineInverseBit, byteAt_zero, BitVec.zero_and, parity_zero, Bool.false_xor]

theorem affineInverseByte_identityMatrix (x b : Byte) :
    affineInverseByte 0x0102040810204080#64 x b = inverse x ^^^ b :=
  affineInverseByte_eq fun i hi => by
    rw [affineInverseBit_of_row_twoPow hi (byteAt_identityMatrix i hi), BitVec.getLsbD_xor]

theorem affineInverseByte_onesMatrix (x : Byte) :
    affineInverseByte 0xFFFFFFFFFFFFFFFF#64 x 0#8 = if parity (inverse x) then 0xFF#8 else 0#8 :=
  affineInverseByte_eq fun i hi => by
    have ones : (0xFF#8).getLsbD i = true := by revert i; decide
    rw [affineInverseBit, byteAt_onesMatrix i hi, BitVec.allOnes_and]
    cases parity (inverse x) <;> simp [ones]

theorem getLsbD_affineInverseByte_reversalMatrix (x : Byte) (i : Nat) (hi : i < 8) :
    (affineInverseByte 0x8040201008040201#64 x 0#8).getLsbD i = (inverse x).getLsbD (7 - i) := by
  rw [getLsbD_affineInverseByte _ _ _ i hi,
    affineInverseBit_of_row_twoPow (by omega) (byteAt_reversalMatrix i hi), BitVec.getLsbD_zero, Bool.xor_false]

theorem inverse_zero : inverse 0#8 = 0#8 := rfl

theorem affineInverseByte_zero (q : Qword) (b : Byte) : affineInverseByte q 0#8 b = b :=
  affineInverseByte_eq fun i _ => by
    rw [affineInverseBit, inverse_zero, BitVec.and_zero, parity_zero, Bool.false_xor]

theorem byteAt_xor (q₁ q₂ : Qword) (k : Nat) : byteAt (q₁ ^^^ q₂) k = byteAt q₁ k ^^^ byteAt q₂ k :=
  BitVec.extractLsb'_xor

theorem and_xor_distrib_right (u v w : Byte) : (u ^^^ v) &&& w = (u &&& w) ^^^ (v &&& w) :=
  BitVec.eq_of_getLsbD_eq fun i _ => by
    simp only [BitVec.getLsbD_and, BitVec.getLsbD_xor, Bool.and_xor_distrib_right]

theorem affineInverseBit_xor (q₁ q₂ : Qword) (x b₁ b₂ : Byte) (i : Nat) :
    affineInverseBit (q₁ ^^^ q₂) x (b₁ ^^^ b₂) i = (affineInverseBit q₁ x b₁ i ^^ affineInverseBit q₂ x b₂ i) := by
  simp only [affineInverseBit, byteAt_xor, and_xor_distrib_right, parity_xor, BitVec.getLsbD_xor, Bool.xor_assoc,
    Bool.xor_left_comm]

theorem affineInverseByte_xor (q₁ q₂ : Qword) (x b₁ b₂ : Byte) :
    affineInverseByte (q₁ ^^^ q₂) x (b₁ ^^^ b₂) = affineInverseByte q₁ x b₁ ^^^ affineInverseByte q₂ x b₂ :=
  affineInverseByte_eq fun i hi => by
    rw [affineInverseBit_xor, BitVec.getLsbD_xor, getLsbD_affineInverseByte _ _ _ i hi,
      getLsbD_affineInverseByte _ _ _ i hi]

/-- Settles O4: each row of the matrix selects no bit, one bit or all bits of the inverse, and parity is linear. -/
theorem affineInverseByteSpecialCases : Obligations.AffineInverseByteSpecialCases :=
  ⟨affineInverseByte_zeroMatrix, affineInverseByte_identityMatrix, affineInverseByte_onesMatrix,
    getLsbD_affineInverseByte_reversalMatrix, affineInverseByte_zero, affineInverseByte_xor⟩

/-- Settles O3: the bits of the byte function, and the identity matrix for the example. -/
theorem affineInverseByteBits : Obligations.AffineInverseByteBits :=
  ⟨getLsbD_affineInverseByte, affineInverseByte_identityMatrix 0x95#8 0x00#8⟩

/-! ## The vector function -/

/-- Settles O6: below VL the byte is the byte function of its own byte of x and its own lane's matrix. -/
theorem resultByteIndependence : Obligations.ResultByteIndependence := by
  intro vl x x' a a' imm n hn hx ha
  have byte (x a : Vec) := byteAt_affineInvVec vl.kl (vl_kl_le vl) x a imm n hn
  rw [byte, byte, hx, ha]

end Sys2Proof.Machine

/-! PROOFS of the family 41_gf2p8affineinvqb.md: the vector function by lanes, what a completed execution writes, the
result of each form and operand kind, overlapping registers, an all-zero writemask, and the step at `rip`. -/

namespace Sys2Proof.Machine

/-! ## The vector function and the values the forms write -/

theorem isAffineInverse_affineInvVec {kl : Nat} (hkl : kl ≤ 8) (x a : Vec) (imm : Byte) :
    IsAffineInverse kl x a (affineInvVec kl x a imm) imm := by
  intro j hj b hb
  rw [byteAt_qwordAt _ _ _ hb, byteAt_qwordAt _ _ _ hb, byteAt_affineInvVec _ hkl _ _ _ _ (by omega),
    show (8 * j + b) / 8 = j by omega]

/-- Settles O5: the three numbers of lanes are at most 8. -/
theorem vectorFunctionByLanes : Obligations.VectorFunctionByLanes := by
  intro kl hkl x a imm
  have lanes : kl ≤ 8 := (by decide : ∀ k ∈ [2, 4, 8], k ≤ 8) kl hkl
  exact isAffineInverse_affineInvVec lanes x a imm

/-- The legacy form's value has the two lanes of the vector function (R111). -/
theorem isAffineInverse_legacyResult {x a r : Vec} {imm : Byte} (h : IsAffineInverse 2 x a r imm) (old : Vec) :
    IsAffineInverse 2 x a (legacyResult old r) imm := by
  intro j hj b hb
  rw [byteAt_qwordAt _ _ _ hb, byteAt_legacyResult _ _ _ (by omega), if_pos (by omega), ← byteAt_qwordAt _ _ _ hb,
    h j hj b hb]

/-- An EVEX form's value is that of the vector function under the writemask (R117). -/
theorem isMaskedAffineInverse_evexResult {vl : Vl} {x a r : Vec} {imm : Byte} (h : IsAffineInverse vl.kl x a r imm)
    (s : State) (mask : Masking) (old : Vec) :
    IsMaskedAffineInverse vl.kl s mask old x a (evexResult vl s mask old r) imm := by
  intro j hj b hb
  have below : 8 * j + b < vl.bytes := by unfold Vl.bytes; omega
  rw [byteAt_qwordAt _ _ _ hb, byteAt_evexResult _ _ _ _ _ _ below, ← byteAt_qwordAt _ _ _ hb,
    ← byteAt_qwordAt _ _ _ hb, h j hj b hb, Nat.mul_comm 8 j]
  cases mask <;> rfl

/-- What an EVEX form writes, as the masked vector function of its registers and its matrices. -/
theorem isMaskedAffineInverse_evexValue (vl : Vl) (s : State) (f : EvexForm) (a : Vec) :
    IsMaskedAffineInverse vl.kl s f.mask (s.readZmm f.dest) (s.readZmm f.src1) a (evexValue vl s f a) f.imm :=
  isMaskedAffineInverse_evexResult (isAffineInverse_affineInvVec (vl_kl_le vl) _ _ _) _ _ _

/-! ## The rows of the VEX and EVEX forms -/

/-- The EVEX row of a vector length (R77). -/
def evexOf (vl : Vl) (f : EvexForm) : Instr :=
  match vl with
  | .v128 => .evexXmm f
  | .v256 => .evexYmm f
  | .v512 => .evexZmm f

section
variable (vl : Vl) (f : EvexForm) (m : Mode) (s : State) (a : Vec)

@[simp] theorem vlOf_evexOf : vlOf (evexOf vl f) = vl := by cases vl <;> rfl
@[simp] theorem destOf_evexOf : destOf (evexOf vl f) = f.dest := by cases vl <;> rfl
@[simp] theorem len_evexOf : (evexOf vl f).len = f.len := by cases vl <;> rfl
@[simp] theorem matrixOf_evexOf : matrixOf m s (evexOf vl f) = evexMatrix m vl f s := by cases vl <;> rfl
@[simp] theorem resultOf_evexOf : resultOf s a (evexOf vl f) = evexValue vl s f a := by cases vl <;> rfl

end

theorem eq_evexOf {i : Instr} {f : EvexForm} (h : i ∈ [Instr.evexXmm f, .evexYmm f, .evexZmm f]) :
    ∃ vl, i = evexOf vl f := by
  simp only [List.mem_cons, List.not_mem_nil, or_false] at h
  obtain rfl | rfl | rfl := h
  · exact ⟨.v128, rfl⟩
  · exact ⟨.v256, rfl⟩
  · exact ⟨.v512, rfl⟩

section
variable (l : Bool) (f : VexForm) (m : Mode) (s : State) (a : Vec)

@[simp] theorem destOf_vexRow : destOf (vexRow l f) = vreg16 f.dest := by cases l <;> rfl
@[simp] theorem len_vexRow : (vexRow l f).len = f.len := by cases l <;> rfl

@[simp] theorem matrixOf_vexRow : matrixOf m s (vexRow l f) = vexMatrix m (vlOf (vexRow l f)) f s := by
  cases l <;> rfl

@[simp] theorem resultOf_vexRow :
    resultOf s a (vexRow l f) = affineInvVec (vlOf (vexRow l f)).kl (s.readZmm (vreg16 f.src1)) a f.imm := by
  cases l <;> rfl

end

theorem eq_vexRow {i : Instr} {f : VexForm} (h : i ∈ [Instr.vexXmm f, .vexYmm f]) : ∃ l, i = vexRow l f := by
  simp only [List.mem_cons, List.not_mem_nil, or_false] at h
  obtain rfl | rfl := h
  · exact ⟨false, rfl⟩
  · exact ⟨true, rfl⟩

/-! ## What a completed execution wrote -/

/-- Settles O21: the frame of an execution, and the next address. -/
theorem completedWriteSet : Obligations.CompletedWriteSet := by
  intro i s t h
  refine ⟨onlyDestChanged_of_exec h, ?_⟩
  obtain ⟨m, a, r, -, -, hr, rfl⟩ := exec_eq_next.mp h
  rw [advance_rip, nextRip_eq hr]

/-- The destination of an instruction whose matrices are known holds its value for them. -/
theorem readZmm_dest_of_exec {i : Instr} {s t : State} {a : Vec} {n : Nat} (ha : ∀ m, matrixOf m s i = .next (a, n))
    (h : exec i s = .next t) : t.readZmm (destOf i) = resultOf s a i := by
  obtain ⟨m, a', r, -, ha', -, rfl⟩ := exec_eq_next.mp h
  obtain rfl : (a, n) = a' := Host.Outcome.next.inj ((ha m).symm.trans ha')
  rw [readZmm_advance, readZmm_writeZmm]

/-- Settles O31: the matrices are the old value of the register, and so are the bytes. -/
theorem overlapUsesOldValues : Obligations.OverlapUsesOldValues := by
  refine ⟨?legacy, ?vex, ?evex⟩
  case legacy =>
    intro f x s t hsrc2 h
    have dest := readZmm_dest_of_exec (i := .legacyXmm f) (fun m => legacyMatrix_reg hsrc2) h
    rw [destOf] at dest
    rw [dest]
    exact isAffineInverse_legacyResult (isAffineInverse_affineInvVec (by decide) _ _ _) _
  case vex =>
    intro f x s t hsrc1 hsrc2 i hi h
    obtain ⟨l, rfl⟩ := eq_vexRow hi
    have dest := readZmm_dest_of_exec (fun m => (matrixOf_vexRow l f m s).trans (vexMatrix_reg hsrc2)) h
    rw [destOf_vexRow, resultOf_vexRow, hsrc1] at dest
    rw [dest]
    exact isAffineInverse_affineInvVec (vl_kl_le _) _ _ _
  case evex =>
    intro f s t hsrc1 hsrc2 i hi h
    obtain ⟨vl, rfl⟩ := eq_evexOf hi
    have dest := readZmm_dest_of_exec (fun m => (matrixOf_evexOf vl f m s).trans (evexMatrix_reg hsrc2)) h
    have value := isMaskedAffineInverse_evexValue vl s f (s.readZmm f.dest)
    rw [destOf_evexOf, resultOf_evexOf] at dest
    rw [hsrc1] at value
    rwa [vlOf_evexOf, dest]

/-! ## An all-zero writemask -/

/-- Where the mask selects no byte, each bit below VL is that of an unselected byte (R117). -/
theorem getLsbD_evexResult_of_none_selected {vl : Vl} {s : State} {mask : Masking}
    (h : ∀ n < vl.bytes, selected s mask n = false) (old r : Vec) (n : Nat) :
    (evexResult vl s mask old r).getLsbD n =
      (decide (n < 64 * vl.kl) && (unselectedByte mask (byteAt old (n / 8))).getLsbD (n % 8)) := by
  by_cases hn : n < 64 * vl.kl
  · have below : n / 8 < vl.bytes := by unfold Vl.bytes; omega
    rw [getLsbD_eq_byteAt, byteAt_evexResult _ _ _ _ _ _ below, h _ below, if_neg Bool.false_ne_true, decide_eq_true hn,
      Bool.true_and]
  · rw [zeroFrom_evexResult _ _ _ _ _ _ (Nat.le_of_not_lt hn), decide_eq_false hn, Bool.false_and]

/-- Settles O32: an unselected byte is the old one or 0. -/
theorem allZeroMask : Obligations.AllZeroMask := by
  intro f k s t i hi h hk
  obtain ⟨vl, rfl⟩ := eq_evexOf hi
  rw [vlOf_evexOf] at hk ⊢
  have bits (hsel : ∀ n < vl.bytes, selected s f.mask n = false) (n : Nat) : (t.readZmm f.dest).getLsbD n =
      (decide (n < 64 * vl.kl) && (unselectedByte f.mask (byteAt (s.readZmm f.dest) (n / 8))).getLsbD (n % 8)) := by
    rw [← destOf_evexOf vl f]
    refine dest_of_exec (P := fun v => v.getLsbD n = _) h fun a => ?_
    rw [resultOf_evexOf, destOf_evexOf]
    exact getLsbD_evexResult_of_none_selected hsel _ _ n
  refine ⟨fun hmask n => ?merging, fun hmask => BitVec.eq_of_getLsbD_eq fun n _ => ?zeroing⟩
  case merging =>
    rw [hmask] at bits
    rw [bits hk, getLsbD_eq_byteAt (s.readZmm f.dest)]
    rfl
  case zeroing =>
    rw [hmask] at bits
    rw [bits hk]
    simp [unselectedByte, Masking.z]

/-! ## Where each form completes, and with what -/

theorem LegacyEnabled.enabled {s : State} (h : LegacyEnabled s) (f : LegacyForm) : Enabled s (.legacyXmm f) :=
  ⟨by simp [UdCondition, h.gfni, h.em, h.osfxsr], h.ts⟩

theorem VexEnabled.enabled {s : State} (h : VexEnabled s) (l : Bool) (f : VexForm) : Enabled s (vexRow l f) := by
  refine ⟨?_, h.ts⟩
  cases l <;> simp [vexRow, UdCondition, h.gfni, h.avx, h.osxsave, h.xcr0]

theorem EvexEnabled.enabled {vl : Vl} {s : State} (h : EvexEnabled vl s) (f : EvexForm) : Enabled s (evexOf vl f) := by
  obtain ⟨gfni, feature, osxsave, xcr0Low, xcr0High, ts⟩ := h
  refine ⟨?_, ts⟩
  cases vl <;> simp only [EvexFeature] at feature <;>
    simp [evexOf, UdCondition, gfni, feature, osxsave, xcr0Low, xcr0High]

theorem memRead_of_readable {m : Mode} {s : State} {g : Seg} {ea : Qword} {n : Nat} (h : Readable m s g ea n) :
    memRead m s g ea n = .next (operandValue m s g ea n, drawsAfter m s g ea n) :=
  memRead_eq_next.mpr ⟨h, rfl⟩

section
variable {m : Mode} {s : State} {a : Vec} {n : Nat}

/-- An instruction that is set up, whose matrices can be had and whose next address exists completes with its value
(R119). -/
theorem exec_completes {i : Instr} {P : Vec → Prop} (hm : s.modelledMode = some m) (he : Enabled s i)
    (ha : matrixOf m s i = .next (a, n)) (hr : CanAdvance m i.len s) (hP : P (resultOf s a i)) :
    ∃ t, exec i s = .next t ∧ Completes i s t P := by
  have checks := prologue_eq_next.mp (prologue_of_enabled hm he)
  have written := exec_eq_next.mpr ⟨m, _, _, checks, ha, nextRip_of_canAdvance hr, rfl⟩
  refine ⟨_, written, advance_rip _ _ _, onlyDestChanged_of_exec written, ?_⟩
  rwa [readZmm_advance, readZmm_writeZmm]

theorem legacy_completes {f : LegacyForm} (hm : s.modelledMode = some m) (he : LegacyEnabled s)
    (ha : legacyMatrix m f s = .next (a, n)) (hr : CanAdvance m f.len s) :
    ∃ t, exec (.legacyXmm f) s = .next t ∧ Completes (.legacyXmm f) s t fun v =>
      IsAffineInverse 2 (s.readZmm (vreg16 f.dest)) a v f.imm ∧ KeepsFrom 128 (s.readZmm (vreg16 f.dest)) v :=
  exec_completes hm (he.enabled f) ha hr
    ⟨isAffineInverse_legacyResult (isAffineInverse_affineInvVec (by decide) _ _ _) _, keepsFrom_legacyResult _ _⟩

theorem vex_completes {l : Bool} {f : VexForm} (hm : s.modelledMode = some m) (he : VexEnabled s)
    (ha : vexMatrix m (vlOf (vexRow l f)) f s = .next (a, n)) (hr : CanAdvance m f.len s) :
    ∃ t, exec (vexRow l f) s = .next t ∧ Completes (vexRow l f) s t fun v =>
      IsAffineInverse (vlOf (vexRow l f)).kl (s.readZmm (vreg16 f.src1)) a v f.imm ∧
      ZeroFrom (64 * (vlOf (vexRow l f)).kl) v := by
  refine exec_completes hm (he.enabled l f) (by rwa [matrixOf_vexRow]) (by rwa [len_vexRow]) ?_
  rw [resultOf_vexRow]
  exact ⟨isAffineInverse_affineInvVec (vl_kl_le _) _ _ _, zeroFrom_affineInvVec _ _ _ _⟩

theorem evex_completes {vl : Vl} {f : EvexForm} (hm : s.modelledMode = some m) (he : EvexEnabled vl s)
    (ha : evexMatrix m vl f s = .next (a, n)) (hr : CanAdvance m f.len s) :
    ∃ t, exec (evexOf vl f) s = .next t ∧ Completes (evexOf vl f) s t fun v =>
      IsMaskedAffineInverse vl.kl s f.mask (s.readZmm f.dest) (s.readZmm f.src1) a v f.imm ∧
      ZeroFrom (64 * vl.kl) v := by
  refine exec_completes hm (he.enabled f) (by rwa [matrixOf_evexOf]) (by rwa [len_evexOf]) ?_
  rw [resultOf_evexOf]
  exact ⟨isMaskedAffineInverse_evexValue vl s f a, zeroFrom_evexResult _ _ _ _ _⟩

end

/-- Settles O24: the matrices are the register's. -/
theorem legacyRegisterResult : Obligations.LegacyRegisterResult :=
  fun _ _ _ _ _ hm he hsrc2 hr => legacy_completes hm he (legacyMatrix_reg hsrc2) hr

/-- Settles O25: the alignment test passes, and the matrices are what the read answers. -/
theorem legacyMemoryResult : Obligations.LegacyMemoryResult := by
  rintro s m f a g ea hm he hsrc2 rfl rfl haligned hread hr
  have aligned : aligned16 m s (operandSeg m f.pfx a) (effectiveAddress m f.pfx f.len 1 a s) = true :=
    beq_iff_eq.mpr haligned
  have matrix := ((legacyMatrix_mem hsrc2).trans (if_pos aligned)).trans (memRead_of_readable hread)
  obtain ⟨t, ht, hc⟩ := legacy_completes hm he matrix hr
  exact ⟨t, _, holdsOperand_operandValue (by decide), ht, hc⟩

/-- Settles O26: the matrices are the register's. -/
theorem vexRegisterResult : Obligations.VexRegisterResult := by
  intro s m f r x hm he hsrc2 hr i hi
  obtain ⟨l, rfl⟩ := eq_vexRow hi
  exact vex_completes hm he (vexMatrix_reg hsrc2) hr

/-- Settles O27: the matrices are what the read answers. -/
theorem vexMemoryResult : Obligations.VexMemoryResult := by
  rintro s m f a g ea hm he hsrc2 rfl rfl hr i hi hread
  obtain ⟨l, rfl⟩ := eq_vexRow hi
  obtain ⟨t, ht, hc⟩ := vex_completes hm he ((vexMatrix_mem hsrc2).trans (memRead_of_readable hread)) hr
  exact ⟨t, _, holdsOperand_operandValue (vl_bytes_le _), ht, hc⟩

/-- Settles O28: the matrices are the register's. -/
theorem evexRegisterResult : Obligations.EvexRegisterResult := by
  intro s m f r hm hsrc2 hr i hi he
  obtain ⟨vl, rfl⟩ := eq_evexOf hi
  rw [vlOf_evexOf] at he ⊢
  exact evex_completes hm he (evexMatrix_reg hsrc2) hr

/-- Settles O29: the matrices are what the read answers. -/
theorem evexMemoryResult : Obligations.EvexMemoryResult := by
  rintro s m f a g ea hm hsrc2 rfl hr i hi he rfl hread
  obtain ⟨vl, rfl⟩ := eq_evexOf hi
  rw [vlOf_evexOf] at he hread ⊢
  obtain ⟨t, ht, hc⟩ := evex_completes hm he ((evexMatrix_mem hsrc2).trans (memRead_of_readable hread)) hr
  exact ⟨t, _, holdsOperand_operandValue (vl_bytes_le vl), ht, hc⟩

/-- Settles O30: quadword 0 of the read stands in every lane of the matrices. -/
theorem evexBroadcastResult : Obligations.EvexBroadcastResult := by
  rintro s m f a g ea hm hsrc2 rfl rfl hread hr i hi he
  obtain ⟨vl, rfl⟩ := eq_evexOf hi
  rw [vlOf_evexOf] at he ⊢
  have matrix := evexMatrix_bcst (m := m) (s := s) (vl := vl) hsrc2
  rw [memRead_of_readable hread, andThen_next] at matrix
  obtain ⟨t, ht, hc⟩ := evex_completes hm he matrix hr
  refine ⟨t, _, _, holdsOperand_operandValue (by decide), fun j hj => ?_, ht, hc⟩
  exact piece_assemble 512 64 _ _ j hj (by have := vl_kl_le vl; omega)

/-! ## The step -/

/-- Settles O16: the bytes fetched decode to the instruction, whatever follows it. -/
theorem stepRunsInstructionAtRip : Obligations.StepRunsInstructionAtRip := by
  intro s m i hm hwf ht
  obtain ⟨hf, hl⟩ := wellFormed_iff.mp hwf
  rw [step_of_decode hm, decode_fetch ((length_encode i).trans_le hl) ht (decodeWindow_encode hf)]

end Sys2Proof.Machine

/-! PROOFS of the family 60_exceptions.md: what each exception carries, exactly when #UD and #NM are raised, the page
fault of an operand, and what plays no part in faults: the writemask and, but for the translation, the privilege level. -/

namespace Sys2Proof.Machine

/-- Settles O56: the table of R141, row by row. -/
theorem exceptionVectorsAndCodes : Obligations.ExceptionVectorsAndCodes :=
  ⟨⟨rfl, rfl, rfl⟩, ⟨rfl, rfl, rfl⟩, ⟨rfl, rfl, rfl⟩, ⟨rfl, rfl, rfl⟩, fun _ _ => ⟨rfl, rfl, rfl⟩⟩

/-! ## #UD and #NM -/

section
variable {m : Mode} {s : State} {i : Instr} {e : Fault}

theorem segFault_ne_ud_nm (g : Seg) : segFault g ≠ .ud ∧ segFault g ≠ .nm := by cases g <;> decide

/-- The operand of an instruction raises #GP, #SS or #PF, never #UD or #NM (R146, R147). -/
theorem ne_ud_nm_of_matrixOf_fault (h : matrixOf m s i = .fault e) : e ≠ .ud ∧ e ≠ .nm := by
  obtain ⟨g, ea, n, -, ⟨-, rfl⟩ | ⟨-, hread⟩⟩ := matrixOf_eq_fault h
  · decide
  · obtain ⟨-, rfl⟩ | ⟨-, k, -, code, -, rfl⟩ := memRead_eq_fault hread
    · exact segFault_ne_ud_nm g
    · exact ⟨nofun, nofun⟩

/-- #UD and #NM are raised by the checks before an instruction alone. -/
theorem exec_eq_fault_iff_prologue (he : e = .ud ∨ e = .nm) :
    exec i s = .fault e ↔ prologue (udOf s i) s = .fault e := by
  rw [exec_eq_fault, or_iff_left]
  rintro ⟨m, -, hmatrix⟩
  obtain ⟨hud, hnm⟩ := ne_ud_nm_of_matrixOf_fault hmatrix
  exact he.elim hud hnm

end

/-- Settles O34: the checks raise #UD exactly on the condition that the meaning tests, which is R144's. -/
theorem udExactlyWhen : Obligations.UdExactlyWhen := by
  intro i s m hm
  rw [exec_eq_fault_iff_prologue (.inl rfl), prologue_eq_fault, ← udOf_iff]
  simp [hm]

/-- Settles O35: the checks raise #NM where they do not raise #UD and CR0.TS = 1. -/
theorem nmExactlyWhen : Obligations.NmExactlyWhen := by
  refine ⟨fun i s m hm => ?_, rfl, rfl⟩
  rw [exec_eq_fault_iff_prologue (.inr rfl), prologue_eq_fault, ← udOf_iff]
  simp [hm, and_comm]

/-- Settles O40: a fault is one of the checks', or it is the matrix operand's, which is a memory operand then. -/
theorem registerFormsNeverFaultOnMemory : Obligations.RegisterFormsNeverFaultOnMemory := by
  intro s m i e hm hreg h
  obtain hchecks | ⟨m', hpass, hmatrix⟩ := exec_eq_fault.mp h
  · obtain ⟨-, ⟨-, he⟩ | ⟨-, -, he⟩⟩ := prologue_eq_fault.mp hchecks
    · exact .inl he
    · exact .inr he
  · obtain rfl : m = m' := Option.some.inj (hm.symm.trans (prologue_eq_next.mp hpass).1)
    obtain ⟨g, ea, n, hmo, -⟩ := matrixOf_eq_fault hmatrix
    simp [hreg] at hmo

/-! ## Page faults -/

/-- Where every byte is legal and some byte does not translate, the read raises the page fault of such a byte (R147). -/
theorem memRead_of_pageFault {m : Mode} {s : State} {g : Seg} {ea : Qword} {n : Nat}
    (hl : ∀ k < n, byteLegal m s g ea k = true) (ht : ∃ k < n, ∃ code, byteTranslated m s g ea k = .fault code) :
    ∃ k < n, ∃ code, byteTranslated m s g ea k = .fault code ∧
      memRead m s g ea n = .fault (.pf code (linearAt m s g ea k)) := by
  obtain ⟨e, hread⟩ : ∃ e, memRead m s g ea n = .fault e := by
    have legal : (List.range n).all (byteLegal m s g ea) = true := by simpa using hl
    have faulting : pageFaults m s g ea n ≠ [] := by
      obtain ⟨k, hk, code, hc⟩ := ht
      intro hnil
      obtain ⟨phys, kind, hok⟩ := bytePageFault_eq_none.mp (pageFaults_eq_nil.mp hnil k hk)
      exact nomatch hc.symm.trans hok
    obtain ⟨first, others, hp⟩ := List.exists_cons_of_ne_nil faulting
    exact ⟨reportedFault _ first others, by rw [memRead, if_pos legal, hp]; rfl⟩
  obtain ⟨⟨k, hk, illegal⟩, -⟩ | ⟨-, k, hk, code, hc, rfl⟩ := memRead_eq_fault hread
  · simp [hl k hk] at illegal
  · exact ⟨k, hk, code, hc, hread⟩

/-- Settles O38: the instruction raises the page fault of its read. -/
theorem pageFaultRaises : Obligations.PageFaultRaises := by
  intro s m i g ea n hm he hmo ha hl ht
  obtain ⟨k, hk, code, hc, hread⟩ := memRead_of_pageFault hl ht
  exact ⟨k, hk, code, hc, exec_of_read_fault hm he hmo ha hread⟩

/-! ## The writemask -/

/-- Neither the checks nor the matrix operand of an EVEX form depends on its masking (R47, R148). -/
theorem exec_evexOf_fault_withMask (vl : Vl) (f : EvexForm) (mask : Masking) (s : State) (e : Fault) :
    exec (evexOf vl f) s = .fault e ↔ exec (evexOf vl { f with mask := mask }) s = .fault e := by
  have checks : udOf s (evexOf vl { f with mask := mask }) = udOf s (evexOf vl f) := by cases vl <;> rfl
  have matrix (m : Mode) : evexMatrix m vl { f with mask := mask } s = evexMatrix m vl f s := rfl
  simp only [exec_eq_fault, matrixOf_evexOf, checks, matrix]

/-- An EVEX form asks no alignment of its operand (R45). -/
theorem operandAligned_evexOf {m : Mode} {s : State} {g : Seg} {ea : Qword} (vl : Vl) (f : EvexForm) :
    OperandAligned m s g ea (evexOf vl f) := by
  cases vl <;> trivial

/-- Settles O39: no fault depends on the masking, and the page fault is raised whatever the writemask holds. -/
theorem noFaultSuppression : Obligations.NoFaultSuppression := by
  refine ⟨fun f mask s e => ?anyMasking, fun f k s m g ea n i hi hm he _ _ hmo hl ht => ?allZero⟩
  case anyMasking =>
    have same (vl : Vl) := exec_evexOf_fault_withMask vl f mask s e
    exact ⟨same .v128, same .v256, same .v512⟩
  case allZero =>
    obtain ⟨vl, rfl⟩ := eq_evexOf hi
    obtain ⟨k, -, code, -, hx⟩ := pageFaultRaises s m _ g ea n hm he hmo (operandAligned_evexOf vl f) hl ht
    exact ⟨code, _, hx⟩

/-! ## The privilege level -/

/-- The state at another privilege level. -/
def State.withCpl (s : State) (c : BitVec 2) : State := { s with cpl := c }

section
variable {m : Mode} {s : State} {c : BitVec 2}

/-- A read whose bytes translate the same at another privilege level is the same there (R155). -/
theorem memRead_withCpl {g : Seg} {ea : Qword} {n : Nat}
    (h : ∀ k < n, translate s.translation (linearAt m s g ea k) c = translate s.translation (linearAt m s g ea k) s.cpl) :
    memRead m (s.withCpl c) g ea n = memRead m s g ea n := by
  refine memRead_congr rfl fun k hk => ?_
  have same : byteTranslated m (s.withCpl c) g ea k = byteTranslated m s g ea k := h k hk
  exact ⟨rfl, rfl, same, by rw [byteValue, byteValue, same]; rfl⟩

/-- The matrix operand depends on the privilege level through the read of the memory operand alone (R155). -/
theorem matrixOf_withCpl {i : Instr}
    (h : ∀ g ea n, memOperandOf m s i = some (g, ea, n) →
      memRead m (s.withCpl c) g ea n = memRead m s g ea n) :
    matrixOf m (s.withCpl c) i = matrixOf m s i := by
  cases i with
  | legacyXmm f =>
    cases hs : f.src2 with
    | reg r x => simp only [matrixOf, legacyMatrix_reg hs]; rfl
    | mem a =>
      simp only [matrixOf, legacyMatrix_mem hs]
      exact congrArg (ite _ · _) (h _ _ _ (by simp only [memOperandOf, hs]; rfl))
  | vexXmm f | vexYmm f =>
    cases hs : f.src2 with
    | reg r x => simp only [matrixOf, vexMatrix_reg hs]; rfl
    | mem a =>
      simp only [matrixOf, vexMatrix_mem hs]
      exact h _ _ _ (by simp only [memOperandOf, hs]; rfl)
  | evexXmm f | evexYmm f | evexZmm f =>
    cases hs : f.src2 with
    | reg r => simp only [matrixOf, evexMatrix_reg hs]; rfl
    | mem a =>
      simp only [matrixOf, evexMatrix_mem hs]
      exact h _ _ _ (by simp only [memOperandOf, hs]; rfl)
    | bcst a =>
      simp only [matrixOf, evexMatrix_bcst hs]
      exact congrArg (andThen · _) (h _ _ _ (by simp only [memOperandOf, hs]; rfl))

theorem prologue_withCpl (s : State) (c : BitVec 2) (i : Instr) :
    prologue (udOf (s.withCpl c) i) (s.withCpl c) = prologue (udOf s i) s := by
  cases i <;> rfl

theorem resultOf_withCpl (s : State) (c : BitVec 2) (a : Vec) (i : Instr) :
    resultOf (s.withCpl c) a i = resultOf s a i := by
  cases i <;> rfl

theorem finish_withCpl (m : Mode) (len : Nat) (d : VReg) (v : Vec) (n : Nat) (s : State) (c : BitVec 2) :
    finish m len d v n (s.withCpl c) = andThen (finish m len d v n s) fun t => .next (t.withCpl c) := by
  have hr : nextRip m len (s.withCpl c) = nextRip m len s := rfl
  rw [finish, finish, hr]
  cases nextRip m len s <;> rfl

/-- An execution whose matrix operand is the same at another privilege level commutes with the change to it (R155). -/
theorem exec_withCpl {i : Instr}
    (h : ∀ m, s.modelledMode = some m → matrixOf m (s.withCpl c) i = matrixOf m s i) :
    exec i (s.withCpl c) = andThen (exec i s) fun t => .next (t.withCpl c) := by
  simp only [exec_eq, prologue_withCpl, resultOf_withCpl, finish_withCpl]
  cases hp : prologue (udOf s i) s with
  | fault e => rfl
  | refused e => rfl
  | next m =>
    simp only [andThen_next, h m (prologue_eq_next.mp hp).1]
    cases matrixOf m s i <;> rfl

end

/-- Settles O47: every outcome goes through the commutation. -/
theorem privilegeOnlyThroughTranslate : Obligations.PrivilegeOnlyThroughTranslate := by
  intro i s c hsame
  have commutes := exec_withCpl fun m hm => matrixOf_withCpl fun g ea n hmo => memRead_withCpl (hsame m g ea n hm hmo)
  refine ⟨fun t h => ?_, fun e h => ?_, fun e h => ?_⟩ <;> rwa [h] at commutes

end Sys2Proof.Machine
